-- ==== Sys2Proof/Word.lean ====
section
/-! DEFINITION. The word types of the block: the widths that spec/10_state.md's register table names. -/

namespace Sys2Proof

/-- A byte, the unit of every buffer access (R72). -/
abbrev Byte := BitVec 8

/-- A 16-bit register value (ports, window, checksum, lengths). -/
abbrev Half := BitVec 16

/-- A 32-bit value: a stream offset (R13, `OFFSET_WIDTH`) or a duration (`DUR_WIDTH`). -/
abbrev Word := BitVec 32

/-- A 64-bit value: a tick count (R39, `TIME_WIDTH`) or the length of `OUT`. -/
abbrev Dword := BitVec 64

/-- A command word (R100, `CMD_WIDTH`). -/
abbrev CmdWord := BitVec 40

end Sys2Proof
end

