-- ==== Sys2Proof/Config.lean ====
section
/-! DEFINITION. The parameters of the block (R6) and the free values the spec leaves open (R51). -/

namespace Sys2Proof

/-- `HDR_BYTES`, fixed (R6). -/
def hdrBytes : Nat := 18

/-- The parameters a model takes as configuration arguments, with the defaults of R6. -/
structure Config where
  frameSize : Nat  := 1024
  pendSlots : Nat  := 8
  flagFin   : Byte := 0x01
  flagSyn   : Byte := 0x02
  flagAck   : Byte := 0x10
deriving DecidableEq, Repr

/-- The configuration this hardware takes: every parameter at the default of R6. -/
def Config.standard : Config := {}

/-- `MSS = FRAME_SIZE - HDR_BYTES` (R6). -/
def Config.mss (c : Config) : Nat := c.frameSize - hdrBytes

/-- FREE VALUE (R51, U1; assumption 1): the byte that a RAM-like buffer holds at an index nothing has written
since the hardware reset. `draw` numbers the hardware resets, `buf` is the buffer number of R50, `i` the byte
index. It has no body: nothing can be proved of its value. -/
opaque Config.ramAtReset (draw buf i : Nat) : Byte

/-- The bound that the platform's time base stays below: `2^64 - 2^32` (R39). -/
def timeBound : Nat := 2 ^ 64 - 2 ^ 32

end Sys2Proof
end

