-- ==== Sys2Proof/Syntax.lean ====
section
/-! DEFINITION. The twelve commands of `OCG command set, version 1` (R2, R103). -/

namespace Sys2Proof

/-- A command: one constructor per row of spec/opcode_table.json. Only the two format `I` commands carry an
operand, 32 bits as it stands (R101, R102). -/
inductive Instr where
  | sysNop
  | csumGen
  | csumChk
  | frmEnc
  | frmDec
  | tmrStart (d : Word)
  | tmrRestart
  | tmrStop
  | tmrPoll
  | rsmInit (x : Word)
  | rsmRx
  | sysReset
deriving DecidableEq, Repr

end Sys2Proof
end

