-- ==== Sys2Proof/WellFormed.lean ====
section
/-! DEFINITION. Well-formedness: of a configuration (R6, U12, U13) and of a command. -/

namespace Sys2Proof

/-- A mask with exactly one bit set (R6: single-bit values of an 8-bit field). -/
def isSingleBit (m : Byte) : Bool :=
  m == 0x01 || m == 0x02 || m == 0x04 || m == 0x08 || m == 0x10 || m == 0x20 || m == 0x40 || m == 0x80

/-- The bounds of R6: `18 <= FRAME_SIZE <= 65535`, `1 <= PEND_SLOTS <= 255`, three distinct single-bit flag
masks. A configuration outside them is refused (U12, U13). -/
def Config.ok (c : Config) : Bool :=
  (decide (18 ≤ c.frameSize) && decide (c.frameSize ≤ 65535)) &&
  (decide (1 ≤ c.pendSlots) && decide (c.pendSlots ≤ 255)) &&
  (isSingleBit c.flagFin && isSingleBit c.flagSyn && isSingleBit c.flagAck) &&
  (decide (c.flagFin ≠ c.flagSyn) && decide (c.flagFin ≠ c.flagAck) && decide (c.flagSyn ≠ c.flagAck))

/-- Every command is well-formed: an operand is typed by its width, and every value of `imm32` is legal in
format `I` (R101, vectors Y9 and Y10). -/
def Instr.wf : Instr → Bool
  | .sysNop => true
  | .csumGen => true
  | .csumChk => true
  | .frmEnc => true
  | .frmDec => true
  | .tmrStart _ => true
  | .tmrRestart => true
  | .tmrStop => true
  | .tmrPoll => true
  | .rsmInit _ => true
  | .rsmRx => true
  | .sysReset => true

end Sys2Proof
end

