-- ==== Sys2Proof/Decode.lean ====
section
/-! DEFINITION. The command word (R100 to R105): decoding, total on every 40-bit word and rejecting by name, and
the encoder written from the same table. -/

namespace Sys2Proof

/-- Why a word is no command (R105). -/
inductive DecodeError where
  /-- The opcode is none of the twelve of R103. -/
  | unassignedOpcode
  /-- A format `N` word whose `imm32` is not zero (R101). -/
  | nonZeroOperand
deriving DecidableEq, Repr

/-- Bits 39:32 of a command word (R100). -/
def opcodeField (w : CmdWord) : Byte := w.extractLsb' 32 8

/-- Bits 31:0 of a command word (R100). -/
def immField (w : CmdWord) : Word := w.extractLsb' 0 32

/-- The word `{opcode, imm32}` (R100, R7). -/
def cmdWord (op : Byte) (imm : Word) : CmdWord := op ++ imm

/-- Format `N`: `imm32` is reserved and must be zero (R101). -/
def formatN (i : Instr) (imm : Word) : Except DecodeError Instr :=
  if imm = 0 then .ok i else .error .nonZeroOperand

/-- The opcode map of R103. -/
def decode (w : CmdWord) : Except DecodeError Instr :=
  let imm := immField w
  match (opcodeField w).toNat with
  | 0x00 => formatN .sysNop imm
  | 0x01 => formatN .csumGen imm
  | 0x02 => formatN .csumChk imm
  | 0x10 => formatN .frmEnc imm
  | 0x11 => formatN .frmDec imm
  | 0x20 => .ok (.tmrStart imm)
  | 0x21 => formatN .tmrRestart imm
  | 0x22 => formatN .tmrStop imm
  | 0x23 => formatN .tmrPoll imm
  | 0x30 => .ok (.rsmInit imm)
  | 0x31 => formatN .rsmRx imm
  | 0xFF => formatN .sysReset imm
  | _ => .error .unassignedOpcode

/-- The opcode of a command (R103). -/
def Instr.opcode : Instr → Byte
  | .sysNop => 0x00
  | .csumGen => 0x01
  | .csumChk => 0x02
  | .frmEnc => 0x10
  | .frmDec => 0x11
  | .tmrStart _ => 0x20
  | .tmrRestart => 0x21
  | .tmrStop => 0x22
  | .tmrPoll => 0x23
  | .rsmInit _ => 0x30
  | .rsmRx => 0x31
  | .sysReset => 0xFF

/-- The operand of a command: zero in format `N` (R101, R102). -/
def Instr.imm : Instr → Word
  | .sysNop => 0
  | .csumGen => 0
  | .csumChk => 0
  | .frmEnc => 0
  | .frmDec => 0
  | .tmrStart d => d
  | .tmrRestart => 0
  | .tmrStop => 0
  | .tmrPoll => 0
  | .rsmInit x => x
  | .rsmRx => 0
  | .sysReset => 0

/-- The word of a command (R100, R103). -/
def encode (i : Instr) : CmdWord := cmdWord i.opcode i.imm

/-- The column `match` of R103's table for the command's row. -/
def Instr.rowMatch : Instr → CmdWord
  | .sysNop => 0x0000000000
  | .csumGen => 0x0100000000
  | .csumChk => 0x0200000000
  | .frmEnc => 0x1000000000
  | .frmDec => 0x1100000000
  | .tmrStart _ => 0x2000000000
  | .tmrRestart => 0x2100000000
  | .tmrStop => 0x2200000000
  | .tmrPoll => 0x2300000000
  | .rsmInit _ => 0x3000000000
  | .rsmRx => 0x3100000000
  | .sysReset => 0xFF00000000

/-- The column `mask` of R103's table for the command's row. -/
def Instr.rowMask : Instr → CmdWord
  | .sysNop => 0xFFFFFFFFFF
  | .csumGen => 0xFFFFFFFFFF
  | .csumChk => 0xFFFFFFFFFF
  | .frmEnc => 0xFFFFFFFFFF
  | .frmDec => 0xFFFFFFFFFF
  | .tmrStart _ => 0xFF00000000
  | .tmrRestart => 0xFFFFFFFFFF
  | .tmrStop => 0xFFFFFFFFFF
  | .tmrPoll => 0xFFFFFFFFFF
  | .rsmInit _ => 0xFF00000000
  | .rsmRx => 0xFFFFFFFFFF
  | .sysReset => 0xFFFFFFFFFF

/-- What the decoder reads from a row's word, numbered as spec/opcode_table.json numbers it: a command is one
word of 40 bits, bit 0 its least significant (R100; assumption 14). Bits above `nbits` are zero; a word that does
not fit 40 bits is no command. -/
def decodeTableWord (nbits w : Nat) : Option Instr :=
  let v := w % 2 ^ nbits
  if v < 2 ^ 40 then
    match decode (BitVec.ofNat 40 v) with
    | .ok i => some i
    | .error _ => none
  else none

end Sys2Proof
end

