-- ==== Sys2Proof/Machine/State.lean ====
section
/-! DEFINITION. The state of one block instance (R20), plain data, and its reset value (R55). -/

namespace Sys2Proof.Machine

/-- The bytes of a RAM-like buffer (`PAY`, `FRM`, `SLOT[i].DATA`): (byte index, byte), indexes strictly rising. An
index not listed holds no known value, since nothing has written it since the hardware reset (R51; assumption 1). -/
abbrev Memory := List Host.Cell

/-- The header fields of a segment, in the order of the wire format (R23, R110): the registers `SEG_SRC_PORT` to
`SEG_CHECKSUM`. -/
structure Header where
  srcPort    : Half
  dstPort    : Half
  seqNum     : Word
  ackNum     : Word
  hdrLen     : Byte
  flags      : Byte
  recvWindow : Half
  checksum   : Half
deriving DecidableEq, Repr

/-- The all-zero header, the reset value (R22). -/
def Header.zero : Header := ⟨0, 0, 0, 0, 0, 0, 0, 0⟩

/-- `TSTATE` (R36). -/
inductive TimerState where
  | idle
  | running
  | expired
deriving DecidableEq, Repr

/-- `RSTATE` (R44). -/
inductive ReasmState where
  | idle
  | active
  | done
deriving DecidableEq, Repr

/-- The completion codes that are ever produced (R231). -/
inductive CompletionCode where
  | ok
  | illegalCmd
  | encodingError
  | decodingError
  | tmrNoDuration
  | rsmInactive
deriving DecidableEq, Repr

/-- The outcome codes of `RSM.RX` that are ever produced (R199). -/
inductive RxResult where
  | none
  | accepted
  | acceptedFin
  | buffered
  | dupPending
  | stale
  | badCsum
  | badFrame
  | noSlot
  | afterDone
deriving DecidableEq, Repr

/-- One pending slot: `SLOT[i]` (R41, R42). -/
structure Slot where
  v    : Bool
  fin  : Bool
  off  : Word
  len  : Half
  data : Memory
deriving DecidableEq, Repr

/-- A slot after hardware reset: free, in the canonical empty state (R55, R193), its `DATA` unspecified (R51). -/
def Slot.empty : Slot := { v := false, fin := false, off := 0, len := 0, data := [] }

/-- What acts on the block between two of its states (R14, R80, R180, R260): the host's four access primitives, an
advance of the time base, the hardware reset signal. Register and buffer numbers run over `0x000 .. 0xFFF` (R71, R72),
a byte index over every number; a register value is a natural number (R7). A command is a `writeReg` of `CMD`. -/
inductive Event where
  | writeReg  (r : BitVec 12) (v : Nat)
  | readReg   (r : BitVec 12)
  | writeByte (b : BitVec 12) (i : Nat) (v : Byte)
  | readByte  (b : BitVec 12) (i : Nat)
  | tick      (n : Nat)
  | hardwareReset
deriving DecidableEq, Repr

/-- The machine. The first five fields are not state of the block: the parameters of the step relation (R15) and
the model's own (`hostReads`, `ramDraw`). -/
structure State where
  /-- The configuration (R6), which no step changes. -/
  cfg : Config
  /-- `NOW`, the platform's time base (R39). -/
  now : Dword
  /-- What the host and the platform do next (R15, R28; assumption 3). -/
  script : List Event
  /-- The model's own: the values handed back to the host's reads, newest first (assumption 6). -/
  hostReads : List Nat
  /-- The model's own: which draw of the free RAM contents holds (R51; assumption 1). -/
  ramDraw : Nat
  /-- `SEG_SRC_PORT` to `SEG_CHECKSUM` (R23). -/
  seg : Header
  /-- `SEG_PLEN` (R25). -/
  segPlen : Half
  /-- Buffer `PAY` (R50). -/
  pay : Memory
  /-- Buffer `FRM` (R50). -/
  frm : Memory
  /-- `FLEN` (R22). -/
  flen : Half
  /-- `CSUM_CALC` (R22). -/
  csumCalc : Half
  /-- `STATUS.CKOK` (R31). -/
  ckok : Bool
  /-- `STATUS.CC` (R32). -/
  cc : CompletionCode
  /-- `STATUS.RXRES` (R32, R199). -/
  rxres : RxResult
  /-- `STATUS.TPOLL` (R32). -/
  tpoll : Bool
  /-- `STATUS.BUSY` (R30, R85). -/
  busy : Bool
  /-- `ESR` (R33). -/
  esr : Word
  /-- `STATUS.TSTATE` (R36). -/
  tstate : TimerState
  /-- `DEADLINE` (R36). -/
  deadline : Dword
  /-- `TDUR` (R38). -/
  tdur : Word
  /-- `STATUS.TDURV` (R38). -/
  tdurv : Bool
  /-- `STATUS.RSTATE` (R44). -/
  rstate : ReasmState
  /-- `EXPECTED` (R41). -/
  expected : Word
  /-- The pending slot file, `PEND_SLOTS` slots (R41). -/
  slots : List Slot
  /-- Buffer `OUT` (R46). -/
  out : List Byte
  /-- `OUTLEN` (R46). -/
  outlen : Dword
  /-- `ACKT_SRC_PORT` (R48). -/
  acktSrcPort : Half
  /-- `ACKT_DST_PORT` (R48). -/
  acktDstPort : Half
  /-- `ACKT_SEQ_NUM` (R48). -/
  acktSeqNum : Word
  /-- `ACKT_HDR_LEN` (R48). -/
  acktHdrLen : Byte
  /-- `ACKT_RECV_WINDOW` (R48). -/
  acktRecvWindow : Half
  /-- Buffer `ACKF`, 18 bytes (R48). -/
  ackf : List Byte
deriving DecidableEq, Repr

/-- The faults of the machine: there is none. Every command ends, every host access returns and no state is a dead
end (93_implementation_defined.md, end of part 1); an error of a command is a next state (R230, R235). -/
inductive Fault where
deriving DecidableEq, Repr

/-- Why the model does not answer a step. Each is safe: the model stops where the spec gives no behaviour. -/
inductive Refusal where
  /-- Raised by an arm of `exec` that has no meaning yet (none is left). Safe. -/
  | notModelled (mnemonic : String)
  /-- Raised by `step`: a configuration outside the bounds of R6, refused by U12 and U13. Safe. -/
  | configOutOfBounds
  /-- Raised by a host access other than a read of `STATUS` made while `BUSY = 1`, refused by R85, R290, U5. Safe. -/
  | hostAccessWhileBusy
  /-- Raised by an advance of the time base to `2^64 - 2^32` or beyond, refused by R39, R290, U3. Safe. -/
  | timeBaseOutOfRange
  /-- Raised by a register write whose value has not the register's width: no host write supplies one (R21). Safe. -/
  | valueWiderThanRegister
  /-- Raised by `step` when the script is at its end, which is the end of the run (R291). Safe. -/
  | endOfScript
deriving DecidableEq, Repr

/-- What a meaning answers. -/
abbrev Result := Host.Outcome State Fault Refusal

/-- The machine right after hardware reset (R55, R260, R261), in the standard configuration (R6), with no script.
`now` is the platform's (assumption 2: 0), the RAM contents are free (assumption 1). -/
def State.reset : State :=
  { cfg := Config.standard
    now := 0
    script := []
    hostReads := []
    ramDraw := 0
    seg := Header.zero
    segPlen := 0
    pay := []
    frm := []
    flen := 0
    csumCalc := 0
    ckok := false
    cc := .ok
    rxres := .none
    tpoll := false
    busy := false
    esr := 0
    tstate := .idle
    deadline := 0
    tdur := 0
    tdurv := false
    rstate := .idle
    expected := 0
    slots := List.replicate Config.standard.pendSlots Slot.empty
    out := []
    outlen := 0
    acktSrcPort := 0
    acktDstPort := 0
    acktSeqNum := 0
    acktHdrLen := 18
    acktRecvWindow := 0
    ackf := List.replicate hdrBytes 0 }

end Sys2Proof.Machine
end

