-- ==== Sys2Proof/Machine/Operands.lean ====
section
/-! DEFINITION. Numbers and bytes: byte order (R10, R74), offset arithmetic (R13), and the header between its
registers and its bytes (R110). -/

namespace Sys2Proof.Machine

/-- `be16` (R10): two bytes, most significant first. -/
def be16 (v : Half) : List Byte := [v.extractLsb' 8 8, v.extractLsb' 0 8]

/-- `be32` (R10): four bytes, most significant first. -/
def be32 (v : Word) : List Byte :=
  [v.extractLsb' 24 8, v.extractLsb' 16 8, v.extractLsb' 8 8, v.extractLsb' 0 8]

/-- `u16` (R10): `b0 * 256 + b1`, written as the concatenation of R7. -/
def u16 (b0 b1 : Byte) : Half := b0 ++ b1

/-- `u32` (R10): the four bytes, `b0` the most significant. -/
def u32 (b0 b1 b2 b3 : Byte) : Word := (u16 b0 b1) ++ (u16 b2 b3)

/-- `add32` (R13): `(a + n) mod 2^32`. -/
def add32 (a : Word) (n : Nat) : Word := a + BitVec.ofNat 32 n

/-- `lt32` (R13): `a` is before `b`, serial-number comparison. -/
def lt32 (a b : Word) : Bool := decide (2 ^ 31 ≤ (a - b).toNat)

/-- `eq32` (R13). -/
def eq32 (a b : Word) : Bool := a == b

/-- `gt32` (R13). -/
def gt32 (a b : Word) : Bool := !lt32 a b && !eq32 a b

/-- `zext_64` of a 32-bit duration (R7, R172). -/
def zext64 (d : Word) : Dword := d.setWidth 64

/-- The 18 header bytes of a segment, each field at the byte offset of R110. -/
def Header.bytes (h : Header) : List Byte :=
  be16 h.srcPort ++ be16 h.dstPort ++ be32 h.seqNum ++ be32 h.ackNum ++ [h.hdrLen, h.flags] ++
  be16 h.recvWindow ++ be16 h.checksum

/-- The header that stands in frame bytes 0 .. 17, `f k` being frame byte `k` (R110, R156). -/
def Header.ofBytes (f : Nat → Byte) : Header :=
  { srcPort    := u16 (f 0) (f 1)
    dstPort    := u16 (f 2) (f 3)
    seqNum     := u32 (f 4) (f 5) (f 6) (f 7)
    ackNum     := u32 (f 8) (f 9) (f 10) (f 11)
    hdrLen     := f 12
    flags      := f 13
    recvWindow := u16 (f 14) (f 15)
    checksum   := u16 (f 16) (f 17) }

end Sys2Proof.Machine
end

