-- ==== Sys2Proof/Machine/Flags.lean ====
section
/-! DEFINITION. The codes of the status fields (R30, R199, R231), the bits of `ESR` (R33), and the views that are
computed from other state: `STATUS`, `TEXP`, `PENDCNT`, `SLOT[i].CTL`. -/

namespace Sys2Proof.Machine

/-- A Boolean field as the number it reads as. -/
def bit (b : Bool) : Nat := if b then 1 else 0

/-- The 8-bit code of a completion code (R231). -/
def CompletionCode.code : CompletionCode → Nat
  | .ok => 0x00
  | .illegalCmd => 0x01
  | .encodingError => 0x02
  | .decodingError => 0x03
  | .tmrNoDuration => 0x04
  | .rsmInactive => 0x05

/-- The 4-bit code of an outcome of `RSM.RX` (R199). -/
def RxResult.code : RxResult → Nat
  | .none => 0
  | .accepted => 1
  | .acceptedFin => 2
  | .buffered => 3
  | .dupPending => 4
  | .stale => 5
  | .badCsum => 6
  | .badFrame => 7
  | .noSlot => 8
  | .afterDone => 9

/-- The code of `TSTATE` (R30). -/
def TimerState.code : TimerState → Nat
  | .idle => 0
  | .running => 1
  | .expired => 2

/-- The code of `RSTATE` (R30). -/
def ReasmState.code : ReasmState → Nat
  | .idle => 0
  | .active => 1
  | .done => 2

/-- The `ESR` bit that an error code sets: bit `n` for code `n` (R33); `OK` sets none. -/
def CompletionCode.esrMask : CompletionCode → Word
  | .ok => 0x00000000
  | .illegalCmd => 0x00000002
  | .encodingError => 0x00000004
  | .decodingError => 0x00000008
  | .tmrNoDuration => 0x00000010
  | .rsmInactive => 0x00000020

/-- The `ESR` event bit that an outcome of `RSM.RX` sets (R33, R195): `V_BAD_CSUM`, `V_BAD_FRAME`, `V_NO_SLOT`. -/
def RxResult.esrMask : RxResult → Word
  | .none => 0x00000000
  | .accepted => 0x00000000
  | .acceptedFin => 0x00000000
  | .buffered => 0x00000000
  | .dupPending => 0x00000000
  | .stale => 0x00000000
  | .badCsum => 0x00010000
  | .badFrame => 0x00020000
  | .noSlot => 0x00040000
  | .afterDone => 0x00000000

/-- The `ESR` bits that exist (R33): 1 to 5 and 16 to 18. Every other bit is reserved and never set. -/
def esrBits : Word := 0x0007003E

/-- The expiry signal `texp`, the same value as `STATUS.TEXP` (R30, R240): high exactly while the timer is expired. -/
def State.texp (s : State) : Bool := s.tstate == .expired

/-- `STATUS` (R30), assembled from the fields it shows; bits 31:21 read as zero. -/
def State.statusWord (s : State) : Word :=
  BitVec.ofNat 32
    (bit s.busy + bit s.ckok * 2 ^ 1 + bit s.texp * 2 ^ 2 + s.tstate.code * 2 ^ 3 + s.rstate.code * 2 ^ 5 +
      bit s.tdurv * 2 ^ 7 + s.cc.code * 2 ^ 8 + s.rxres.code * 2 ^ 16 + bit s.tpoll * 2 ^ 20)

/-- `PENDCNT` (R45): the number of slots with `V = 1`. -/
def State.pendCnt (s : State) : Nat := s.slots.countP (fun t => t.v)

/-- `SLOT[i].CTL` (R22): bit 0 `V`, bit 1 `FIN`, bits 7:2 zero. -/
def Slot.ctl (t : Slot) : Nat := bit t.v + bit t.fin * 2 ^ 1

end Sys2Proof.Machine
end

