-- ==== Sys2Proof/Machine/Ops.lean ====
section
/-! DEFINITION. The named operations over buffers, slots, the timer and the command outcome, which every meaning is
written over. -/

namespace Sys2Proof.Machine

/-! ### RAM-like buffers (R50, R51, R72) -/

/-- The canonical form of a buffer: indexes strictly rising. An index not listed holds no value, so no listed byte
equals what it reads as (assumption 1). -/
def Memory.wf (m : Memory) : Bool := decide (m.Pairwise (fun c d => c.1 < d.1))

/-- Every listed index is within a buffer of `size` bytes (R72). -/
def Memory.within (size : Nat) (m : Memory) : Bool := m.all (fun c => decide (c.1 < size))

/-- The byte written last at an index, if any has been written since the hardware reset. -/
def Memory.read? : Memory → Nat → Option Byte
  | [], _ => none
  | c :: m, i => if c.1 = i then some c.2 else Memory.read? m i

/-- Write one byte, keeping the canonical form. -/
def Memory.write : Memory → Nat → Byte → Memory
  | [], i, v => [(i, v)]
  | c :: m, i, v =>
    if i < c.1 then (i, v) :: c :: m
    else if i = c.1 then (i, v) :: m
    else c :: Memory.write m i v

/-- `BUF[a..a+len(bs)) <- bs` (R8): write bytes at consecutive indexes. -/
def Memory.writeBytes : Memory → Nat → List Byte → Memory
  | m, _, [] => m
  | m, a, v :: bs => Memory.writeBytes (m.write a v) (a + 1) bs

/-- Byte `i` of a RAM-like buffer: the byte written last, else the free byte of R51. -/
def ramByte (draw buf : Nat) (m : Memory) (i : Nat) : Byte :=
  match m.read? i with
  | some v => v
  | none => Config.ramAtReset draw buf i

/-- Buffer numbers (R50). -/
def payBuf : Nat := 0x00
/-- The number of buffer `FRM` (R50). -/
def frmBuf : Nat := 0x01
/-- The number of buffer `ACKF` (R50). -/
def ackfBuf : Nat := 0x02
/-- The number of buffer `OUT` (R50). -/
def outBuf : Nat := 0x03
/-- The number of buffer `SLOT[i].DATA` (R50). -/
def slotBuf (i : Nat) : Nat := 0x10 + i

/-- `SLOT[i]`. -/
def State.slot (s : State) (i : Nat) : Slot := s.slots.getD i Slot.empty

/-- `PAY[i]`. -/
def State.payByte (s : State) (i : Nat) : Byte := ramByte s.ramDraw payBuf s.pay i

/-- `FRM[i]`. -/
def State.frmByte (s : State) (i : Nat) : Byte := ramByte s.ramDraw frmBuf s.frm i

/-- `SLOT[i].DATA[k]`. -/
def State.slotByte (s : State) (i k : Nat) : Byte := ramByte s.ramDraw (slotBuf i) (s.slot i).data k

/-- `PAY[0..n)` (R8). -/
def State.payBytes (s : State) (n : Nat) : List Byte := (List.range n).map s.payByte

/-- `FRM[a..a+n)` (R8). -/
def State.frmBytes (s : State) (a n : Nat) : List Byte := (List.range n).map (fun k => s.frmByte (a + k))

/-- `SLOT[i].DATA[0..n)` (R8). -/
def State.slotBytes (s : State) (i n : Nat) : List Byte := (List.range n).map (s.slotByte i)

/-! ### How a command ends (R9, R230): the block's form of taking an exception -/

/-- `CC` and the matching sticky bit of `ESR`, which is all that an error leaves (R9, R230, R235). -/
def raised (c : CompletionCode) (s : State) : State := { s with cc := c, esr := s.esr ||| c.esrMask }

/-- `CC <- OK` (R9, R32). -/
def completed (s : State) : State := { s with cc := .ok }

/-- `raise <code>` (R9, R230, R235): nothing changes but `CC` and the matching sticky bit of `ESR`. -/
def raise (c : CompletionCode) (s : State) : Result := .next (raised c s)

/-- `done` (R9): the command ends with completion code `OK`. -/
def done (s : State) : Result := .next (completed s)

/-! ### The timer (R171) -/

/-- `eval_expiry` (R171). -/
def evalExpiry (s : State) : State :=
  if s.tstate = .running ∧ s.deadline ≤ s.now then { s with tstate := .expired } else s

/-- The common part of `TMR.START` and `TMR.RESTART` (R172, R174): a deadline `d` ticks from now, running, evaluated at once. -/
def armTimer (d : Word) (s : State) : State :=
  evalExpiry { s with deadline := s.now + zext64 d, tstate := .running }

/-- `TDUR <- d; TDURV <- 1` (R38, R172). -/
def recordDuration (d : Word) (s : State) : State := { s with tdur := d, tdurv := true }

/-- `NOW <- NOW + n`, by the platform (R39). -/
def advanceNow (n : Nat) (s : State) : State := { s with now := BitVec.ofNat 64 (s.now.toNat + n) }

/-- `Tick(n)` (R180). The platform keeps `NOW` below the bound of R39; an advance that would not is refused (U3). -/
def tick (n : Nat) (s : State) : Result :=
  if s.now.toNat + n < timeBound then .next (evalExpiry (advanceNow n s))
  else .refused .timeBaseOutOfRange

/-! ### The slot file (R193, R206) -/

/-- `free(i)` on one slot (R193): the canonical empty state, `DATA` left as it is. -/
def Slot.freed (t : Slot) : Slot := { t with v := false, fin := false, off := 0, len := 0 }

/-- `for i in 0 .. PEND_SLOTS-1: free(i)`. -/
def freeAll (s : State) : State := { s with slots := s.slots.map Slot.freed }

/-- `free(i)` (R193). -/
def freeSlot (i : Nat) (s : State) : State := { s with slots := s.slots.set i (s.slot i).freed }

/-- `collect_stale` (R206). -/
def collectStale (s : State) : State :=
  { s with slots := s.slots.map (fun t => if t.v && lt32 t.off s.expected then t.freed else t) }

/-! ### The output stream (R46, R202, R203) -/

/-- Append accepted bytes to `OUT` and move `OUTLEN` and `EXPECTED` with them (R202, R203). -/
def appendOut (bs : List Byte) (s : State) : State :=
  { s with
    out := s.out ++ bs
    outlen := s.outlen + BitVec.ofNat 64 bs.length
    expected := add32 s.expected bs.length }

/-! ### Reset (R55, R222, R260) -/

/-- What both resets do (R55, R222, R260): every register at its reset value, `ACKF` zero, `OUT` empty. The slot file
is each reset's own; `NOW`, `PAY` and `FRM` are not touched. -/
def resetRegisters (s : State) : State :=
  { s with
    seg := Header.zero
    segPlen := 0
    flen := 0
    csumCalc := 0
    ckok := false
    cc := .ok
    rxres := .none
    tpoll := false
    busy := false
    esr := 0
    tstate := .idle
    deadline := 0
    tdur := 0
    tdurv := false
    rstate := .idle
    expected := 0
    out := []
    outlen := 0
    acktSrcPort := 0
    acktDstPort := 0
    acktSeqNum := 0
    acktHdrLen := 18
    acktRecvWindow := 0
    ackf := List.replicate hdrBytes 0 }

/-- The hardware reset signal (R260): the state of R55, with the RAM contents drawn anew (R51). -/
def hardwareReset (s : State) : State :=
  { resetRegisters s with
    pay := []
    frm := []
    slots := List.replicate s.cfg.pendSlots Slot.empty
    ramDraw := s.ramDraw + 1 }

end Sys2Proof.Machine
end

