-- ==== Sys2Proof/Machine/Checksum.lean ====
section
/-! DEFINITION. The `CSUM` unit: the checksum function (R11, R130 to R132) and the commands `CSUM.GEN` and `CSUM.CHK`. -/

namespace Sys2Proof.Machine

/-- The loop of `fold16` (R11), at most `k` rounds of it. -/
def foldRounds : Nat → Nat → Nat
  | 0, n => n
  | k + 1, n => if n < 2 ^ 16 then n else foldRounds k (n % 2 ^ 16 + n / 2 ^ 16)

/-- `fold16` (R11). Every round lowers `n`, so `n` rounds are enough for the loop to end. -/
def fold16 (n : Nat) : Nat := foldRounds n n

/-- `oc_add16` (R11). -/
def ocAdd16 (a b : Nat) : Nat := fold16 (a + b)

/-- The payload chunks (R131): the even index is the high byte, an odd last byte is padded with a zero byte after it. -/
def chunks : List Byte → List Nat
  | [] => []
  | [b] => [(u16 b 0x00).toNat]
  | b0 :: b1 :: p => (u16 b0 b1).toNat :: chunks p

/-- The header addends (R130): the seven fields other than the checksum, each as the number it holds. -/
def headerAddends (h : Header) : List Nat :=
  [h.srcPort.toNat, h.dstPort.toNat, h.seqNum.toNat, h.ackNum.toNat, h.hdrLen.toNat, h.flags.toNat, h.recvWindow.toNat]

/-- The addends of a segment (R130). -/
def addends (h : Header) (p : List Byte) : List Nat := headerAddends h ++ chunks p

/-- `sum16` (R132). -/
def sum16 (h : Header) (p : List Byte) : Nat := fold16 (addends h p).sum

/-- `checksum` (R132): the complement of the folded sum. -/
def checksum (h : Header) (p : List Byte) : Half := ~~~ (BitVec.ofNat 16 (sum16 h p))

/-- The addends of a 16-bit datapath (R130, R132): the two 32-bit fields as their halves. -/
def addends16 (h : Header) (p : List Byte) : List Nat :=
  [h.srcPort.toNat, h.dstPort.toNat, h.seqNum.toNat / 2 ^ 16, h.seqNum.toNat % 2 ^ 16, h.ackNum.toNat / 2 ^ 16,
    h.ackNum.toNat % 2 ^ 16, h.hdrLen.toNat, h.flags.toNat, h.recvWindow.toNat] ++ chunks p

/-- The checksum as a 16-bit end-around-carry adder accumulates it (the second pseudocode of R132). -/
def checksumByAdder (h : Header) (p : List Byte) : Half :=
  ~~~ (BitVec.ofNat 16 ((addends16 h p).foldl ocAdd16 0))

/-- The checksum of the segment in `SEG` and `PAY[0..SEG_PLEN)` (R133). -/
def State.segChecksum (s : State) : Half := checksum s.seg (s.payBytes s.segPlen.toNat)

/-- `CSUM_CALC <- c; CKOK <- 1 if SEG_CHECKSUM = c else 0` for `c` the segment's checksum (R136, R196). -/
def checkSegment (s : State) : State :=
  { s with csumCalc := s.segChecksum, ckok := s.seg.checksum == s.segChecksum }

/-- `SEG_CHECKSUM <- c; CSUM_CALC <- c; CKOK <- 1` for `c` the segment's checksum (R134). -/
def generateChecksum (s : State) : State :=
  { s with seg := { s.seg with checksum := s.segChecksum }, csumCalc := s.segChecksum, ckok := true }

/-- `CSUM.GEN` (R134). -/
def execCsumGen (s : State) : Result :=
  if s.cfg.mss < s.segPlen.toNat then raise .encodingError s
  else done (generateChecksum s)

/-- `CSUM.CHK` (R136). -/
def execCsumChk (s : State) : Result :=
  if s.cfg.mss < s.segPlen.toNat then raise .encodingError s
  else done (checkSegment s)

end Sys2Proof.Machine
end

