-- ==== Sys2Proof/Machine/Framer.lean ====
section
/-! DEFINITION. The `FRM` unit: `FRM.ENC` (R151) and `FRM.DEC` (R156). -/

namespace Sys2Proof.Machine

/-- The frame of the segment in `SEG` and `PAY[0..SEG_PLEN)`: header, then payload (R110). -/
def State.segFrame (s : State) : List Byte := s.seg.bytes ++ s.payBytes s.segPlen.toNat

/-- `FLEN` holds the length of a frame (R110, R156): `18 <= FLEN <= FRAME_SIZE`. -/
def State.flenLegal (s : State) : Bool := decide (hdrBytes ≤ s.flen.toNat) && decide (s.flen.toNat ≤ s.cfg.frameSize)

/-- The payload length of the frame in `FRM`: `FLEN - 18` (R113). -/
def State.framePlen (s : State) : Nat := s.flen.toNat - hdrBytes

/-- Decode `FRM[0..FLEN)` into the nine `SEG_*` registers and `PAY` (R156, R196); `CKOK` is the caller's. -/
def decodeFrame (s : State) : State :=
  { s with
    seg := Header.ofBytes s.frmByte
    segPlen := BitVec.ofNat 16 s.framePlen
    pay := s.pay.writeBytes 0 (s.frmBytes hdrBytes s.framePlen) }

/-- `FRM[0..18+n) <- frame; FLEN <- 18 + n` for `n = SEG_PLEN` (R151). -/
def encodeFrame (s : State) : State :=
  { s with
    frm := s.frm.writeBytes 0 s.segFrame
    flen := BitVec.ofNat 16 (hdrBytes + s.segPlen.toNat) }

/-- `CKOK <- 0` (R31, R156): the decoded segment has not been checked yet. -/
def clearCkok (s : State) : State := { s with ckok := false }

/-- `FRM.ENC` (R151). -/
def execFrmEnc (s : State) : Result :=
  if s.cfg.mss < s.segPlen.toNat then raise .encodingError s
  else done (encodeFrame s)

/-- `FRM.DEC` (R156). -/
def execFrmDec (s : State) : Result :=
  if s.flenLegal = false then raise .decodingError s
  else done (clearCkok (decodeFrame s))

end Sys2Proof.Machine
end

