-- ==== Sys2Proof/Machine/Reassembly.lean ====
section
/-! DEFINITION. The `RSM` unit: `RSM.INIT` (R192) and `RSM.RX` (R195 to R208). -/

namespace Sys2Proof.Machine

/-- An empty stream that opens at offset `x` (R192). -/
def openStream (x : Word) (s : State) : State :=
  { s with expected := x, out := [], outlen := 0, rstate := .active, rxres := .none }

/-- `RSM.INIT x` (R192). -/
def execRsmInit (x : Word) (s : State) : Result := done (openStream x (freeAll s))

/-- The slot that holds an entry exactly at an offset (R203, R205); unique by R43 (a), else the least index (assumption 12). -/
def pendingAt (off : Word) (slots : List Slot) : Option Nat := slots.findIdx? (fun t => t.v && eq32 t.off off)

/-- The least index with `V = 0` (R205). -/
def firstFree (slots : List Slot) : Option Nat := slots.findIdx? (fun t => !t.v)

/-- One round of the loop of R203: append slot `i` to the stream and free it. -/
def mergeSlot (i : Nat) (s : State) : State := freeSlot i (appendOut (s.slotBytes i (s.slot i).len.toNat) s)

/-- `merge` (R203), at most `k` rounds: every round frees a valid slot, so as many rounds as there are slots are
enough for the loop to end. Answers the final `fin` and the state. -/
def merge : Nat → Bool → State → Bool × State
  | 0, fin, s => (fin, s)
  | k + 1, fin, s =>
    if fin then (fin, s)
    else
      match pendingAt s.expected s.slots with
      | none => (fin, s)
      | some i => merge k (s.slot i).fin (mergeSlot i s)

/-- `RSTATE <- DONE` and every slot freed (R204): the stream is complete. -/
def closeStream (s : State) : State := { freeAll s with rstate := .done }

/-- `accept` (R202, R204, R206): the in-order segment. -/
def accept (n : Nat) (fin : Bool) (s : State) : RxResult × State :=
  let r := merge s.slots.length fin (appendOut (s.payBytes n) s)
  if r.1 then (.acceptedFin, closeStream r.2)
  else (.accepted, collectStale r.2)

/-- The slot that a segment is stored in (R205): `PAY[0..n)` into `DATA[0..n)`, the other bytes of `DATA` kept. -/
def fillSlot (off : Word) (n : Nat) (fin : Bool) (p : List Byte) (t : Slot) : Slot :=
  { v := true, fin := fin, off := off, len := BitVec.ofNat 16 n, data := t.data.writeBytes 0 p }

/-- A segment stored in slot `i` (R205). -/
def storeSlot (i : Nat) (off : Word) (n : Nat) (fin : Bool) (s : State) : State :=
  { s with slots := s.slots.set i (fillSlot off n fin (s.payBytes n) (s.slot i)) }

/-- `buffer` (R205): the out-of-order segment; presence before capacity (R214 (i)). -/
def bufferSegment (off : Word) (n : Nat) (fin : Bool) (s : State) : RxResult × State :=
  match pendingAt off s.slots with
  | some _ => (.dupPending, s)
  | none =>
    match firstFree s.slots with
    | none => (.noSlot, s)
    | some i => (.buffered, storeSlot i off n fin s)

/-- `(SEG_FLAGS and FLAG_FIN) != 0` (R112, R195). -/
def State.segFin (s : State) : Bool := s.seg.flags &&& s.cfg.flagFin != 0

/-- What happens to a valid segment in an open stream (R195, R201, R202, R205). -/
def applySegment (s : State) : RxResult × State :=
  if lt32 s.seg.seqNum s.expected then (.stale, s)
  else if eq32 s.seg.seqNum s.expected then accept s.segPlen.toNat s.segFin s
  else bufferSegment s.seg.seqNum s.segPlen.toNat s.segFin s

/-- `classify_and_apply` (R195): frame length, checksum, state `DONE`, offset, in this order (R238). -/
def classifyAndApply (s : State) : RxResult × State :=
  if s.flenLegal = false then (.badFrame, s)
  else
    let s := checkSegment (decodeFrame s)
    if s.ckok = false then (.badCsum, s)
    else if s.rstate = .done then (.afterDone, s)
    else applySegment s

/-- The acknowledgement's header before its checksum is put in (R208). -/
def State.ackHeader (s : State) : Header :=
  { srcPort := s.acktSrcPort, dstPort := s.acktDstPort, seqNum := s.acktSeqNum, ackNum := s.expected
    hdrLen := s.acktHdrLen, flags := s.cfg.flagAck, recvWindow := s.acktRecvWindow, checksum := 0 }

/-- The 18 bytes of the acknowledgement frame (R208). -/
def State.ackFrame (s : State) : List Byte :=
  Header.bytes { s.ackHeader with checksum := checksum s.ackHeader [] }

/-- `build_ack` (R208). -/
def buildAck (s : State) : State := { s with ackf := s.ackFrame }

/-- `RXRES <- r` and its event bit (R195). -/
def recordRx (r : RxResult) (s : State) : State := { s with rxres := r, esr := s.esr ||| r.esrMask }

/-- The end of `RSM.RX` (R195): acknowledge, record the outcome and its event bit. -/
def finishRx (r : RxResult × State) : State := recordRx r.1 (buildAck r.2)

/-- `RSM.RX` (R195, R197). -/
def execRsmRx (s : State) : Result :=
  if s.rstate = .idle then raise .rsmInactive s
  else done (finishRx (classifyAndApply s))

end Sys2Proof.Machine
end

