-- ==== Sys2Proof/Machine/System.lean ====
section
/-! DEFINITION. The system commands: `SYS.NOP` (R220) and `SYS.RESET` (R222). -/

namespace Sys2Proof.Machine

/-- `SYS.NOP` (R220). -/
def execSysNop (s : State) : Result := done s

/-- `SYS.RESET` (R222): reset values everywhere; `NOW`, `PAY`, `FRM` and every `SLOT[i].DATA` keep theirs. -/
def execSysReset (s : State) : Result := done (freeAll (resetRegisters s))

end Sys2Proof.Machine
end

