-- ==== Sys2Proof/Machine/Timer.lean ====
section
/-! DEFINITION. The `TMR` unit: `TMR.START` (R172), `TMR.RESTART` (R174), `TMR.STOP` (R176), `TMR.POLL` (R178). -/

namespace Sys2Proof.Machine

/-- `TMR.START d` (R172). -/
def execTmrStart (d : Word) (s : State) : Result :=
  done (armTimer d (recordDuration d s))

/-- `TMR.RESTART` (R174). -/
def execTmrRestart (s : State) : Result :=
  if s.tdurv = false then raise .tmrNoDuration s
  else done (armTimer s.tdur s)

/-- `TSTATE <- IDLE; DEADLINE <- 0` (R176). -/
def disarmTimer (s : State) : State := { s with tstate := .idle, deadline := 0 }

/-- `TMR.STOP` (R176). -/
def execTmrStop (s : State) : Result := done (disarmTimer s)

/-- `TPOLL <- 1 if TSTATE = EXPIRED else 0` (R178). -/
def recordPoll (s : State) : State := { s with tpoll := s.tstate == .expired }

/-- `TMR.POLL` (R178). -/
def execTmrPoll (s : State) : Result := done (recordPoll s)

end Sys2Proof.Machine
end

