-- ==== Sys2Proof/Machine/Dispatch.lean ====
section
/-! DEFINITION. One arm per command, each a call of the command's meaning. -/

namespace Sys2Proof.Machine

def exec (i : Instr) (s : State) : Host.Outcome State Fault Refusal :=
  match i with
  | .sysNop => Sys2Proof.Machine.execSysNop s
  | .csumGen => Sys2Proof.Machine.execCsumGen s
  | .csumChk => Sys2Proof.Machine.execCsumChk s
  | .frmEnc => Sys2Proof.Machine.execFrmEnc s
  | .frmDec => Sys2Proof.Machine.execFrmDec s
  | .tmrStart d => Sys2Proof.Machine.execTmrStart d s
  | .tmrRestart => Sys2Proof.Machine.execTmrRestart s
  | .tmrStop => Sys2Proof.Machine.execTmrStop s
  | .tmrPoll => Sys2Proof.Machine.execTmrPoll s
  | .rsmInit x => Sys2Proof.Machine.execRsmInit x s
  | .rsmRx => Sys2Proof.Machine.execRsmRx s
  | .sysReset => Sys2Proof.Machine.execSysReset s

end Sys2Proof.Machine
end

