-- ==== Sys2Proof/Machine/Registers.lean ====
section
/-! DEFINITION. The register space and the buffer space as the host sees them (R21, R22, R50, R70 to R72): numbers, widths,
access rights, reading and storing (R80 to R84). -/

namespace Sys2Proof.Machine

/-- The registers of the table of 10_state.md section 2. -/
inductive Reg where
  | segSrcPort | segDstPort | segSeqNum | segAckNum | segHdrLen | segFlags | segRecvWindow | segChecksum
  | segPlen | flen | csumCalc | status | esr | cmd
  | now | deadline | tdur
  | expected | outlen | pendcnt
  | acktSrcPort | acktDstPort | acktSeqNum | acktHdrLen | acktRecvWindow
  | slotCtl (i : Nat) | slotOff (i : Nat) | slotLen (i : Nat)
deriving DecidableEq, Repr

/-- Access rights (10_state.md section 2). -/
inductive Access where
  | rw | ro | wo
deriving DecidableEq, Repr

/-- The register number (R22, column `no.`). -/
def Reg.number : Reg → Nat
  | .segSrcPort => 0x00
  | .segDstPort => 0x01
  | .segSeqNum => 0x02
  | .segAckNum => 0x03
  | .segHdrLen => 0x04
  | .segFlags => 0x05
  | .segRecvWindow => 0x06
  | .segChecksum => 0x07
  | .segPlen => 0x08
  | .flen => 0x09
  | .csumCalc => 0x0A
  | .status => 0x0B
  | .esr => 0x0C
  | .cmd => 0x0D
  | .now => 0x10
  | .deadline => 0x11
  | .tdur => 0x12
  | .expected => 0x18
  | .outlen => 0x19
  | .pendcnt => 0x1A
  | .acktSrcPort => 0x20
  | .acktDstPort => 0x21
  | .acktSeqNum => 0x22
  | .acktHdrLen => 0x23
  | .acktRecvWindow => 0x24
  | .slotCtl i => 0x40 + 4 * i
  | .slotOff i => 0x41 + 4 * i
  | .slotLen i => 0x42 + 4 * i

/-- The register's width (R22). -/
def Reg.width : Reg → Nat
  | .segSrcPort => 16
  | .segDstPort => 16
  | .segSeqNum => 32
  | .segAckNum => 32
  | .segHdrLen => 8
  | .segFlags => 8
  | .segRecvWindow => 16
  | .segChecksum => 16
  | .segPlen => 16
  | .flen => 16
  | .csumCalc => 16
  | .status => 32
  | .esr => 32
  | .cmd => 40
  | .now => 64
  | .deadline => 64
  | .tdur => 32
  | .expected => 32
  | .outlen => 64
  | .pendcnt => 8
  | .acktSrcPort => 16
  | .acktDstPort => 16
  | .acktSeqNum => 32
  | .acktHdrLen => 8
  | .acktRecvWindow => 16
  | .slotCtl _ => 8
  | .slotOff _ => 32
  | .slotLen _ => 16

/-- The register's access right (R22). -/
def Reg.access : Reg → Access
  | .segSrcPort => .rw
  | .segDstPort => .rw
  | .segSeqNum => .rw
  | .segAckNum => .rw
  | .segHdrLen => .rw
  | .segFlags => .rw
  | .segRecvWindow => .rw
  | .segChecksum => .rw
  | .segPlen => .rw
  | .flen => .rw
  | .csumCalc => .ro
  | .status => .ro
  | .esr => .ro
  | .cmd => .wo
  | .now => .ro
  | .deadline => .ro
  | .tdur => .ro
  | .expected => .ro
  | .outlen => .ro
  | .pendcnt => .ro
  | .acktSrcPort => .rw
  | .acktDstPort => .rw
  | .acktSeqNum => .rw
  | .acktHdrLen => .rw
  | .acktRecvWindow => .rw
  | .slotCtl _ => .ro
  | .slotOff _ => .ro
  | .slotLen _ => .ro

/-- The register a number of the slot range names (R22): `0x40 + 4*i` and the two after it, `i < PEND_SLOTS`. -/
def slotReg (slots n : Nat) : Option Reg :=
  if (n - 0x40) / 4 < slots then
    match (n - 0x40) % 4 with
    | 0 => some (.slotCtl ((n - 0x40) / 4))
    | 1 => some (.slotOff ((n - 0x40) / 4))
    | 2 => some (.slotLen ((n - 0x40) / 4))
    | _ => none
  else none

/-- The register that a number names (R22); none where the number is reserved. -/
def Reg.ofNumber (c : Config) (n : Nat) : Option Reg :=
  match n with
  | 0x00 => some .segSrcPort
  | 0x01 => some .segDstPort
  | 0x02 => some .segSeqNum
  | 0x03 => some .segAckNum
  | 0x04 => some .segHdrLen
  | 0x05 => some .segFlags
  | 0x06 => some .segRecvWindow
  | 0x07 => some .segChecksum
  | 0x08 => some .segPlen
  | 0x09 => some .flen
  | 0x0A => some .csumCalc
  | 0x0B => some .status
  | 0x0C => some .esr
  | 0x0D => some .cmd
  | 0x10 => some .now
  | 0x11 => some .deadline
  | 0x12 => some .tdur
  | 0x18 => some .expected
  | 0x19 => some .outlen
  | 0x1A => some .pendcnt
  | 0x20 => some .acktSrcPort
  | 0x21 => some .acktDstPort
  | 0x22 => some .acktSeqNum
  | 0x23 => some .acktHdrLen
  | 0x24 => some .acktRecvWindow
  | n => if 0x40 ≤ n then slotReg c.pendSlots n else none

/-- The current value of a register (R81); `CMD` reads as 0. -/
def State.readReg (s : State) : Reg → Nat
  | .segSrcPort => s.seg.srcPort.toNat
  | .segDstPort => s.seg.dstPort.toNat
  | .segSeqNum => s.seg.seqNum.toNat
  | .segAckNum => s.seg.ackNum.toNat
  | .segHdrLen => s.seg.hdrLen.toNat
  | .segFlags => s.seg.flags.toNat
  | .segRecvWindow => s.seg.recvWindow.toNat
  | .segChecksum => s.seg.checksum.toNat
  | .segPlen => s.segPlen.toNat
  | .flen => s.flen.toNat
  | .csumCalc => s.csumCalc.toNat
  | .status => s.statusWord.toNat
  | .esr => s.esr.toNat
  | .cmd => 0
  | .now => s.now.toNat
  | .deadline => s.deadline.toNat
  | .tdur => s.tdur.toNat
  | .expected => s.expected.toNat
  | .outlen => s.outlen.toNat
  | .pendcnt => s.pendCnt
  | .acktSrcPort => s.acktSrcPort.toNat
  | .acktDstPort => s.acktDstPort.toNat
  | .acktSeqNum => s.acktSeqNum.toNat
  | .acktHdrLen => s.acktHdrLen.toNat
  | .acktRecvWindow => s.acktRecvWindow.toNat
  | .slotCtl i => (s.slot i).ctl
  | .slotOff i => (s.slot i).off.toNat
  | .slotLen i => (s.slot i).len.toNat

/-- Store a value in a register (R82); a read-only register and `CMD` hold nothing of it (R34, R83). -/
def State.storeReg (s : State) (v : Nat) : Reg → State
  | .segSrcPort => { s with seg := { s.seg with srcPort := BitVec.ofNat 16 v } }
  | .segDstPort => { s with seg := { s.seg with dstPort := BitVec.ofNat 16 v } }
  | .segSeqNum => { s with seg := { s.seg with seqNum := BitVec.ofNat 32 v } }
  | .segAckNum => { s with seg := { s.seg with ackNum := BitVec.ofNat 32 v } }
  | .segHdrLen => { s with seg := { s.seg with hdrLen := BitVec.ofNat 8 v } }
  | .segFlags => { s with seg := { s.seg with flags := BitVec.ofNat 8 v } }
  | .segRecvWindow => { s with seg := { s.seg with recvWindow := BitVec.ofNat 16 v } }
  | .segChecksum => { s with seg := { s.seg with checksum := BitVec.ofNat 16 v } }
  | .segPlen => { s with segPlen := BitVec.ofNat 16 v }
  | .flen => { s with flen := BitVec.ofNat 16 v }
  | .csumCalc => s
  | .status => s
  | .esr => s
  | .cmd => s
  | .now => s
  | .deadline => s
  | .tdur => s
  | .expected => s
  | .outlen => s
  | .pendcnt => s
  | .acktSrcPort => { s with acktSrcPort := BitVec.ofNat 16 v }
  | .acktDstPort => { s with acktDstPort := BitVec.ofNat 16 v }
  | .acktSeqNum => { s with acktSeqNum := BitVec.ofNat 32 v }
  | .acktHdrLen => { s with acktHdrLen := BitVec.ofNat 8 v }
  | .acktRecvWindow => { s with acktRecvWindow := BitVec.ofNat 16 v }
  | .slotCtl _ => s
  | .slotOff _ => s
  | .slotLen _ => s

/-- `HostReadReg(r)` (R81): 0 for a reserved number. -/
def hostReadReg (s : State) (n : Nat) : Nat :=
  match Reg.ofNumber s.cfg n with
  | some r => s.readReg r
  | none => 0

/-- `HostReadByte(b, i)` (R72, R84): 0 where `(b, i)` names nothing. -/
def hostReadByte (s : State) (b i : Nat) : Byte :=
  if b = payBuf then (if i < s.cfg.mss then s.payByte i else 0)
  else if b = frmBuf then (if i < s.cfg.frameSize then s.frmByte i else 0)
  else if b = ackfBuf then s.ackf.getD i 0
  else if b = outBuf then (if i < s.outlen.toNat then s.out.getD i 0 else 0)
  else if slotBuf 0 ≤ b ∧ b < slotBuf s.cfg.pendSlots then
    (if i < s.cfg.mss then s.slotByte (b - slotBuf 0) i else 0)
  else 0

/-- `PAY[i] <- v` (R84). -/
def writePay (i : Nat) (v : Byte) (s : State) : State := { s with pay := s.pay.write i v }

/-- `FRM[i] <- v` (R84). -/
def writeFrm (i : Nat) (v : Byte) (s : State) : State := { s with frm := s.frm.write i v }

/-- `HostWriteByte(b, i, v)` (R83, R84): stores in `PAY` and `FRM` within their size, ignored elsewhere. -/
def hostWriteByte (s : State) (b i : Nat) (v : Byte) : State :=
  if b = payBuf ∧ i < s.cfg.mss then writePay i v s
  else if b = frmBuf ∧ i < s.cfg.frameSize then writeFrm i v s
  else s

end Sys2Proof.Machine
end

