-- ==== Sys2Proof/Machine/Agents.lean ====
section
/-! DEFINITION. What an event does (R14): the host's primitives (R80 to R84), a command word (R82, R100, R105), the time
base (R180), the hardware reset (R260). -/

namespace Sys2Proof.Machine

/-- A word written to `CMD` executes as a command (R82, R100); an illegal word records `ILLEGAL_CMD` and changes nothing
else (R105, R232). -/
def issueCommand (w : CmdWord) (s : State) : Result :=
  match decode w with
  | .ok i => exec i s
  | .error _ => raise .illegalCmd s

/-- `HostWriteReg(r, v)` (R82, R83). The value has the register's width (R21); a reserved number ignores the write. -/
def hostWriteReg (n v : Nat) (s : State) : Result :=
  match Reg.ofNumber s.cfg n with
  | none => .next s
  | some r =>
    if 2 ^ r.width ≤ v then .refused .valueWiderThanRegister
    else if r = .cmd then issueCommand (BitVec.ofNat 40 v) s
    else .next (s.storeReg v r)

/-- The value handed back to a read joins the host's record (assumption 6); a read changes nothing else (R79). -/
def handBack (v : Nat) (s : State) : State := { s with hostReads := v :: s.hostReads }

/-- While `BUSY = 1` the host makes no access other than a read of `STATUS` (R85, R270, U5). -/
def hostMayAccess (s : State) (e : Event) : Bool :=
  match e with
  | .readReg r => !s.busy || r.toNat == Reg.status.number
  | .writeReg _ _ => !s.busy
  | .writeByte _ _ _ => !s.busy
  | .readByte _ _ => !s.busy
  | .tick _ => true
  | .hardwareReset => true

/-- What an event does. -/
def perform (e : Event) (s : State) : Result :=
  if hostMayAccess s e = false then .refused .hostAccessWhileBusy
  else
    match e with
    | .writeReg r v => hostWriteReg r.toNat v s
    | .readReg r => .next (handBack (hostReadReg s r.toNat) s)
    | .writeByte b i v => .next (hostWriteByte s b.toNat i v)
    | .readByte b i => .next (handBack (hostReadByte s b.toNat i).toNat s)
    | .tick n => tick n s
    | .hardwareReset => .next (hardwareReset s)

/-- What is left of the script when its next event is taken off it (R89). -/
def withScript (rest : List Event) (s : State) : State := { s with script := rest }

/-- The next event of the script, taken off it (R89: one at a time, in order). At the script's end the run is at its end
(R291). -/
def nextEvent (s : State) : Result :=
  match s.script with
  | [] => .refused .endOfScript
  | e :: rest => perform e (withScript rest s)

/-- The script with a command word put before it: how the host hands a command to the block (R34, R82). -/
def withCommand (s : State) (v : Nat) : State :=
  { s with script := .writeReg (BitVec.ofNat 12 Reg.cmd.number) v :: s.script }

end Sys2Proof.Machine
end

