-- ==== Sys2Proof/Machine/Step.lean ====
section
/-! DEFINITION. One step of the machine. -/

namespace Sys2Proof.Machine

/-- One step: the next event of the script (R14, R89), in a configuration within the bounds of R6 (U12, U13). -/
def step (s : State) : Host.Outcome State Fault Refusal :=
  if s.cfg.ok = false then .refused .configOutOfBounds else nextEvent s

/-- `s` with an instruction handed in as its next command: the block fetches nothing, so its next instruction is the word
that the host writes to `CMD` next (R28, R92; assumption 3). -/
def State.withFetchWord (s : State) (nbits w : Nat) : State := withCommand s (w % 2 ^ nbits)

end Sys2Proof.Machine
end

