-- ==== Sys2Proof/Machine/Script.lean ====
section
/-! DEFINITION. The statements of host scripts (R120) and the pseudo-instructions (R121), as events. -/

namespace Sys2Proof.Machine.Script

/-- `wr REG, v` (R120). -/
def wr (r : Reg) (v : Nat) : List Event := [.writeReg (BitVec.ofNat 12 r.number) v]

/-- `rd REG` (R120). -/
def rd (r : Reg) : List Event := [.readReg (BitVec.ofNat 12 r.number)]

/-- `wrb BUF, i, b0 b1 ... bn` (R120). -/
def wrb (b : Nat) : Nat → List Byte → List Event
  | _, [] => []
  | i, v :: bs => .writeByte (BitVec.ofNat 12 b) i v :: wrb b (i + 1) bs

/-- `rdb BUF, i, n` (R120). -/
def rdb (b i n : Nat) : List Event := (List.range n).map (fun k => .readByte (BitVec.ofNat 12 b) (i + k))

/-- `MNEMONIC` and `MNEMONIC v` (R120): the command's word written to `CMD`. -/
def cmd (i : Instr) : List Event := wr .cmd (encode i).toNat

/-- `TMR.RESTART v` (R121). -/
def tmrRestartWith (v : Word) : List Event := cmd (.tmrStart v)

/-- `TMR.KILL` (R121, R184). -/
def tmrKill : List Event := cmd .tmrStop

/-- `SEAL` (R121). -/
def sealSegment : List Event := cmd .csumGen ++ cmd .frmEnc

/-- `OPEN` (R121). -/
def openFrame : List Event := cmd .frmDec ++ cmd .csumChk

/-- `ldp b0 ... bn`, `ldp` (R121). -/
def ldp (bs : List Byte) : List Event := wrb payBuf 0 bs ++ wr .segPlen bs.length

/-- `ldf b0 ... bn` (R121). -/
def ldf (bs : List Byte) : List Event := wrb frmBuf 0 bs ++ wr .flen bs.length

end Sys2Proof.Machine.Script
end

