-- ==== Sys2Proof/Safety.lean ====
section
/-! DEFINITION. What the statements speak of: the invariant of the machine, the events a run may take, the events that
leave the timer alone, and the spec's own formulas for the checksum sum, a received frame and the merging loop, written
apart from the meanings. -/

namespace Sys2Proof.Machine

/-- The timer's part of the invariant (R37, R181): `IDLE` has `DEADLINE = 0`; `RUNNING` has `NOW < DEADLINE`; `EXPIRED` has
`NOW >= DEADLINE`; outside `IDLE` a duration has been given. -/
def State.timerInv (s : State) : Bool :=
  match s.tstate with
  | .idle => s.deadline == 0
  | .running => decide (s.now < s.deadline) && s.tdurv
  | .expired => decide (s.deadline ≤ s.now) && s.tdurv

/-- A slot is well kept: its data in canonical form and within `MSS` bytes; when valid, `LEN <= MSS` (R43 (c)); when not, in
the canonical empty state (R193). -/
def Slot.inv (mss : Nat) (t : Slot) : Bool :=
  t.data.wf && t.data.within mss &&
    (if t.v then decide (t.len.toNat ≤ mss) else !t.fin && t.off == 0 && t.len == 0)

/-- The invariant of the machine: what the spec says holds of every state that a run reaches. -/
structure State.Inv (s : State) : Prop where
  /-- The configuration is within its bounds (R6). -/
  cfg : s.cfg.ok = true
  /-- The time base is below its bound (R39). -/
  now : s.now.toNat < timeBound
  /-- `BUSY` is never 1 between two steps (R85). -/
  busy : s.busy = false
  /-- R37, R181. -/
  timer : s.timerInv = true
  /-- The reserved bits of `ESR` are never set (R33). -/
  esr : s.esr &&& ~~~ esrBits = 0
  /-- `PAY` is in canonical form, within `MSS` bytes (R50). -/
  pay : s.pay.wf = true ∧ s.pay.within s.cfg.mss = true
  /-- `FRM` is in canonical form, within `FRAME_SIZE` bytes (R50). -/
  frm : s.frm.wf = true ∧ s.frm.within s.cfg.frameSize = true
  /-- `ACKF` has 18 bytes (R48). -/
  ackf : s.ackf.length = hdrBytes
  /-- `OUTLEN` is the length of `OUT` (R46). -/
  outlen : s.outlen = BitVec.ofNat 64 s.out.length
  /-- There are `PEND_SLOTS` slots (R41). -/
  slotCount : s.slots.length = s.cfg.pendSlots
  /-- Every slot is well kept (R43 (c), R193). -/
  slot : ∀ t ∈ s.slots, t.inv s.cfg.mss = true
  /-- No two valid slots have the same `OFF` (R43 (a)). -/
  slotsDistinct : s.slots.Pairwise (fun t u => t.v = true → u.v = true → t.off ≠ u.off)
  /-- Every valid slot is after `EXPECTED` (R43 (b)). -/
  slotsAhead : ∀ t ∈ s.slots, t.v = true → gt32 t.off s.expected = true
  /-- Slots are valid only in an open stream (R43 (d)). -/
  slotsClosed : s.rstate ≠ .active → ∀ t ∈ s.slots, t.v = false

/-- The duty that an event keeps (R290): a register write supplies a value of the register's width (R21), an advance of the
time base keeps `NOW` below its bound (R39). -/
def Event.dutiful (s : State) : Event → Bool
  | .writeReg r v => (match Reg.ofNumber s.cfg r.toNat with | some reg => decide (v < 2 ^ reg.width) | none => true)
  | .readReg _ => true
  | .writeByte _ _ _ => true
  | .readByte _ _ => true
  | .tick n => decide (s.now.toNat + n < timeBound)
  | .hardwareReset => true

/-- The commands that act on the timer (R181): the timer commands other than `TMR.POLL`, and reset. -/
def Instr.actsOnTimer : Instr → Bool
  | .tmrStart _ => true
  | .tmrRestart => true
  | .tmrStop => true
  | .sysReset => true
  | .sysNop => false
  | .csumGen => false
  | .csumChk => false
  | .frmEnc => false
  | .frmDec => false
  | .tmrPoll => false
  | .rsmInit _ => false
  | .rsmRx => false

/-- An event that is no timer command and no reset (R183): it may advance the time base. -/
def Event.leavesTimerArmed : Event → Bool
  | .writeReg r v =>
    if r.toNat = Reg.cmd.number then
      (match decode (BitVec.ofNat 40 v) with | .ok i => !Instr.actsOnTimer i | .error _ => true)
    else true
  | .readReg _ => true
  | .writeByte _ _ _ => true
  | .readByte _ _ => true
  | .tick _ => true
  | .hardwareReset => false

/-- The offset at which the stream is open after an event, `x` being the one before it (R192, R212, R55): `RSM.INIT` opens a
stream at its operand, either reset leaves an empty stream at 0, and no other event opens one. -/
def Event.streamStart (x : Word) : Event → Word
  | .writeReg r v =>
    if r.toNat = Reg.cmd.number then
      (match decode (BitVec.ofNat 40 v) with
        | .ok (.rsmInit y) => y
        | .ok .sysReset => 0
        | .ok .sysNop => x
        | .ok .csumGen => x
        | .ok .csumChk => x
        | .ok .frmEnc => x
        | .ok .frmDec => x
        | .ok (.tmrStart _) => x
        | .ok .tmrRestart => x
        | .ok .tmrStop => x
        | .ok .tmrPoll => x
        | .ok .rsmRx => x
        | .error _ => x)
    else x
  | .readReg _ => x
  | .writeByte _ _ _ => x
  | .readByte _ _ => x
  | .tick _ => x
  | .hardwareReset => 0

/-- Chunk `k` of a payload of `n` bytes, `p j` being payload byte `j` (R131). -/
def chunkValue (p : Nat → Byte) (n k : Nat) : Nat :=
  256 * (p (2 * k)).toNat + (if 2 * k + 1 < n then (p (2 * k + 1)).toNat else 0)

/-- The natural-number sum of the addends of a segment (R130, R131). -/
def fieldSum (h : Header) (p : Nat → Byte) (n : Nat) : Nat :=
  h.srcPort.toNat + h.dstPort.toNat + h.seqNum.toNat + h.ackNum.toNat + h.hdrLen.toNat + h.flags.toNat +
    h.recvWindow.toNat + ((List.range ((n + 1) / 2)).map (chunkValue p n)).sum

/-- The complement of the folded sum of a segment (R132). -/
def complementSum (h : Header) (p : Nat → Byte) (n : Nat) : Half := BitVec.ofNat 16 (0xFFFF - fold16 (fieldSum h p n))

/-- The header in `FRM[0..18)`, field by field (R156). -/
def State.rxHeader (s : State) : Header :=
  { srcPort    := u16 (s.frmByte 0) (s.frmByte 1)
    dstPort    := u16 (s.frmByte 2) (s.frmByte 3)
    seqNum     := u32 (s.frmByte 4) (s.frmByte 5) (s.frmByte 6) (s.frmByte 7)
    ackNum     := u32 (s.frmByte 8) (s.frmByte 9) (s.frmByte 10) (s.frmByte 11)
    hdrLen     := s.frmByte 12
    flags      := s.frmByte 13
    recvWindow := u16 (s.frmByte 14) (s.frmByte 15)
    checksum   := u16 (s.frmByte 16) (s.frmByte 17) }

/-- The length of a legal frame (R110): `18 <= FLEN <= FRAME_SIZE`. -/
def State.rxLegal (s : State) : Prop := 18 ≤ s.flen.toNat ∧ s.flen.toNat ≤ s.cfg.frameSize

/-- The checksum computed over the segment in `FRM[0..FLEN)` (R132, R196). -/
def State.rxChecksum (s : State) : Half :=
  complementSum s.rxHeader (fun k => s.frmByte (18 + k)) (s.flen.toNat - 18)

/-- The frame in `FRM[0..FLEN)` has a legal length and a valid checksum (R196). -/
def State.rxValid (s : State) : Prop := s.rxLegal ∧ s.rxHeader.checksum = s.rxChecksum

/-- A valid slot holds an entry at an offset (R203, R205). -/
def State.pending (s : State) (off : Word) : Prop := ∃ t ∈ s.slots, t.v = true ∧ t.off = off

/-- A slot is free (R205). -/
def State.hasFreeSlot (s : State) : Prop := ∃ t ∈ s.slots, t.v = false

/-- The loop of R203 run to its end: from `fin` and a state to the final `fin` and state. -/
inductive MergeRun : Bool → State → Bool → State → Prop where
  /-- A FIN ends the loop. -/
  | atFin (s : State) : MergeRun true s true s
  /-- No valid slot at `EXPECTED` ends the loop. -/
  | atGap (s : State) : ¬ s.pending s.expected → MergeRun false s false s
  /-- One round: append the slot's bytes to `OUT`, move `OUTLEN` and `EXPECTED`, take its FIN, free it. -/
  | round (s t : State) (i : Nat) (u : Slot) (f : Bool) :
      s.slots[i]? = some u → u.v = true → u.off = s.expected →
      MergeRun u.fin
        { s with
          out := s.out ++ (List.range u.len.toNat).map (s.slotByte i)
          outlen := s.outlen + BitVec.ofNat 64 u.len.toNat
          expected := add32 s.expected u.len.toNat
          slots := s.slots.set i { u with v := false, fin := false, off := 0, len := 0 } } f t →
      MergeRun false s f t

/-- Every byte of every buffer reads for the host as before (R84). -/
def sameBytes (s t : State) : Prop := ∀ b i, hostReadByte t b i = hostReadByte s b i

end Sys2Proof.Machine
end

