-- ==== Sys2Proof/Certificates/Slice0/Obligations.lean ====
section
/-! DEFINITION. The statements for the provers. Each names the rule or section of the spec that it formalises. -/

open Sys2Proof Sys2Proof.Machine

/-! ### Encoding -/

/-- 30_encoding.md sections 2 and 3 and the words written out in 95_test_vectors.md: one word for every command, and two illegal ones. -/
def Obligations.WordsOfTheTableDecode : Prop :=
  decode 0x0000000000 = .ok .sysNop ∧
  decode 0x0100000000 = .ok .csumGen ∧
  decode 0x0200000000 = .ok .csumChk ∧
  decode 0x1000000000 = .ok .frmEnc ∧
  decode 0x1100000000 = .ok .frmDec ∧
  decode 0x20000186A0 = .ok (.tmrStart 100000) ∧
  decode 0x2100000000 = .ok .tmrRestart ∧
  decode 0x2200000000 = .ok .tmrStop ∧
  decode 0x2300000000 = .ok .tmrPoll ∧
  decode 0x30000003E8 = .ok (.rsmInit 1000) ∧
  decode 0x3100000000 = .ok .rsmRx ∧
  decode 0xFF00000000 = .ok .sysReset ∧
  decode 0x0500000000 = .error .unassignedOpcode ∧
  decode 0x0100000001 = .error .nonZeroOperand

/-- R103, R104: a word is the command of a row exactly when the word and the row's mask give the row's match; the operand is
bits 31:0; no word matches two rows. -/
def Obligations.WordIsARowsCommandExactlyWhenItMatches : Prop :=
  ∀ w : CmdWord,
    (decode w = .ok .sysNop ↔ w &&& 0xFFFFFFFFFF = 0x0000000000) ∧
    (decode w = .ok .csumGen ↔ w &&& 0xFFFFFFFFFF = 0x0100000000) ∧
    (decode w = .ok .csumChk ↔ w &&& 0xFFFFFFFFFF = 0x0200000000) ∧
    (decode w = .ok .frmEnc ↔ w &&& 0xFFFFFFFFFF = 0x1000000000) ∧
    (decode w = .ok .frmDec ↔ w &&& 0xFFFFFFFFFF = 0x1100000000) ∧
    (∀ d : Word, decode w = .ok (.tmrStart d) ↔ w &&& 0xFF00000000 = 0x2000000000 ∧ d = w.extractLsb' 0 32) ∧
    (decode w = .ok .tmrRestart ↔ w &&& 0xFFFFFFFFFF = 0x2100000000) ∧
    (decode w = .ok .tmrStop ↔ w &&& 0xFFFFFFFFFF = 0x2200000000) ∧
    (decode w = .ok .tmrPoll ↔ w &&& 0xFFFFFFFFFF = 0x2300000000) ∧
    (∀ x : Word, decode w = .ok (.rsmInit x) ↔ w &&& 0xFF00000000 = 0x3000000000 ∧ x = w.extractLsb' 0 32) ∧
    (decode w = .ok .rsmRx ↔ w &&& 0xFFFFFFFFFF = 0x3100000000) ∧
    (decode w = .ok .sysReset ↔ w &&& 0xFFFFFFFFFF = 0xFF00000000) ∧
    (∀ i j : Instr, w &&& i.rowMask = i.rowMatch → w &&& j.rowMask = j.rowMatch → i.opcode = j.opcode)

/-- 30_encoding.md sections 1 and 2: decoding the word of a command gives it back with every operand, and the word of a
decoded command is the word it was decoded from. -/
def Obligations.DecodeAndEncodeAgree : Prop :=
  (∀ i : Instr, i.wf = true → decode (encode i) = .ok i) ∧
  (∀ (w : CmdWord) (i : Instr), decode w = .ok i → i.wf = true ∧ encode i = w)

/-- R232, with "illegal" as R105 defines it: the opcode is none of the twelve, or a format `N` word has `imm32 != 0`. -/
def Obligations.IllegalWordChangesOnlyCcAndItsStickyBit : Prop :=
  ∀ (s : State) (w : CmdWord) (rest : List Event),
    s.cfg.ok = true → s.busy = false → s.script = .writeReg 0x00D w.toNat :: rest →
    ((w.extractLsb' 32 8).toNat ∉ [0x00, 0x01, 0x02, 0x10, 0x11, 0x20, 0x21, 0x22, 0x23, 0x30, 0x31, 0xFF] ∨
      ((w.extractLsb' 32 8).toNat ∉ [0x20, 0x30] ∧ w.extractLsb' 0 32 ≠ 0)) →
    step s = .next { s with script := rest, cc := .illegalCmd, esr := s.esr ||| 0x00000002 }

/-- 10_state.md R34 and 30_encoding.md R100 (that the host's accesses stand in a script is the model's form, assumption 3): a
step whose next event is a write of a command's word to `CMD` executes that command, once, on the state with that event taken off the script. The second clause says the same of `withFetchWord`. -/
def Obligations.StepRunsTheDecodedCommand : Prop :=
  (∀ (s : State) (w : CmdWord) (i : Instr) (rest : List Event),
    s.cfg.ok = true → s.busy = false → s.script = .writeReg 0x00D w.toNat :: rest → decode w = .ok i →
    step s = exec i { s with script := rest }) ∧
  (∀ (s : State) (w : CmdWord) (i : Instr),
    s.cfg.ok = true → s.busy = false → decode w = .ok i →
    step (s.withFetchWord 40 w.toNat) = exec i s)

/-! ### Numbers and bytes -/

/-- R10: the byte helpers, and that they are inverse to each other. -/
def Obligations.ByteHelpersAreBigEndianAndInverse : Prop :=
  (∀ b0 b1 : Byte, (u16 b0 b1).toNat = b0.toNat * 256 + b1.toNat ∧ be16 (u16 b0 b1) = [b0, b1]) ∧
  (∀ b0 b1 b2 b3 : Byte,
    (u32 b0 b1 b2 b3).toNat = b0.toNat * 2 ^ 24 + b1.toNat * 2 ^ 16 + b2.toNat * 2 ^ 8 + b3.toNat ∧
    be32 (u32 b0 b1 b2 b3) = [b0, b1, b2, b3]) ∧
  (∀ v : Half, ∃ b0 b1, be16 v = [b0, b1] ∧ b0.toNat = v.toNat / 2 ^ 8 ∧ b1.toNat = v.toNat % 2 ^ 8 ∧ u16 b0 b1 = v) ∧
  (∀ v : Word, ∃ b0 b1 b2 b3, be32 v = [b0, b1, b2, b3] ∧ b0.toNat = v.toNat / 2 ^ 24 ∧
    b1.toNat = v.toNat / 2 ^ 16 % 2 ^ 8 ∧ b2.toNat = v.toNat / 2 ^ 8 % 2 ^ 8 ∧ b3.toNat = v.toNat % 2 ^ 8 ∧
    u32 b0 b1 b2 b3 = v)

/-- R13: modular addition and serial-number comparison; exactly one of the three comparisons holds; the distance `2^31` is
"before" both ways; offsets less than `2^31` apart compare as naturals. -/
def Obligations.OffsetsCompareBySerialNumber : Prop :=
  (∀ (a : Word) (n : Nat), (add32 a n).toNat = (a.toNat + n) % 2 ^ 32) ∧
  (∀ a b : Word,
    (lt32 a b = true ↔ 2 ^ 31 ≤ (a.toNat + (2 ^ 32 - b.toNat)) % 2 ^ 32) ∧
    (eq32 a b = true ↔ a = b) ∧
    ((lt32 a b = true ∧ eq32 a b = false ∧ gt32 a b = false) ∨
      (lt32 a b = false ∧ eq32 a b = true ∧ gt32 a b = false) ∨
      (lt32 a b = false ∧ eq32 a b = false ∧ gt32 a b = true)) ∧
    (a = add32 b (2 ^ 31) → lt32 a b = true ∧ lt32 b a = true) ∧
    (a.toNat < b.toNat + 2 ^ 31 → b.toNat < a.toNat + 2 ^ 31 → (lt32 a b = true ↔ a.toNat < b.toNat)))

/-- R12: the laws (a) to (e) of `fold16`, and the values at the multiples of `0xFFFF`. -/
def Obligations.FoldingIsArithmeticModulo65535 : Prop :=
  (∀ n : Nat, fold16 n = 0 ↔ n = 0) ∧
  (∀ n : Nat, 0 < n → 1 ≤ fold16 n ∧ fold16 n ≤ 0xFFFF ∧ fold16 n % 0xFFFF = n % 0xFFFF ∧
    ∀ r : Nat, 1 ≤ r → r ≤ 0xFFFF → r % 0xFFFF = n % 0xFFFF → r = fold16 n) ∧
  (∀ m n : Nat, fold16 (m + n) = fold16 (fold16 m + fold16 n)) ∧
  (∀ a b : Nat, ocAdd16 a b = ocAdd16 b a) ∧
  (∀ a b c : Nat, ocAdd16 (ocAdd16 a b) c = ocAdd16 a (ocAdd16 b c)) ∧
  (∀ v : Word, fold16 v.toNat = ocAdd16 (v.extractLsb' 16 16).toNat (v.extractLsb' 0 16).toNat) ∧
  (∀ a : Half, ocAdd16 a.toNat (~~~ a).toNat = 0xFFFF) ∧
  (∀ l : List Nat, fold16 l.sum = 0 ↔ ∀ x ∈ l, x = 0) ∧
  (∀ n : Nat, 0 < n → n % 0xFFFF = 0 → fold16 n = 0xFFFF)

/-! ### The checksum unit -/

/-- R134: `CSUM.GEN`, its word, its effect when the payload exists, and its error. -/
def Obligations.CsumGenStoresTheChecksum : Prop :=
  decode 0x0100000000 = .ok .csumGen ∧
  ∀ s : State,
    (s.segPlen.toNat ≤ s.cfg.mss →
      exec .csumGen s = .next { s with
        seg := { s.seg with checksum := complementSum s.seg s.payByte s.segPlen.toNat }
        csumCalc := complementSum s.seg s.payByte s.segPlen.toNat
        ckok := true
        cc := .ok }) ∧
    (s.cfg.mss < s.segPlen.toNat →
      exec .csumGen s = .next { s with cc := .encodingError, esr := s.esr ||| 0x00000004 })

/-- R136: `CSUM.CHK`, its word, its effect when the payload exists (the comparison is equality of two 16-bit numbers), and
its error. -/
def Obligations.CsumChkComparesWithTheStoredChecksum : Prop :=
  decode 0x0200000000 = .ok .csumChk ∧
  ∀ s : State,
    (s.segPlen.toNat ≤ s.cfg.mss →
      exec .csumChk s = .next { s with
        csumCalc := complementSum s.seg s.payByte s.segPlen.toNat
        ckok := decide (s.seg.checksum = complementSum s.seg s.payByte s.segPlen.toNat)
        cc := .ok }) ∧
    (s.cfg.mss < s.segPlen.toNat →
      exec .csumChk s = .next { s with cc := .encodingError, esr := s.esr ||| 0x00000004 })

/-- R138: the range, and where the two special values arise; the sum's bound at the default `MSS`. -/
def Obligations.ChecksumSpecialValues : Prop :=
  ∀ (h : Header) (p : List Byte),
    sum16 h p ≤ 0xFFFF ∧
    (checksum h p).toNat = 0xFFFF - sum16 h p ∧
    (checksum h p = 0xFFFF ↔
      (h.srcPort = 0 ∧ h.dstPort = 0 ∧ h.seqNum = 0 ∧ h.ackNum = 0 ∧ h.hdrLen = 0 ∧ h.flags = 0 ∧ h.recvWindow = 0) ∧
      ∀ b ∈ p, b = 0) ∧
    (checksum h p = 0x0000 ↔ ∃ k : Nat, 0 < k ∧ (addends h p).sum = k * 0xFFFF) ∧
    (p.length ≤ 1006 → (addends h p).sum ≤ 2 * (2 ^ 32 - 1) + 3 * 0xFFFF + 2 * 0xFF + 503 * 0xFFFF)

/-- R139: the all-ones test accepts what the equality test accepts and one case more. -/
def Obligations.AllOnesTestAcceptsOneCaseMore : Prop :=
  ∀ (h : Header) (p : List Byte),
    fold16 ((addends h p).sum + h.checksum.toNat) = 0xFFFF ↔
      (h.checksum = checksum h p ∨ (sum16 h p = 0xFFFF ∧ h.checksum = 0xFFFF))

/-- R140: a change confined to one byte (one bit among them) of a valid frame is always detected. `s` and `t` hold frames of
one length that differ in byte `k` only. -/
def Obligations.EveryOneByteChangeIsDetected : Prop :=
  ∀ (s t : State) (k : Nat),
    s.rxLegal → t.cfg = s.cfg → t.flen = s.flen → k < s.flen.toNat →
    t.frmByte k ≠ s.frmByte k → (∀ j, j < s.flen.toNat → j ≠ k → t.frmByte j = s.frmByte j) →
    (∃ s1 s2, exec .frmDec s = .next s1 ∧ exec .csumChk s1 = .next s2 ∧ s2.ckok = true) →
    ∃ t1 t2, exec .frmDec t = .next t1 ∧ exec .csumChk t1 = .next t2 ∧ t2.ckok = false

/-- R141: what the checksum does not detect. (a) order of chunks and of 16-bit header fields, and a header field against a
chunk; (b) trailing zero bytes; (c) sums that agree modulo `0xFFFF`; (d) `header_len` against `flags`. -/
def Obligations.ChecksumBlindSpots : Prop :=
  (∀ (h : Header) (p q r : List Byte) (a0 a1 b0 b1 : Byte), p.length % 2 = 0 → q.length % 2 = 0 →
    checksum h (p ++ [a0, a1] ++ q ++ [b0, b1] ++ r) = checksum h (p ++ [b0, b1] ++ q ++ [a0, a1] ++ r)) ∧
  (∀ (h : Header) (p : List Byte),
    checksum { h with srcPort := h.dstPort, dstPort := h.srcPort } p = checksum h p ∧
    checksum { h with srcPort := h.recvWindow, recvWindow := h.srcPort } p = checksum h p ∧
    checksum { h with dstPort := h.recvWindow, recvWindow := h.dstPort } p = checksum h p) ∧
  (∀ (h : Header) (p r : List Byte) (b0 b1 c0 c1 : Byte), p.length % 2 = 0 →
    checksum { h with srcPort := u16 c0 c1 } (p ++ [b0, b1] ++ r) = checksum { h with srcPort := u16 b0 b1 } (p ++ [c0, c1] ++ r) ∧
    checksum { h with dstPort := u16 c0 c1 } (p ++ [b0, b1] ++ r) = checksum { h with dstPort := u16 b0 b1 } (p ++ [c0, c1] ++ r) ∧
    checksum { h with recvWindow := u16 c0 c1 } (p ++ [b0, b1] ++ r) =
      checksum { h with recvWindow := u16 b0 b1 } (p ++ [c0, c1] ++ r)) ∧
  (∀ (h : Header) (p : List Byte) (n : Nat), checksum h (p ++ List.replicate n 0) = checksum h p) ∧
  (∀ (h g : Header) (p q : List Byte), 0 < (addends h p).sum → 0 < (addends g q).sum →
    (addends h p).sum % 0xFFFF = (addends g q).sum % 0xFFFF → checksum h p = checksum g q) ∧
  (∀ (h g : Header) (p : List Byte),
    g = { h with hdrLen := g.hdrLen, flags := g.flags } → g.hdrLen.toNat + g.flags.toNat = h.hdrLen.toNat + h.flags.toNat →
    checksum g p = checksum h p)

/-- R132: the checksum is the complement of the folded sum, and a 16-bit end-around-carry adder gives the same value from the
addends in any order. -/
def Obligations.EndAroundCarryAdderComputesTheChecksum : Prop :=
  ∀ (h : Header) (p : List Byte),
    (checksum h p).toNat = 0xFFFF - fold16 (addends h p).sum ∧
    fold16 (addends h p).sum ≤ 0xFFFF ∧
    (∀ a ∈ addends16 h p, a < 2 ^ 16) ∧
    checksumByAdder h p = checksum h p ∧
    ∀ l : List Nat, l.Perm (addends16 h p) → ~~~ (BitVec.ofNat 16 (l.foldl ocAdd16 0)) = checksum h p

/-- 40_checksum.md section 5 with 41_framer.md section 4: for every segment with a payload of at most `MSS` bytes, running the
pseudo-instructions `SEAL` then `OPEN` (R121; that they stand in a script in State is the model's form, assumption 3) ends with a
segment that verifies: `CKOK = 1`, the same fields and payload, the generated checksum stored. -/
def Obligations.SealThenOpenVerifies : Prop :=
  ∀ s : State, s.cfg.ok = true → s.busy = false → s.segPlen.toNat ≤ s.cfg.mss →
    s.script = Script.sealSegment ++ Script.openFrame →
    ∃ t : State, Sys2Proof.core.run 4 s = .next t ∧ t.ckok = true ∧ t.cc = .ok ∧
      t.seg = { s.seg with checksum := complementSum s.seg s.payByte s.segPlen.toNat } ∧
      t.csumCalc = complementSum s.seg s.payByte s.segPlen.toNat ∧
      t.segPlen = s.segPlen ∧ t.flen.toNat = 18 + s.segPlen.toNat ∧ (∀ k, t.payByte k = s.payByte k)

/-! ### The framer -/

/-- R151, with what R153 says of `FRM.ENC`: its word, the bytes it writes, the bytes it keeps, and its error. The bytes stored
are `FRM[0..18+SEG_PLEN)`. -/
def Obligations.FrmEncWritesTheFrame : Prop :=
  decode 0x1000000000 = .ok .frmEnc ∧
  ∀ s : State, s.cfg.ok = true →
    (s.segPlen.toNat ≤ s.cfg.mss →
      ∃ t : State, exec .frmEnc s = .next t ∧ t = { s with frm := t.frm, flen := t.flen, cc := .ok } ∧
        t.flen.toNat = 18 + s.segPlen.toNat ∧
        [t.frmByte 0, t.frmByte 1] = be16 s.seg.srcPort ∧
        [t.frmByte 2, t.frmByte 3] = be16 s.seg.dstPort ∧
        [t.frmByte 4, t.frmByte 5, t.frmByte 6, t.frmByte 7] = be32 s.seg.seqNum ∧
        [t.frmByte 8, t.frmByte 9, t.frmByte 10, t.frmByte 11] = be32 s.seg.ackNum ∧
        t.frmByte 12 = s.seg.hdrLen ∧ t.frmByte 13 = s.seg.flags ∧
        [t.frmByte 14, t.frmByte 15] = be16 s.seg.recvWindow ∧
        [t.frmByte 16, t.frmByte 17] = be16 s.seg.checksum ∧
        (∀ k, k < s.segPlen.toNat → t.frmByte (18 + k) = s.payByte k) ∧
        (∀ k, 18 + s.segPlen.toNat ≤ k → t.frmByte k = s.frmByte k)) ∧
    (s.cfg.mss < s.segPlen.toNat →
      exec .frmEnc s = .next { s with cc := .encodingError, esr := s.esr ||| 0x00000004 })

/-- R156, with what R153 says of `FRM.DEC`: its word, the registers and payload bytes it writes, the bytes it keeps, and its
error. The bytes stored are `PAY[0..FLEN-18)`. -/
def Obligations.FrmDecReadsTheFrame : Prop :=
  decode 0x1100000000 = .ok .frmDec ∧
  ∀ s : State,
    (s.rxLegal →
      ∃ t : State, exec .frmDec s = .next t ∧
        t = { s with seg := t.seg, segPlen := t.segPlen, pay := t.pay, ckok := false, cc := .ok } ∧
        t.seg.srcPort = u16 (s.frmByte 0) (s.frmByte 1) ∧
        t.seg.dstPort = u16 (s.frmByte 2) (s.frmByte 3) ∧
        t.seg.seqNum = u32 (s.frmByte 4) (s.frmByte 5) (s.frmByte 6) (s.frmByte 7) ∧
        t.seg.ackNum = u32 (s.frmByte 8) (s.frmByte 9) (s.frmByte 10) (s.frmByte 11) ∧
        t.seg.hdrLen = s.frmByte 12 ∧ t.seg.flags = s.frmByte 13 ∧
        t.seg.recvWindow = u16 (s.frmByte 14) (s.frmByte 15) ∧
        t.seg.checksum = u16 (s.frmByte 16) (s.frmByte 17) ∧
        t.segPlen.toNat = s.flen.toNat - 18 ∧ t.segPlen.toNat ≤ s.cfg.mss ∧
        (∀ k, k < s.flen.toNat - 18 → t.payByte k = s.frmByte (18 + k)) ∧
        (∀ k, s.flen.toNat - 18 ≤ k → t.payByte k = s.payByte k)) ∧
    (¬ s.rxLegal → exec .frmDec s = .next { s with cc := .decodingError, esr := s.esr ||| 0x00000008 })

/-- R160: after `FRM.ENC` and then `FRM.DEC`, every `SEG_*` register and the payload are what they were; only `CKOK` of the
segment's state differs (it is 0). -/
def Obligations.DecodingTheEncodedFrameRestoresTheSegment : Prop :=
  ∀ s t : State, s.cfg.ok = true → exec .frmEnc s = .next t → t.cc = .ok →
    ∃ u : State, exec .frmDec t = .next u ∧ u.cc = .ok ∧
      u.seg = s.seg ∧ u.segPlen = s.segPlen ∧ (∀ k, u.payByte k = s.payByte k) ∧ u.ckok = false ∧
      u = { s with pay := u.pay, frm := u.frm, flen := u.flen, ckok := false, cc := .ok }

/-- R161: after `FRM.DEC` and then `FRM.ENC`, `FLEN` and `FRM[0..FLEN)` are what they were. -/
def Obligations.EncodingTheDecodedSegmentRestoresTheFrame : Prop :=
  ∀ s t : State, exec .frmDec s = .next t → t.cc = .ok →
    ∃ u : State, exec .frmEnc t = .next u ∧ u.cc = .ok ∧
      u.flen = s.flen ∧ (∀ k, u.frmByte k = s.frmByte k)

/-! ### The timer -/

/-- R172: `TMR.START d`, its word and its whole effect, at a `NOW` that keeps the platform's bound (R39). -/
def Obligations.TmrStartArmsTheTimer : Prop :=
  ∀ (s : State) (d : Word), s.now.toNat < timeBound →
    decode (0x20#8 ++ d) = .ok (.tmrStart d) ∧
    ∃ t : State, exec (.tmrStart d) s = .next t ∧
      t = { s with
        tdur := d
        tdurv := true
        deadline := t.deadline
        tstate := (if d = 0 then .expired else .running)
        cc := .ok } ∧
      t.deadline.toNat = s.now.toNat + d.toNat

/-- R174: `TMR.RESTART`, its word, its effect with a previous duration, and its error without one. -/
def Obligations.TmrRestartUsesThePreviousDuration : Prop :=
  decode 0x2100000000 = .ok .tmrRestart ∧
  ∀ s : State, s.now.toNat < timeBound →
    (s.tdurv = true →
      ∃ t : State, exec .tmrRestart s = .next t ∧
        t = { s with deadline := t.deadline, tstate := (if s.tdur = 0 then .expired else .running), cc := .ok } ∧
        t.deadline.toNat = s.now.toNat + s.tdur.toNat) ∧
    (s.tdurv = false →
      exec .tmrRestart s = .next { s with cc := .tmrNoDuration, esr := s.esr ||| 0x00000010 })

/-- R176: `TMR.STOP`, its word and its whole effect. -/
def Obligations.TmrStopMovesToIdle : Prop :=
  decode 0x2200000000 = .ok .tmrStop ∧
  ∀ s : State, exec .tmrStop s = .next { s with tstate := .idle, deadline := 0, cc := .ok }

/-- R178: `TMR.POLL`, its word and its whole effect; polling consumes nothing. -/
def Obligations.TmrPollReportsExpiry : Prop :=
  decode 0x2300000000 = .ok .tmrPoll ∧
  ∀ s : State, exec .tmrPoll s = .next { s with tpoll := decide (s.tstate = .expired), cc := .ok }

/-- R180, with U3: an advance of the time base below the bound changes `NOW` and, from `RUNNING` at or past the deadline,
`TSTATE`; one that would reach the bound is refused. -/
def Obligations.TimeAdvanceChangesOnlyNowAndExpiry : Prop :=
  ∀ (s : State) (n : Nat) (rest : List Event), s.cfg.ok = true → s.script = .tick n :: rest →
    (s.now.toNat + n < timeBound →
      ∃ t : State, step s = .next t ∧ t.now.toNat = s.now.toNat + n ∧
        t = { s with
          script := rest
          now := t.now
          tstate := (if s.tstate = .running ∧ s.deadline.toNat ≤ s.now.toNat + n then .expired else s.tstate) }) ∧
    (timeBound ≤ s.now.toNat + n → step s = .refused .timeBaseOutOfRange)

/-- R183: after a `TMR.START d` at `NOW = t0` and any events that are no timer command and no reset, a poll at `NOW = t`
returns 1 exactly when `t >= t0 + d`. -/
def Obligations.ExpiryIsStickyAndExact : Prop :=
  ∀ (s t : State) (d : Word) (evs : List Event),
    s.cfg.ok = true → s.busy = false → s.now.toNat < timeBound →
    s.script = Script.cmd (.tmrStart d) ++ evs → (∀ e ∈ evs, e.leavesTimerArmed = true) →
    Sys2Proof.core.run (evs.length + 1) s = .next t →
    exec .tmrPoll t = .next { t with tpoll := decide (s.now.toNat + d.toNat ≤ t.now.toNat), cc := .ok }

/-- 42_timer.md section 7: a step changes the timer only through a timer command's word, an advance of time or a reset. -/
def Obligations.OnlyTimerEventsChangeTheTimer : Prop :=
  ∀ (s t : State) (e : Event) (rest : List Event), s.script = e :: rest → step s = .next t →
    e.leavesTimerArmed = true → (∀ n, e ≠ .tick n) →
    t.tstate = s.tstate ∧ t.deadline = s.deadline ∧ t.tdur = s.tdur ∧ t.tdurv = s.tdurv ∧ t.now = s.now

/-! ### The reassembly buffer -/

/-- R192: `RSM.INIT x`, its word and its whole effect: every slot in the canonical empty state of R193. -/
def Obligations.RsmInitOpensAStream : Prop :=
  ∀ (s : State) (x : Word),
    decode (0x30#8 ++ x) = .ok (.rsmInit x) ∧
    exec (.rsmInit x) s = .next { s with
      expected := x
      slots := s.slots.map (fun u => { u with v := false, fin := false, off := 0, len := 0 })
      out := []
      outlen := 0
      rstate := .active
      rxres := .none
      cc := .ok }

/-- R197: `RSM.RX` before any `RSM.INIT` ends with `RSM_INACTIVE` and changes nothing else. -/
def Obligations.RsmRxInIdleIsRefused : Prop :=
  ∀ s : State, s.rstate = .idle →
    exec .rsmRx s = .next { s with cc := .rsmInactive, esr := s.esr ||| 0x00000020 }

/-- R196: with a legal length the decoded segment, its checksum and the comparison are left for the host whatever the outcome;
with an illegal length the outcome is `BAD_FRAME` and they keep their values. -/
def Obligations.RsmRxLeavesTheDecodedSegment : Prop :=
  ∀ s : State, s.rstate ≠ .idle →
    (s.rxLegal →
      ∃ t : State, exec .rsmRx s = .next t ∧ t.cc = .ok ∧
        t.seg = s.rxHeader ∧ t.segPlen.toNat = s.flen.toNat - 18 ∧
        (∀ k, k < s.flen.toNat - 18 → t.payByte k = s.frmByte (18 + k)) ∧
        (∀ k, s.flen.toNat - 18 ≤ k → t.payByte k = s.payByte k) ∧
        t.csumCalc = s.rxChecksum ∧ t.ckok = decide (s.rxHeader.checksum = s.rxChecksum)) ∧
    (¬ s.rxLegal →
      ∃ t : State, exec .rsmRx s = .next t ∧ t.cc = .ok ∧ t.rxres = .badFrame ∧
        t.seg = s.seg ∧ t.segPlen = s.segPlen ∧ t.pay = s.pay ∧ t.csumCalc = s.csumCalc ∧ t.ckok = s.ckok)

/-- 43_reassembly.md section 3 (R195, R199) with the order of tests of 60_exceptions.md section 4: which outcome `RSM.RX`
records, and the event bit that goes with it. -/
def Obligations.RsmRxOutcomeFollowsTheOrderOfTests : Prop :=
  ∀ s : State, s.rstate ≠ .idle →
    ∃ t : State, exec .rsmRx s = .next t ∧
      (¬ s.rxLegal → t.rxres = .badFrame ∧ t.esr = s.esr ||| 0x00020000) ∧
      (s.rxLegal → ¬ s.rxValid → t.rxres = .badCsum ∧ t.esr = s.esr ||| 0x00010000) ∧
      (s.rxValid → s.rstate = .done → t.rxres = .afterDone ∧ t.esr = s.esr) ∧
      (s.rxValid → s.rstate = .active → lt32 s.rxHeader.seqNum s.expected = true →
        t.rxres = .stale ∧ t.esr = s.esr) ∧
      (s.rxValid → s.rstate = .active → s.rxHeader.seqNum = s.expected →
        (t.rxres = .accepted ∨ t.rxres = .acceptedFin) ∧ t.esr = s.esr) ∧
      (s.rxValid → s.rstate = .active → gt32 s.rxHeader.seqNum s.expected = true → s.pending s.rxHeader.seqNum →
        t.rxres = .dupPending ∧ t.esr = s.esr) ∧
      (s.rxValid → s.rstate = .active → gt32 s.rxHeader.seqNum s.expected = true → ¬ s.pending s.rxHeader.seqNum →
        ¬ s.hasFreeSlot → t.rxres = .noSlot ∧ t.esr = s.esr ||| 0x00040000) ∧
      (s.rxValid → s.rstate = .active → gt32 s.rxHeader.seqNum s.expected = true → ¬ s.pending s.rxHeader.seqNum →
        s.hasFreeSlot → t.rxres = .buffered ∧ t.esr = s.esr)

/-- R198, R201, R207 and the drops of R205: a frame that is dropped, for whatever reason, leaves the stream as it was. -/
def Obligations.DroppedFrameLeavesTheStream : Prop :=
  ∀ s : State, s.rstate ≠ .idle →
    (¬ s.rxValid ∨ s.rstate = .done ∨ lt32 s.rxHeader.seqNum s.expected = true ∨
      (gt32 s.rxHeader.seqNum s.expected = true ∧ (s.pending s.rxHeader.seqNum ∨ ¬ s.hasFreeSlot))) →
    ∃ t : State, exec .rsmRx s = .next t ∧ t.cc = .ok ∧
      t.expected = s.expected ∧ t.slots = s.slots ∧ t.out = s.out ∧ t.outlen = s.outlen ∧ t.rstate = s.rstate

/-- R202, R203, R204, R206: an in-order segment is accepted whatever the slots hold (R213): its payload is appended, the loop of
R203 is run to its end, a FIN completes the stream and frees every slot, and otherwise the entries now before `EXPECTED` are
freed. -/
def Obligations.InOrderSegmentIsAcceptedAndMerged : Prop :=
  ∀ s : State, s.rstate = .active → s.rxValid → s.rxHeader.seqNum = s.expected →
    ∃ (d u t : State) (f : Bool), exec .rsmRx s = .next t ∧ t.cc = .ok ∧
      (d.slots = s.slots ∧ d.ramDraw = s.ramDraw ∧
        d.out = s.out ++ (List.range (s.flen.toNat - 18)).map (fun k => s.frmByte (18 + k)) ∧
        d.outlen = s.outlen + BitVec.ofNat 64 (s.flen.toNat - 18) ∧
        d.expected = add32 s.expected (s.flen.toNat - 18)) ∧
      MergeRun (decide (s.rxHeader.flags &&& s.cfg.flagFin ≠ 0)) d f u ∧
      (t.out = u.out ∧ t.outlen = u.outlen ∧ t.expected = u.expected) ∧
      (f = true → t.rstate = .done ∧ t.rxres = .acceptedFin ∧
        t.slots = u.slots.map (fun a => { a with v := false, fin := false, off := 0, len := 0 })) ∧
      (f = false → t.rstate = .active ∧ t.rxres = .accepted ∧
        t.slots = u.slots.map (fun a =>
          if a.v = true ∧ lt32 a.off u.expected = true then { a with v := false, fin := false, off := 0, len := 0 } else a))

/-- R205: an out-of-order segment whose offset is not pending is stored in the least free slot: its fields, its payload in
`DATA[0..n)`, the other bytes of `DATA`, every other slot and the stream unchanged. -/
def Obligations.OutOfOrderSegmentTakesTheLeastFreeSlot : Prop :=
  ∀ (s : State) (i : Nat) (u : Slot), s.rstate = .active → s.rxValid → gt32 s.rxHeader.seqNum s.expected = true →
    ¬ s.pending s.rxHeader.seqNum → s.slots[i]? = some u → u.v = false →
    (∀ (j : Nat) (w : Slot), j < i → s.slots[j]? = some w → w.v = true) →
    ∃ (t : State) (w : Slot), exec .rsmRx s = .next t ∧ t.cc = .ok ∧ t.rxres = .buffered ∧
      t.slots = s.slots.set i w ∧
      w.v = true ∧ w.off = s.rxHeader.seqNum ∧ w.len.toNat = s.flen.toNat - 18 ∧
      w.fin = decide (s.rxHeader.flags &&& s.cfg.flagFin ≠ 0) ∧
      (∀ k, k < s.flen.toNat - 18 → t.slotByte i k = s.frmByte (18 + k)) ∧
      (∀ k, s.flen.toNat - 18 ≤ k → t.slotByte i k = s.slotByte i k) ∧
      (∀ j k, j ≠ i → t.slotByte j k = s.slotByte j k) ∧
      t.expected = s.expected ∧ t.out = s.out ∧ t.outlen = s.outlen ∧ t.rstate = s.rstate

/-- R208: every `RSM.RX` that ends with `done` rebuilds `ACKF` from the template and the `EXPECTED` it leaves. -/
def Obligations.AcknowledgementCarriesExpected : Prop :=
  ∀ s : State, s.rstate ≠ .idle →
    ∃ t : State, exec .rsmRx s = .next t ∧ t.cc = .ok ∧
      t.ackf = be16 s.acktSrcPort ++ be16 s.acktDstPort ++ be32 s.acktSeqNum ++ be32 t.expected ++
        [s.acktHdrLen, s.cfg.flagAck] ++ be16 s.acktRecvWindow ++
        be16 (BitVec.ofNat 16 (0xFFFF - fold16 (s.acktSrcPort.toNat + s.acktDstPort.toNat + s.acktSeqNum.toNat +
          t.expected.toNat + s.acktHdrLen.toNat + s.cfg.flagAck.toNat + s.acktRecvWindow.toNat)))

/-- 43_reassembly.md section 4 (R210 to R212): `RSM.RX` only ever appends to `OUT`, and moves `EXPECTED` and `OUTLEN` by exactly
the number of bytes appended, which in a machine that keeps the invariant is at most `(PEND_SLOTS + 1) * MSS < 2^31`; so
`EXPECTED` never moves backwards. -/
def Obligations.ExpectedMovesOnlyOverDeliveredBytes : Prop :=
  ∀ s t : State, exec .rsmRx s = .next t →
    ∃ bs : List Byte, t.out = s.out ++ bs ∧ t.expected = add32 s.expected bs.length ∧
      t.outlen = s.outlen + BitVec.ofNat 64 bs.length ∧
      (s.Inv → bs.length ≤ (s.cfg.pendSlots + 1) * s.cfg.mss ∧ bs.length < 2 ^ 31 ∧
        lt32 t.expected s.expected = false)

/-- R203 (the bound on the rounds is an inference, assumption 11): as many rounds as there are slots run the loop of R203 to its end; and when no two valid slots have one offset (R43 (a)),
that loop has only one end. -/
def Obligations.MergeRunsItsLoopToTheEnd : Prop :=
  (∀ (s : State) (fin : Bool), MergeRun fin s (merge s.slots.length fin s).1 (merge s.slots.length fin s).2) ∧
  (∀ (s t : State) (fin f : Bool), s.slots.Pairwise (fun a b => a.v = true → b.v = true → a.off ≠ b.off) →
    MergeRun fin s f t → f = (merge s.slots.length fin s).1 ∧ t = (merge s.slots.length fin s).2)

/-- 43_reassembly.md section 3, the frame of `RSM.RX`: the registers and buffers it does not write keep their values (`FRM` among
them), and no byte of any `SLOT[i].DATA` changes unless the outcome is `BUFFERED`. -/
def Obligations.RsmRxLeavesEverythingElse : Prop :=
  ∀ s : State, ∃ t : State, exec .rsmRx s = .next t ∧
    t = { s with
      seg := t.seg, segPlen := t.segPlen, pay := t.pay, csumCalc := t.csumCalc, ckok := t.ckok
      cc := t.cc, rxres := t.rxres, esr := t.esr
      rstate := t.rstate, expected := t.expected, slots := t.slots, out := t.out, outlen := t.outlen
      ackf := t.ackf } ∧
    t.slots.length = s.slots.length ∧
    (t.rxres ≠ .buffered → ∀ i k, t.slotByte i k = s.slotByte i k)

/-! ### The system commands and the two resets -/

/-- R220: `SYS.NOP`, its word and its whole effect. -/
def Obligations.SysNopChangesOnlyCc : Prop :=
  decode 0x0000000000 = .ok .sysNop ∧ ∀ s : State, exec .sysNop s = .next { s with cc := .ok }

/-- R222: `SYS.RESET`, its word and its whole effect: `NOW`, `PAY`, `FRM` and every `SLOT[i].DATA` keep their values. -/
def Obligations.SysResetRestoresTheResetValues : Prop :=
  decode 0xFF00000000 = .ok .sysReset ∧
  ∀ s : State, exec .sysReset s = .next {
    cfg := s.cfg, now := s.now, script := s.script, hostReads := s.hostReads, ramDraw := s.ramDraw
    pay := s.pay, frm := s.frm
    seg := ⟨0, 0, 0, 0, 0, 0, 0, 0⟩, segPlen := 0, flen := 0, csumCalc := 0, ckok := false
    cc := .ok, rxres := .none, tpoll := false, busy := false, esr := 0
    tstate := .idle, deadline := 0, tdur := 0, tdurv := false
    rstate := .idle, expected := 0, out := [], outlen := 0
    slots := s.slots.map (fun u => { u with v := false, fin := false, off := 0, len := 0 })
    acktSrcPort := 0, acktDstPort := 0, acktSeqNum := 0, acktHdrLen := 18, acktRecvWindow := 0
    ackf := List.replicate 18 0 }

/-- 10_state.md section 11 and 70_reset_and_hazards.md section 1: after the hardware reset signal every register reads as its
reset column says, `NOW` reads as before, `ACKF` reads as 18 zero bytes, `OUT` is empty, and a byte of `PAY`, `FRM` or
`SLOT[i].DATA` is a free value: it reads as the draw of this reset, a new one, whatever stood there before. That the free value is an
uninterpreted function of the draw, and that the draws are numbered, is the model's own form (assumption 1). -/
def Obligations.HardwareResetGivesTheResetState : Prop :=
  ∀ (s : State) (rest : List Event), s.cfg.ok = true → s.script = .hardwareReset :: rest →
    ∃ t : State, step s = .next t ∧ t.cfg = s.cfg ∧ t.script = rest ∧ t.now = s.now ∧ t.ramDraw = s.ramDraw + 1 ∧
      (∀ n, hostReadReg t n = if n = 0x23 then 18 else if n = 0x10 then s.now.toNat else 0) ∧
      (∀ i, hostReadByte t 0x02 i = 0) ∧ t.ackf.length = 18 ∧ t.out = [] ∧
      (∀ k, t.payByte k = Config.ramAtReset t.ramDraw 0x00 k) ∧
      (∀ k, t.frmByte k = Config.ramAtReset t.ramDraw 0x01 k) ∧
      (∀ i k, t.slotByte i k = Config.ramAtReset t.ramDraw (0x10 + i) k)

/-- 10_state.md section 2 (R22, R55): every register of the machine right after reset reads as its reset column says, `NOW`
apart, whose value is the platform's (assumption 2). -/
def Obligations.ResetReadsAsTheRegisterTable : Prop :=
  ∀ n : Nat, n ≠ 0x10 → hostReadReg State.reset n = if n = 0x23 then 18 else 0

/-! ### Errors and flags -/

/-- R230: a command that ends with any other code than `OK` had no effect but on `CC` and the matching bit of `ESR`. -/
def Obligations.ErrorsArePrecise : Prop :=
  ∀ (i : Instr) (s : State), ∃ t : State, exec i s = .next t ∧
    (t.cc ≠ .ok → t = { s with cc := t.cc, esr := s.esr ||| (1#32 <<< t.cc.code) })

/-- R231: which completion code a word written to `CMD` leaves in `STATUS.CC` (bits 15:8), and when. -/
def Obligations.CompletionCodesFollowTheTable : Prop :=
  ∀ (s : State) (w : CmdWord), ∃ t : State, issueCommand w s = .next t ∧
    (t.statusWord.extractLsb' 8 8 = 0x01 ↔
      ((w.extractLsb' 32 8).toNat ∉ [0x00, 0x01, 0x02, 0x10, 0x11, 0x20, 0x21, 0x22, 0x23, 0x30, 0x31, 0xFF] ∨
        ((w.extractLsb' 32 8).toNat ∉ [0x20, 0x30] ∧ w.extractLsb' 0 32 ≠ 0))) ∧
    (t.statusWord.extractLsb' 8 8 = 0x02 ↔
      (decode w = .ok .frmEnc ∨ decode w = .ok .csumGen ∨ decode w = .ok .csumChk) ∧ s.cfg.mss < s.segPlen.toNat) ∧
    (t.statusWord.extractLsb' 8 8 = 0x03 ↔ decode w = .ok .frmDec ∧ ¬ s.rxLegal) ∧
    (t.statusWord.extractLsb' 8 8 = 0x04 ↔ decode w = .ok .tmrRestart ∧ s.tdurv = false) ∧
    (t.statusWord.extractLsb' 8 8 = 0x05 ↔ decode w = .ok .rsmRx ∧ s.rstate = .idle) ∧
    (t.statusWord.extractLsb' 8 8).toNat ≤ 0x05

/-- R33: a set bit of `ESR` stays set through every step but the two resets, and every reserved bit stays as it was. -/
def Obligations.EsrBitsAreStickyUntilReset : Prop :=
  ∀ (s t : State) (e : Event) (rest : List Event), s.script = e :: rest → step s = .next t →
    e ≠ .hardwareReset → e ≠ .writeReg 0x00D 0xFF00000000 →
    s.esr &&& t.esr = s.esr ∧ t.esr &&& ~~~ 0x0007003E = s.esr &&& ~~~ 0x0007003E

/-- 10_state.md section 5 (R31, R32): the commands that write `CKOK`, `RXRES`, `TPOLL` and `CSUM_CALC`; every other command leaves
them. -/
def Obligations.ResultFieldsAreWrittenByTheirCommandsOnly : Prop :=
  ∀ (i : Instr) (s : State), ∃ t : State, exec i s = .next t ∧
    (i ≠ .csumGen → i ≠ .csumChk → i ≠ .frmDec → i ≠ .rsmRx → i ≠ .sysReset → t.ckok = s.ckok) ∧
    (i ≠ .csumGen → i ≠ .csumChk → i ≠ .rsmRx → i ≠ .sysReset → t.csumCalc = s.csumCalc) ∧
    (i ≠ .rsmRx → i ≠ .sysReset → (∀ x, i ≠ .rsmInit x) → t.rxres = s.rxres) ∧
    (i ≠ .tmrPoll → i ≠ .sysReset → t.tpoll = s.tpoll)

/-- R30, with the codes of R199 and R231 written out: `STATUS` shows each field at its place, and bits 31:21 read as zero. -/
def Obligations.StatusShowsItsFields : Prop :=
  ∀ s : State,
    (s.statusWord.getLsbD 0 = s.busy) ∧
    (s.statusWord.getLsbD 1 = s.ckok) ∧
    (s.statusWord.getLsbD 2 = decide (s.tstate = .expired)) ∧
    ((s.statusWord.extractLsb' 3 2).toNat = match s.tstate with | .idle => 0 | .running => 1 | .expired => 2) ∧
    ((s.statusWord.extractLsb' 5 2).toNat = match s.rstate with | .idle => 0 | .active => 1 | .done => 2) ∧
    (s.statusWord.getLsbD 7 = s.tdurv) ∧
    ((s.statusWord.extractLsb' 8 8).toNat = match s.cc with
      | .ok => 0x00 | .illegalCmd => 0x01 | .encodingError => 0x02 | .decodingError => 0x03 | .tmrNoDuration => 0x04
      | .rsmInactive => 0x05) ∧
    ((s.statusWord.extractLsb' 16 4).toNat = match s.rxres with
      | .none => 0 | .accepted => 1 | .acceptedFin => 2 | .buffered => 3 | .dupPending => 4 | .stale => 5 | .badCsum => 6
      | .badFrame => 7 | .noSlot => 8 | .afterDone => 9) ∧
    (s.statusWord.getLsbD 20 = s.tpoll) ∧
    (s.statusWord.extractLsb' 21 11 = 0) ∧
    hostReadReg s 0x0B = s.statusWord.toNat

/-! ### The host's primitives -/

/-- 20_memory.md sections 3 and 4 (R79, R81; the record of values handed back is the model's own, assumption 6): a register read
hands the host the register's current value, which is a value of its width (R21), and changes nothing else; a reserved number and
`CMD` read as 0. The second clause is the table of R22 and the count of R45: which field each number shows. -/
def Obligations.HostReadRegHandsBackTheValue : Prop :=
  (∀ (s : State) (r : BitVec 12) (rest : List Event), s.cfg.ok = true → s.busy = false → s.slots.length = s.cfg.pendSlots →
    s.script = .readReg r :: rest →
    ∃ v : Nat, step s = .next { s with script := rest, hostReads := v :: s.hostReads } ∧ v = hostReadReg s r.toNat ∧
      (∀ reg, Reg.ofNumber s.cfg r.toNat = some reg → v = s.readReg reg ∧ v < 2 ^ reg.width) ∧
      (Reg.ofNumber s.cfg r.toNat = none → v = 0) ∧ (r = 0x00D → v = 0)) ∧
  (∀ s : State,
    hostReadReg s 0x00 = s.seg.srcPort.toNat ∧
    hostReadReg s 0x01 = s.seg.dstPort.toNat ∧
    hostReadReg s 0x02 = s.seg.seqNum.toNat ∧
    hostReadReg s 0x03 = s.seg.ackNum.toNat ∧
    hostReadReg s 0x04 = s.seg.hdrLen.toNat ∧
    hostReadReg s 0x05 = s.seg.flags.toNat ∧
    hostReadReg s 0x06 = s.seg.recvWindow.toNat ∧
    hostReadReg s 0x07 = s.seg.checksum.toNat ∧
    hostReadReg s 0x08 = s.segPlen.toNat ∧
    hostReadReg s 0x09 = s.flen.toNat ∧
    hostReadReg s 0x0A = s.csumCalc.toNat ∧
    hostReadReg s 0x0B = s.statusWord.toNat ∧
    hostReadReg s 0x0C = s.esr.toNat ∧
    hostReadReg s 0x10 = s.now.toNat ∧
    hostReadReg s 0x11 = s.deadline.toNat ∧
    hostReadReg s 0x12 = s.tdur.toNat ∧
    hostReadReg s 0x18 = s.expected.toNat ∧
    hostReadReg s 0x19 = s.outlen.toNat ∧
    hostReadReg s 0x1A = (s.slots.filter (fun u => u.v)).length ∧
    hostReadReg s 0x20 = s.acktSrcPort.toNat ∧
    hostReadReg s 0x21 = s.acktDstPort.toNat ∧
    hostReadReg s 0x22 = s.acktSeqNum.toNat ∧
    hostReadReg s 0x23 = s.acktHdrLen.toNat ∧
    hostReadReg s 0x24 = s.acktRecvWindow.toNat ∧
    (∀ (i : Nat) (u : Slot), i < s.cfg.pendSlots → s.slots[i]? = some u →
      hostReadReg s (0x40 + 4 * i) = (if u.v = true then 1 else 0) + (if u.fin = true then 2 else 0) ∧
      hostReadReg s (0x41 + 4 * i) = u.off.toNat ∧
      hostReadReg s (0x42 + 4 * i) = u.len.toNat) ∧
    (∀ n : Nat, (0x0D ≤ n ∧ n < 0x10) ∨ (0x13 ≤ n ∧ n < 0x18) ∨ (0x1B ≤ n ∧ n < 0x20) ∨ (0x25 ≤ n ∧ n < 0x40) ∨
      (0x40 ≤ n ∧ n % 4 = 3) ∨ 0x40 + 4 * s.cfg.pendSlots ≤ n → hostReadReg s n = 0))

/-- R82 with the table of R22. The first clause is every `RW` register's: the value is stored, reads back, and nothing else reads
differently. The second names the fifteen `RW` numbers, their widths, and the one field that holds the value. -/
def Obligations.HostWriteRegStoresOneRegister : Prop :=
  (∀ (s : State) (r : BitVec 12) (reg : Reg) (v : Nat) (rest : List Event), s.cfg.ok = true → s.busy = false →
    s.script = .writeReg r v :: rest → Reg.ofNumber s.cfg r.toNat = some reg → reg.access = .rw → v < 2 ^ reg.width →
    ∃ t : State, step s = .next t ∧ hostReadReg t r.toNat = v ∧
      (∀ n, n ≠ r.toNat → hostReadReg t n = hostReadReg s n) ∧ sameBytes s t ∧
      t.script = rest ∧ t.hostReads = s.hostReads ∧ t.ramDraw = s.ramDraw ∧ t.cfg = s.cfg) ∧
  (∀ (s : State) (r : BitVec 12) (v : Nat) (rest : List Event), s.cfg.ok = true → s.busy = false →
    s.script = .writeReg r v :: rest →
    (r = 0x000 → v < 2 ^ 16 → step s = .next { s with script := rest, seg := { s.seg with srcPort := BitVec.ofNat 16 v } }) ∧
    (r = 0x001 → v < 2 ^ 16 → step s = .next { s with script := rest, seg := { s.seg with dstPort := BitVec.ofNat 16 v } }) ∧
    (r = 0x002 → v < 2 ^ 32 → step s = .next { s with script := rest, seg := { s.seg with seqNum := BitVec.ofNat 32 v } }) ∧
    (r = 0x003 → v < 2 ^ 32 → step s = .next { s with script := rest, seg := { s.seg with ackNum := BitVec.ofNat 32 v } }) ∧
    (r = 0x004 → v < 2 ^ 8 → step s = .next { s with script := rest, seg := { s.seg with hdrLen := BitVec.ofNat 8 v } }) ∧
    (r = 0x005 → v < 2 ^ 8 → step s = .next { s with script := rest, seg := { s.seg with flags := BitVec.ofNat 8 v } }) ∧
    (r = 0x006 → v < 2 ^ 16 →
      step s = .next { s with script := rest, seg := { s.seg with recvWindow := BitVec.ofNat 16 v } }) ∧
    (r = 0x007 → v < 2 ^ 16 → step s = .next { s with script := rest, seg := { s.seg with checksum := BitVec.ofNat 16 v } }) ∧
    (r = 0x008 → v < 2 ^ 16 → step s = .next { s with script := rest, segPlen := BitVec.ofNat 16 v }) ∧
    (r = 0x009 → v < 2 ^ 16 → step s = .next { s with script := rest, flen := BitVec.ofNat 16 v }) ∧
    (r = 0x020 → v < 2 ^ 16 → step s = .next { s with script := rest, acktSrcPort := BitVec.ofNat 16 v }) ∧
    (r = 0x021 → v < 2 ^ 16 → step s = .next { s with script := rest, acktDstPort := BitVec.ofNat 16 v }) ∧
    (r = 0x022 → v < 2 ^ 32 → step s = .next { s with script := rest, acktSeqNum := BitVec.ofNat 32 v }) ∧
    (r = 0x023 → v < 2 ^ 8 → step s = .next { s with script := rest, acktHdrLen := BitVec.ofNat 8 v }) ∧
    (r = 0x024 → v < 2 ^ 16 → step s = .next { s with script := rest, acktRecvWindow := BitVec.ofNat 16 v }))

/-- R83: a write to a read-only register, to a reserved register number, to a read-only buffer, to a reserved buffer number or
beyond a buffer's size is ignored. The second clause names the read-only numbers of R22 with their widths, the third the reserved
numbers. -/
def Obligations.IgnoredWritesChangeNothing : Prop :=
  (∀ (s : State) (r : BitVec 12) (v : Nat) (rest : List Event), s.cfg.ok = true → s.busy = false →
    s.script = .writeReg r v :: rest →
    (Reg.ofNumber s.cfg r.toNat = none ∨
      ∃ reg, Reg.ofNumber s.cfg r.toNat = some reg ∧ reg.access = .ro ∧ v < 2 ^ reg.width) →
    step s = .next { s with script := rest }) ∧
  (∀ (s : State) (r : BitVec 12) (v : Nat) (rest : List Event), s.cfg.ok = true → s.busy = false →
    s.script = .writeReg r v :: rest →
    ((r = 0x00A ∧ v < 2 ^ 16) ∨ (r = 0x00B ∧ v < 2 ^ 32) ∨ (r = 0x00C ∧ v < 2 ^ 32) ∨
      (r = 0x010 ∧ v < 2 ^ 64) ∨ (r = 0x011 ∧ v < 2 ^ 64) ∨ (r = 0x012 ∧ v < 2 ^ 32) ∨
      (r = 0x018 ∧ v < 2 ^ 32) ∨ (r = 0x019 ∧ v < 2 ^ 64) ∨ (r = 0x01A ∧ v < 2 ^ 8) ∨
      (∃ i, i < s.cfg.pendSlots ∧ ((r.toNat = 0x40 + 4 * i ∧ v < 2 ^ 8) ∨ (r.toNat = 0x41 + 4 * i ∧ v < 2 ^ 32) ∨
        (r.toNat = 0x42 + 4 * i ∧ v < 2 ^ 16)))) →
    step s = .next { s with script := rest }) ∧
  (∀ (s : State) (r : BitVec 12) (v : Nat) (rest : List Event), s.cfg.ok = true → s.busy = false →
    s.script = .writeReg r v :: rest →
    ((0x0E ≤ r.toNat ∧ r.toNat < 0x10) ∨ (0x13 ≤ r.toNat ∧ r.toNat < 0x18) ∨ (0x1B ≤ r.toNat ∧ r.toNat < 0x20) ∨
      (0x25 ≤ r.toNat ∧ r.toNat < 0x40) ∨ (0x40 ≤ r.toNat ∧ r.toNat % 4 = 3) ∨ 0x40 + 4 * s.cfg.pendSlots ≤ r.toNat) →
    step s = .next { s with script := rest }) ∧
  (∀ (s : State) (b : BitVec 12) (i : Nat) (v : Byte) (rest : List Event), s.cfg.ok = true → s.busy = false →
    s.script = .writeByte b i v :: rest → ¬ (b = 0x000 ∧ i < s.cfg.mss) → ¬ (b = 0x001 ∧ i < s.cfg.frameSize) →
    step s = .next { s with script := rest })

/-- R84: a byte written to `PAY` or `FRM` within its size reads back; every other byte and every register, `SEG_PLEN` and `FLEN` among
them, reads as before. -/
def Obligations.HostWriteByteStoresOneByte : Prop :=
  ∀ (s : State) (b : BitVec 12) (i : Nat) (v : Byte) (rest : List Event), s.cfg.ok = true → s.busy = false →
    s.script = .writeByte b i v :: rest → (b = 0x000 ∧ i < s.cfg.mss ∨ b = 0x001 ∧ i < s.cfg.frameSize) →
    ∃ t : State, step s = .next t ∧ hostReadByte t b.toNat i = v ∧
      (∀ c j, ¬ (c = b.toNat ∧ j = i) → hostReadByte t c j = hostReadByte s c j) ∧
      t = { s with script := rest, pay := t.pay, frm := t.frm }

/-- R72, R84 (the record of values handed back is the model's own, assumption 6): a byte read hands the host the stored byte and
changes nothing else; a byte that does not exist reads as 0. -/
def Obligations.HostReadByteHandsBackTheByte : Prop :=
  ∀ (s : State) (b : BitVec 12) (i : Nat) (rest : List Event), s.cfg.ok = true → s.busy = false →
    s.ackf.length = 18 → s.outlen.toNat = s.out.length → s.script = .readByte b i :: rest →
    ∃ v : Byte, step s = .next { s with script := rest, hostReads := v.toNat :: s.hostReads } ∧
      (b = 0x000 → i < s.cfg.mss → v = s.payByte i) ∧
      (b = 0x001 → i < s.cfg.frameSize → v = s.frmByte i) ∧
      (b = 0x002 → s.ackf[i]? = some v ∨ (18 ≤ i ∧ v = 0)) ∧
      (b = 0x003 → s.out[i]? = some v ∨ (s.out.length ≤ i ∧ v = 0)) ∧
      (∀ k, b.toNat = 0x10 + k → k < s.cfg.pendSlots → i < s.cfg.mss → v = s.slotByte k i) ∧
      ((b = 0x000 ∧ s.cfg.mss ≤ i) ∨ (b = 0x001 ∧ s.cfg.frameSize ≤ i) ∨ (0x004 ≤ b.toNat ∧ b.toNat < 0x010) ∨
        (0x010 ≤ b.toNat ∧ s.cfg.mss ≤ i) ∨ 0x010 + s.cfg.pendSlots ≤ b.toNat → v = 0)

/-! ### Whole-machine rules -/

/-- 20_memory.md section 4 (R86) and 10_state.md R20: the commands that move no data leave every byte of every buffer; `RSM.INIT`
leaves every buffer but `OUT`; `SYS.RESET` leaves `PAY`, `FRM` and every `SLOT[i].DATA`. -/
def Obligations.CommandsThatMoveNoDataLeaveEveryBuffer : Prop :=
  (∀ (i : Instr) (s : State),
    (i = .sysNop ∨ i = .csumGen ∨ i = .csumChk ∨ (∃ d, i = .tmrStart d) ∨ i = .tmrRestart ∨ i = .tmrStop ∨ i = .tmrPoll) →
    ∃ t : State, exec i s = .next t ∧ sameBytes s t) ∧
  (∀ (x : Word) (s : State), ∃ t : State, exec (.rsmInit x) s = .next t ∧
    ∀ b i, b ≠ 0x03 → hostReadByte t b i = hostReadByte s b i) ∧
  (∀ s : State, ∃ t : State, exec .sysReset s = .next t ∧
    ∀ b i, b ≠ 0x02 → b ≠ 0x03 → hostReadByte t b i = hostReadByte s b i)

/-- 10_state.md sections 6 and 8 (R39, R48) and 00_scope.md R15: no command writes `NOW`, the configuration, the script or what the
host has read; only `SYS.RESET` writes the acknowledgement template; only `RSM.RX` and `SYS.RESET` write `ACKF`. -/
def Obligations.NoCommandWritesTheTimeBaseOrTheTemplate : Prop :=
  ∀ (i : Instr) (s : State), ∃ t : State, exec i s = .next t ∧
    t.now = s.now ∧ t.cfg = s.cfg ∧ t.script = s.script ∧ t.hostReads = s.hostReads ∧ t.ramDraw = s.ramDraw ∧
    (i ≠ .sysReset → t.acktSrcPort = s.acktSrcPort ∧ t.acktDstPort = s.acktDstPort ∧ t.acktSeqNum = s.acktSeqNum ∧
      t.acktHdrLen = s.acktHdrLen ∧ t.acktRecvWindow = s.acktRecvWindow) ∧
    (i ≠ .sysReset → i ≠ .rsmRx → t.ackf = s.ackf)

/-- 10_state.md sections 6, 7 and 11: the machine right after reset keeps the invariant. -/
def Obligations.ResetKeepsTheInvariant : Prop := State.reset.Inv

/-- The invariants of the spec (R33, R37, R41, R43, R46, R48) together: every step keeps them, from every state that meets them. -/
def Obligations.EveryStepKeepsTheInvariant : Prop :=
  ∀ s t : State, s.Inv → step s = .next t → t.Inv

/-- 93_implementation_defined.md, end of part 1 (the refusals are the model's form, assumptions 8 and 9): nothing is stuck. From a state that meets the invariant, with an event to come,
a step answers a next state exactly when the event keeps the host's and the platform's duties (R21, R39). -/
def Obligations.NothingIsStuckWhenDutiesAreKept : Prop :=
  ∀ (s : State) (e : Event) (rest : List Event), s.Inv → s.script = e :: rest →
    ((∃ t, step s = .next t) ↔ e.dutiful s = true)

/-- R85, R290 (the refusals are the model's form, assumptions 3, 5, 7 and 9): a host access other than a read of `STATUS` while
`BUSY = 1` is refused; a configuration outside the bounds of R6 is refused (U12, U13); at the script's end the run is at its end
(R291); a written value wider than the register's width in R22 is refused (R21). -/
def Obligations.OutsideTheContractTheModelRefuses : Prop :=
  (∀ (s : State) (e : Event) (rest : List Event), s.cfg.ok = true → s.busy = true → s.script = e :: rest →
    ((∃ r v, e = .writeReg r v) ∨ (∃ r, e = .readReg r ∧ r ≠ 0x00B) ∨ (∃ b i v, e = .writeByte b i v) ∨ (∃ b i, e = .readByte b i)) →
    step s = .refused .hostAccessWhileBusy) ∧
  (∀ (s : State) (rest : List Event), s.cfg.ok = true → s.busy = true → s.script = .readReg 0x00B :: rest →
    step s = .next { s with script := rest, hostReads := s.statusWord.toNat :: s.hostReads }) ∧
  (∀ s : State, s.cfg.ok = false → step s = .refused .configOutOfBounds) ∧
  (∀ s : State, s.cfg.ok = true → s.script = [] → step s = .refused .endOfScript) ∧
  (∀ (s : State) (r : BitVec 12) (w v : Nat) (rest : List Event), s.cfg.ok = true → s.busy = false →
    s.script = .writeReg r v :: rest →
    (r.toNat, w) ∈ [(0x00, 16), (0x01, 16), (0x02, 32), (0x03, 32), (0x04, 8), (0x05, 8), (0x06, 16), (0x07, 16), (0x08, 16),
      (0x09, 16), (0x0A, 16), (0x0B, 32), (0x0C, 32), (0x0D, 40), (0x10, 64), (0x11, 64), (0x12, 32), (0x18, 32), (0x19, 64),
      (0x1A, 8), (0x20, 16), (0x21, 16), (0x22, 32), (0x23, 8), (0x24, 16)] →
    2 ^ w ≤ v → step s = .refused .valueWiderThanRegister)

/-- 43_reassembly.md section 4, from R212: every step keeps `EXPECTED = add32(x, OUTLEN mod 2^32)`, `x` being the offset the stream
was opened at: the operand of the last `RSM.INIT`, and 0 after either reset. -/
def Obligations.EveryStepKeepsTheStreamPosition : Prop :=
  ∀ (s t : State) (e : Event) (rest : List Event) (x : Word), s.script = e :: rest → step s = .next t →
    s.expected = add32 x (s.outlen.toNat % 2 ^ 32) →
    t.expected = add32 (e.streamStart x) (t.outlen.toNat % 2 ^ 32)
end

