-- ==== Sys2Proof/Laws/Operands.lean ====
section
/-! SUPPORT. The byte helpers, the offset arithmetic, and the header's bytes. -/

namespace Sys2Proof.Machine

theorem u16_toNat (b0 b1 : Byte) : (u16 b0 b1).toNat = b0.toNat * 256 + b1.toNat := by
  simp only [u16, BitVec.toNat_append]
  have := b1.isLt
  rw [← Nat.shiftLeft_add_eq_or_of_lt this, Nat.shiftLeft_eq]

theorem u32_toNat (b0 b1 b2 b3 : Byte) :
    (u32 b0 b1 b2 b3).toNat = b0.toNat * 2 ^ 24 + b1.toNat * 2 ^ 16 + b2.toNat * 2 ^ 8 + b3.toNat := by
  simp only [u32, BitVec.toNat_append]
  have := (u16 b2 b3).isLt
  rw [← Nat.shiftLeft_add_eq_or_of_lt this, Nat.shiftLeft_eq, u16_toNat, u16_toNat]
  omega

theorem be16_u16 (b0 b1 : Byte) : be16 (u16 b0 b1) = [b0, b1] := by
  have h0 := b0.isLt
  have h1 := b1.isLt
  have := u16_toNat b0 b1
  simp only [be16, List.cons.injEq, and_true]
  constructor <;> apply BitVec.eq_of_toNat_eq <;> simp [BitVec.extractLsb'_toNat, Nat.shiftRight_eq_div_pow, this] <;> omega

theorem be32_u32 (b0 b1 b2 b3 : Byte) : be32 (u32 b0 b1 b2 b3) = [b0, b1, b2, b3] := by
  have h0 := b0.isLt
  have h1 := b1.isLt
  have h2 := b2.isLt
  have h3 := b3.isLt
  have := u32_toNat b0 b1 b2 b3
  simp only [be32, List.cons.injEq, and_true]
  refine ⟨?_, ?_, ?_, ?_⟩ <;> apply BitVec.eq_of_toNat_eq <;>
    simp [BitVec.extractLsb'_toNat, Nat.shiftRight_eq_div_pow, this] <;> omega

/-- `u16` inverts `be16` (R10). -/
theorem u16_be16 (v : Half) : u16 (v.extractLsb' 8 8) (v.extractLsb' 0 8) = v := by
  apply BitVec.eq_of_toNat_eq
  have := v.isLt
  rw [u16_toNat]
  simp [BitVec.extractLsb'_toNat, Nat.shiftRight_eq_div_pow]
  omega

/-- `u32` inverts `be32` (R10). -/
theorem u32_be32 (v : Word) : u32 (v.extractLsb' 24 8) (v.extractLsb' 16 8) (v.extractLsb' 8 8) (v.extractLsb' 0 8) = v := by
  apply BitVec.eq_of_toNat_eq
  have := v.isLt
  rw [u32_toNat]
  simp [BitVec.extractLsb'_toNat, Nat.shiftRight_eq_div_pow]
  omega

/-- A header has 18 bytes (R110). -/
@[simp] theorem Header.bytes_length (h : Header) : h.bytes.length = hdrBytes := rfl

/-- Reading back the 18 bytes of a header gives the header (R10, R160). -/
theorem Header.ofBytes_bytes (h : Header) (f : Nat → Byte) (hf : ∀ k, k < hdrBytes → f k = h.bytes.getD k 0) :
    Header.ofBytes f = h := by
  have e : ∀ k, k < 18 → f k = h.bytes.getD k 0 := hf
  simp only [Header.ofBytes, e 0 (by omega), e 1 (by omega), e 2 (by omega), e 3 (by omega), e 4 (by omega), e 5 (by omega),
    e 6 (by omega), e 7 (by omega), e 8 (by omega), e 9 (by omega), e 10 (by omega), e 11 (by omega), e 12 (by omega),
    e 13 (by omega), e 14 (by omega), e 15 (by omega), e 16 (by omega), e 17 (by omega)]
  simp [Header.bytes, be16, be32, u16_be16, u32_be32]

/-- The bytes of the header that stands in 18 bytes are those bytes (R10, R161). -/
theorem Header.bytes_ofBytes (f : Nat → Byte) (k : Nat) (hk : k < hdrBytes) : (Header.ofBytes f).bytes.getD k 0 = f k := by
  have hb : (Header.ofBytes f).bytes = [f 0, f 1, f 2, f 3, f 4, f 5, f 6, f 7, f 8, f 9, f 10, f 11, f 12, f 13, f 14, f 15, f 16, f 17] := by
    simp only [Header.bytes, Header.ofBytes, be16_u16, be32_u32, List.cons_append, List.nil_append]
  rw [hb]
  have : k < 18 := hk
  interval_cases k <;> rfl

theorem add32_toNat (a : Word) (n : Nat) : (add32 a n).toNat = (a.toNat + n) % 2 ^ 32 := by
  simp [add32, BitVec.toNat_add]

@[simp] theorem add32_zero (a : Word) : add32 a 0 = a := by simp [add32]

theorem add32_add32 (a : Word) (m n : Nat) : add32 (add32 a m) n = add32 a (m + n) := by
  apply BitVec.eq_of_toNat_eq
  simp only [add32_toNat]
  omega

theorem sub_toNat32 (a b : Word) : (a - b).toNat = (a.toNat + (2 ^ 32 - b.toNat)) % 2 ^ 32 := by
  rw [BitVec.toNat_sub]
  congr 1
  omega

theorem lt32_iff (a b : Word) : lt32 a b = true ↔ 2 ^ 31 ≤ (a.toNat + (2 ^ 32 - b.toNat)) % 2 ^ 32 := by
  rw [lt32, decide_eq_true_eq, sub_toNat32]

theorem eq32_iff (a b : Word) : eq32 a b = true ↔ a = b := by simp [eq32]

/-- `gt32` is neither before nor equal (R13). -/
theorem gt32_iff (a b : Word) : gt32 a b = true ↔ lt32 a b = false ∧ a ≠ b := by
  simp [gt32, eq32]

@[simp] theorem lt32_self (a : Word) : lt32 a a = false := by
  rw [Bool.eq_false_iff, Ne, lt32_iff]
  have := a.isLt
  omega

/-- Moving less than `2^31` forward never moves behind (R210). -/
theorem lt32_add32 (a : Word) {n : Nat} (h : n < 2 ^ 31) : lt32 (add32 a n) a = false := by
  rw [Bool.eq_false_iff, Ne, lt32_iff, add32_toNat]
  have := a.isLt
  omega

theorem zext64_toNat (d : Word) : (zext64 d).toNat = d.toNat := by
  have := d.isLt
  simp [zext64, BitVec.toNat_setWidth]
  omega

end Sys2Proof.Machine
end

