-- ==== Sys2Proof/Laws/Checksum.lean ====
section
/-! SUPPORT. Folding in closed form, the chunks of a payload, and the checksum as the complement of the folded sum. -/

namespace Sys2Proof.Machine

theorem foldRounds_closed (k n : Nat) (h : n ≤ k) : foldRounds k n = if n = 0 then 0 else (n - 1) % 65535 + 1 := by
  induction k generalizing n with
  | zero =>
    have : n = 0 := by omega
    subst this
    rfl
  | succ k ih =>
    rw [foldRounds]
    split
    · split <;> omega
    · rw [ih _ (by omega)]
      split <;> split <;> omega

/-- `fold16` in closed form. -/
theorem fold16_closed (n : Nat) : fold16 n = if n = 0 then 0 else (n - 1) % 65535 + 1 := foldRounds_closed n n (Nat.le_refl n)

/-- The loop of `fold16`, round by round (R11). -/
theorem fold16_round (n : Nat) : fold16 n = if n < 2 ^ 16 then n else fold16 (n % 2 ^ 16 + n / 2 ^ 16) := by
  simp only [fold16_closed]
  split <;> split <;> (try split) <;> omega

/-- A folded sum fits 16 bits (R11). -/
theorem fold16_lt (n : Nat) : fold16 n < 2 ^ 16 := by
  rw [fold16_closed]
  split <;> omega

theorem fold16_congr {m n : Nat} (hm : 0 < m) (hn : 0 < n) (h : m % 65535 = n % 65535) : fold16 m = fold16 n := by
  simp only [fold16_closed]
  split <;> split <;> omega

theorem fold16_mod (n : Nat) : fold16 n % 65535 = n % 65535 := by
  rw [fold16_closed]
  split <;> omega

theorem fold16_eq_zero (n : Nat) : fold16 n = 0 ↔ n = 0 := by
  rw [fold16_closed]
  split <;> omega

/-- The complement of a 16-bit number as subtraction (R7). -/
theorem complement16 {n : Nat} (h : n < 2 ^ 16) : ~~~ (BitVec.ofNat 16 n) = BitVec.ofNat 16 (0xFFFF - n) := by
  apply BitVec.eq_of_toNat_eq
  rw [BitVec.toNat_not]
  simp only [BitVec.toNat_ofNat]
  omega

theorem checksum_toNat (h : Header) (p : List Byte) : (checksum h p).toNat = 0xFFFF - fold16 (addends h p).sum := by
  have := fold16_lt (addends h p).sum
  rw [checksum, sum16, complement16 this, BitVec.toNat_ofNat]
  omega

/-- The checksum is decided by the natural-number sum, up to `0xFFFF` (R132). -/
theorem checksum_eq_iff (h g : Header) (p q : List Byte) :
    checksum h p = checksum g q ↔ fold16 (addends h p).sum = fold16 (addends g q).sum := by
  have h1 := fold16_lt (addends h p).sum
  have h2 := fold16_lt (addends g q).sum
  rw [← BitVec.toNat_inj, checksum_toNat, checksum_toNat]
  omega

/-- The checksum field of the segment is no addend (R137). -/
@[simp] theorem checksum_ignores_stored (h : Header) (p : List Byte) (c : Half) :
    checksum { h with checksum := c } p = checksum h p := rfl

theorem addends_sum (h : Header) (p : List Byte) :
    (addends h p).sum = h.srcPort.toNat + h.dstPort.toNat + h.seqNum.toNat + h.ackNum.toNat + h.hdrLen.toNat +
      h.flags.toNat + h.recvWindow.toNat + (chunks p).sum := by
  simp [addends, headerAddends]
  omega

/-- Chunks of a payload that goes on after an even number of bytes (R131). -/
theorem chunks_append (p q : List Byte) (hp : p.length % 2 = 0) : chunks (p ++ q) = chunks p ++ chunks q := by
  induction p using chunks.induct with
  | case1 => rfl
  | case2 b => simp at hp
  | case3 b0 b1 p ih =>
    simp only [List.length_cons] at hp
    simp only [List.cons_append, chunks, ih (by omega)]

theorem chunkValue_cons (b0 b1 : Byte) (p : List Byte) (k : Nat) :
    chunkValue (fun j => (b0 :: b1 :: p).getD j 0) (p.length + 2) (k + 1) = chunkValue (fun j => p.getD j 0) p.length k := by
  simp only [chunkValue]
  rw [show 2 * (k + 1) = 2 * k + 1 + 1 by omega, show 2 * k + 1 + 1 + 1 = (2 * k + 1) + 1 + 1 by omega]
  simp only [List.getD_cons_succ]
  congr 1
  split <;> split <;> first | rfl | omega

/-- The chunks of a payload, by index (R131). -/
theorem chunks_sum (p : List Byte) :
    (chunks p).sum = ((List.range ((p.length + 1) / 2)).map (chunkValue (fun j => p.getD j 0) p.length)).sum := by
  induction p using chunks.induct with
  | case1 => rfl
  | case2 b => simp [chunks, chunkValue, u16_toNat]; omega
  | case3 b0 b1 p ih =>
    have e : ((b0 :: b1 :: p).length + 1) / 2 = (p.length + 1) / 2 + 1 := by
      simp only [List.length_cons]
      omega
    rw [e, List.range_succ_eq_map, List.map_cons, List.map_map, List.sum_cons, chunks, List.sum_cons, ih]
    congr 1
    · simp [chunkValue, u16_toNat]
      omega
    · congr 1
      apply List.map_congr_left
      intro k _
      exact (chunkValue_cons b0 b1 p k).symm

/-- The sum of the addends as R130 and R131 write it. -/
theorem addends_sum_eq_fieldSum (h : Header) (p : Nat → Byte) (n : Nat) :
    (addends h ((List.range n).map p)).sum = fieldSum h p n := by
  rw [addends_sum, fieldSum, chunks_sum]
  congr 2
  simp only [List.length_map, List.length_range]
  apply List.map_congr_left
  intro k hk
  have hk := List.mem_range.1 hk
  have e : ∀ j, j < n → ((List.range n).map p).getD j 0 = p j := by
    intro j hj
    simp [List.getD_eq_getElem?_getD, hj]
  simp only [chunkValue]
  rw [e (2 * k) (by omega)]
  congr 1
  split
  · rename_i h'
    rw [e _ h']
  · rfl

/-- The checksum function is the complement of the folded sum (R132). -/
theorem checksum_eq_complementSum (h : Header) (p : Nat → Byte) (n : Nat) :
    checksum h ((List.range n).map p) = complementSum h p n := by
  rw [checksum, sum16, complement16 (fold16_lt _), addends_sum_eq_fieldSum, complementSum]

/-- The checksum of the segment in `SEG` and `PAY` (R133). -/
theorem segChecksum_eq (s : State) : s.segChecksum = complementSum s.seg s.payByte s.segPlen.toNat :=
  checksum_eq_complementSum _ _ _

theorem fieldSum_congr (h : Header) {p q : Nat → Byte} {n : Nat} (e : ∀ k, k < n → p k = q k) : fieldSum h p n = fieldSum h q n := by
  simp only [fieldSum]
  congr 2
  apply List.map_congr_left
  intro k hk
  have hk := List.mem_range.1 hk
  simp only [chunkValue]
  rw [e (2 * k) (by omega)]
  congr 1
  split
  · rename_i h'
    rw [e _ h']
  · rfl

/-- The folded sum depends on the bytes below the payload's length only. -/
theorem complementSum_congr (h : Header) {p q : Nat → Byte} {n : Nat} (e : ∀ k, k < n → p k = q k) :
    complementSum h p n = complementSum h q n := by
  rw [complementSum, complementSum, fieldSum_congr h e]

end Sys2Proof.Machine
end

