-- ==== Sys2Proof/Laws/Config.lean ====
section
/-! SUPPORT. What the bounds of a configuration say of its sizes (R6). -/

namespace Sys2Proof

/-- The bounds of R6, and `MSS + 18 = FRAME_SIZE`. -/
theorem Config.ok_bounds {c : Config} (h : c.ok = true) :
    18 ≤ c.frameSize ∧ c.frameSize ≤ 65535 ∧ c.mss + 18 = c.frameSize ∧ 1 ≤ c.pendSlots ∧ c.pendSlots ≤ 255 := by
  simp only [Config.ok, Bool.and_eq_true, decide_eq_true_eq] at h
  have : c.mss = c.frameSize - 18 := rfl
  omega

end Sys2Proof
end

