-- ==== Sys2Proof/Laws/Decode.lean ====
section
/-! SUPPORT. A command word and its two fields (R100). -/

namespace Sys2Proof

theorem cmdWord_toNat (op : Byte) (imm : Word) : (cmdWord op imm).toNat = op.toNat * 2 ^ 32 + imm.toNat := by
  simp only [cmdWord, BitVec.toNat_append]
  rw [← Nat.shiftLeft_add_eq_or_of_lt imm.isLt, Nat.shiftLeft_eq]

theorem opcodeField_toNat (w : CmdWord) : (opcodeField w).toNat = w.toNat / 2 ^ 32 := by
  have := w.isLt
  rw [opcodeField, BitVec.extractLsb'_toNat, Nat.shiftRight_eq_div_pow]
  omega

theorem immField_toNat (w : CmdWord) : (immField w).toNat = w.toNat % 2 ^ 32 := by
  rw [immField, BitVec.extractLsb'_toNat, Nat.shiftRight_eq_div_pow, Nat.pow_zero, Nat.div_one]

/-- The opcode of a word built from its fields. -/
@[simp] theorem opcodeField_cmdWord (op : Byte) (imm : Word) : opcodeField (cmdWord op imm) = op := by
  apply BitVec.eq_of_toNat_eq
  have := op.isLt
  have := imm.isLt
  rw [opcodeField_toNat, cmdWord_toNat]
  omega

/-- The operand of a word built from its fields. -/
@[simp] theorem immField_cmdWord (op : Byte) (imm : Word) : immField (cmdWord op imm) = imm := by
  apply BitVec.eq_of_toNat_eq
  have := op.isLt
  have := imm.isLt
  rw [immField_toNat, cmdWord_toNat]
  omega

/-- A word is its two fields: no bit of it lies outside them. -/
theorem cmdWord_fields (w : CmdWord) : cmdWord (opcodeField w) (immField w) = w := by
  apply BitVec.eq_of_toNat_eq
  have := w.isLt
  rw [cmdWord_toNat, opcodeField_toNat, immField_toNat]
  omega

end Sys2Proof
end

