-- ==== Sys2Proof/Laws/Memory.lean ====
section
/-! SUPPORT. Buffers: reading after writing, the canonical form, and what a range write leaves. -/

namespace Sys2Proof.Machine

/-- A write changes what is read at its own index only. -/
theorem Memory.read?_write (m : Memory) (i j : Nat) (v : Byte) :
    (m.write i v).read? j = if i = j then some v else m.read? j := by
  induction m with
  | nil => simp [Memory.write, Memory.read?]
  | cons c m ih =>
    simp only [Memory.write]
    split
    · simp only [Memory.read?]
    · split
      · rename_i _ h
        subst h
        simp only [Memory.read?]
        split <;> rfl
      · rename_i _ h
        simp only [Memory.read?, ih]
        split
        · rename_i h'
          rw [if_neg (by omega)]
        · rfl

/-- A range write changes what is read in its own range only. -/
theorem Memory.read?_writeBytes (bs : List Byte) (m : Memory) (a j : Nat) :
    (m.writeBytes a bs).read? j = if a ≤ j ∧ j < a + bs.length then bs[j - a]? else m.read? j := by
  induction bs generalizing m a with
  | nil => simp [Memory.writeBytes]
  | cons v bs ih =>
    rw [Memory.writeBytes, ih, Memory.read?_write]
    by_cases h1 : a = j
    · subst h1
      simp
    · by_cases h2 : a + 1 ≤ j ∧ j < a + 1 + bs.length
      · rw [if_pos h2, if_pos (by simp only [List.length_cons]; omega)]
        rw [show j - a = (j - (a + 1)) + 1 by omega, List.getElem?_cons_succ]
      · rw [if_neg h2, if_neg h1, if_neg (by simp only [List.length_cons]; omega)]

/-- The head of a write is the written cell or the old head. -/
theorem Memory.mem_write {m : Memory} {i : Nat} {v : Byte} {c : Host.Cell} (h : c ∈ m.write i v) : c = (i, v) ∨ c ∈ m := by
  induction m with
  | nil => simpa [Memory.write] using h
  | cons d m ih =>
    simp only [Memory.write] at h
    split at h
    · simpa using h
    · split at h
      · simp only [List.mem_cons] at h ⊢
        rcases h with h | h
        · exact .inl h
        · exact .inr (.inr h)
      · simp only [List.mem_cons] at h ⊢
        rcases h with h | h
        · exact .inr (.inl h)
        · rcases ih h with h | h
          · exact .inl h
          · exact .inr (.inr h)

/-- A write keeps the canonical form. -/
theorem Memory.write_wf {m : Memory} (i : Nat) (v : Byte) (h : m.wf = true) : (m.write i v).wf = true := by
  simp only [Memory.wf, decide_eq_true_eq] at h ⊢
  induction m with
  | nil => simp [Memory.write]
  | cons c m ih =>
    rw [List.pairwise_cons] at h
    simp only [Memory.write]
    split
    · rename_i hlt
      refine List.pairwise_cons.2 ⟨?_, List.pairwise_cons.2 h⟩
      intro d hd
      rcases List.mem_cons.1 hd with rfl | hd
      · exact hlt
      · exact Nat.lt_trans hlt (h.1 d hd)
    · split
      · rename_i _ heq
        exact List.pairwise_cons.2 ⟨fun d hd => heq ▸ h.1 d hd, h.2⟩
      · rename_i h1 h2
        refine List.pairwise_cons.2 ⟨?_, ih h.2⟩
        intro d hd
        rcases Memory.mem_write hd with rfl | hd
        · show c.1 < i
          omega
        · exact h.1 d hd

/-- A write within a buffer keeps every listed index within it. -/
theorem Memory.write_within {m : Memory} {n i : Nat} (v : Byte) (h : m.within n = true) (hi : i < n) :
    (m.write i v).within n = true := by
  simp only [Memory.within, List.all_eq_true, decide_eq_true_eq] at h ⊢
  intro c hc
  rcases Memory.mem_write hc with rfl | hc
  · exact hi
  · exact h c hc

/-- A range write keeps the canonical form. -/
theorem Memory.writeBytes_wf (bs : List Byte) {m : Memory} (a : Nat) (h : m.wf = true) : (m.writeBytes a bs).wf = true := by
  induction bs generalizing m a with
  | nil => exact h
  | cons v bs ih => exact ih _ (Memory.write_wf a v h)

/-- A range write within a buffer keeps every listed index within it. -/
theorem Memory.writeBytes_within (bs : List Byte) {m : Memory} {n : Nat} (a : Nat) (h : m.within n = true)
    (ha : a + bs.length ≤ n) : (m.writeBytes a bs).within n = true := by
  induction bs generalizing m a with
  | nil => exact h
  | cons v bs ih =>
    simp only [List.length_cons] at ha
    exact ih _ (Memory.write_within v h (by omega)) (by omega)

/-- A byte of a buffer after a one-byte write. -/
theorem ramByte_write (draw buf i j : Nat) (m : Memory) (v : Byte) :
    ramByte draw buf (m.write i v) j = if i = j then v else ramByte draw buf m j := by
  simp only [ramByte, Memory.read?_write]
  by_cases h : i = j
  · simp only [if_pos h]
  · simp only [if_neg h]

/-- A byte of a buffer after a range write. -/
theorem ramByte_writeBytes (draw buf a j : Nat) (m : Memory) (bs : List Byte) :
    ramByte draw buf (m.writeBytes a bs) j = if a ≤ j ∧ j < a + bs.length then bs.getD (j - a) 0 else ramByte draw buf m j := by
  simp only [ramByte, Memory.read?_writeBytes]
  by_cases h : a ≤ j ∧ j < a + bs.length
  · have hl : j - a < bs.length := by omega
    simp only [if_pos h, List.getElem?_eq_getElem hl, List.getD_eq_getElem _ _ hl]
  · simp only [if_neg h]

/-- An empty buffer holds only free bytes. -/
@[simp] theorem ramByte_nil (draw buf i : Nat) : ramByte draw buf [] i = Config.ramAtReset draw buf i := rfl

end Sys2Proof.Machine
end

