-- ==== Sys2Proof/Laws/State.lean ====
section
/-! SUPPORT. One lemma per field for every named update of State, so that no proof unfolds an update. -/

namespace Sys2Proof.Machine

/-! ### `withScript` (R89) -/

@[simp] theorem withScript_cfg (rest : List Event) (s : State) : (withScript rest s).cfg = s.cfg := rfl
@[simp] theorem withScript_now (rest : List Event) (s : State) : (withScript rest s).now = s.now := rfl
@[simp] theorem withScript_script (rest : List Event) (s : State) : (withScript rest s).script = rest := rfl
@[simp] theorem withScript_hostReads (rest : List Event) (s : State) : (withScript rest s).hostReads = s.hostReads := rfl
@[simp] theorem withScript_ramDraw (rest : List Event) (s : State) : (withScript rest s).ramDraw = s.ramDraw := rfl
@[simp] theorem withScript_seg (rest : List Event) (s : State) : (withScript rest s).seg = s.seg := rfl
@[simp] theorem withScript_segPlen (rest : List Event) (s : State) : (withScript rest s).segPlen = s.segPlen := rfl
@[simp] theorem withScript_pay (rest : List Event) (s : State) : (withScript rest s).pay = s.pay := rfl
@[simp] theorem withScript_frm (rest : List Event) (s : State) : (withScript rest s).frm = s.frm := rfl
@[simp] theorem withScript_flen (rest : List Event) (s : State) : (withScript rest s).flen = s.flen := rfl
@[simp] theorem withScript_csumCalc (rest : List Event) (s : State) : (withScript rest s).csumCalc = s.csumCalc := rfl
@[simp] theorem withScript_ckok (rest : List Event) (s : State) : (withScript rest s).ckok = s.ckok := rfl
@[simp] theorem withScript_cc (rest : List Event) (s : State) : (withScript rest s).cc = s.cc := rfl
@[simp] theorem withScript_rxres (rest : List Event) (s : State) : (withScript rest s).rxres = s.rxres := rfl
@[simp] theorem withScript_tpoll (rest : List Event) (s : State) : (withScript rest s).tpoll = s.tpoll := rfl
@[simp] theorem withScript_busy (rest : List Event) (s : State) : (withScript rest s).busy = s.busy := rfl
@[simp] theorem withScript_esr (rest : List Event) (s : State) : (withScript rest s).esr = s.esr := rfl
@[simp] theorem withScript_tstate (rest : List Event) (s : State) : (withScript rest s).tstate = s.tstate := rfl
@[simp] theorem withScript_deadline (rest : List Event) (s : State) : (withScript rest s).deadline = s.deadline := rfl
@[simp] theorem withScript_tdur (rest : List Event) (s : State) : (withScript rest s).tdur = s.tdur := rfl
@[simp] theorem withScript_tdurv (rest : List Event) (s : State) : (withScript rest s).tdurv = s.tdurv := rfl
@[simp] theorem withScript_rstate (rest : List Event) (s : State) : (withScript rest s).rstate = s.rstate := rfl
@[simp] theorem withScript_expected (rest : List Event) (s : State) : (withScript rest s).expected = s.expected := rfl
@[simp] theorem withScript_slots (rest : List Event) (s : State) : (withScript rest s).slots = s.slots := rfl
@[simp] theorem withScript_out (rest : List Event) (s : State) : (withScript rest s).out = s.out := rfl
@[simp] theorem withScript_outlen (rest : List Event) (s : State) : (withScript rest s).outlen = s.outlen := rfl
@[simp] theorem withScript_acktSrcPort (rest : List Event) (s : State) : (withScript rest s).acktSrcPort = s.acktSrcPort := rfl
@[simp] theorem withScript_acktDstPort (rest : List Event) (s : State) : (withScript rest s).acktDstPort = s.acktDstPort := rfl
@[simp] theorem withScript_acktSeqNum (rest : List Event) (s : State) : (withScript rest s).acktSeqNum = s.acktSeqNum := rfl
@[simp] theorem withScript_acktHdrLen (rest : List Event) (s : State) : (withScript rest s).acktHdrLen = s.acktHdrLen := rfl
@[simp] theorem withScript_acktRecvWindow (rest : List Event) (s : State) : (withScript rest s).acktRecvWindow = s.acktRecvWindow := rfl
@[simp] theorem withScript_ackf (rest : List Event) (s : State) : (withScript rest s).ackf = s.ackf := rfl
@[simp] theorem withScript_payByte (rest : List Event) (s : State) (k : Nat) : (withScript rest s).payByte k = s.payByte k := rfl
@[simp] theorem withScript_frmByte (rest : List Event) (s : State) (k : Nat) : (withScript rest s).frmByte k = s.frmByte k := rfl
@[simp] theorem withScript_slot (rest : List Event) (s : State) (i : Nat) : (withScript rest s).slot i = s.slot i := rfl
@[simp] theorem withScript_slotByte (rest : List Event) (s : State) (i k : Nat) : (withScript rest s).slotByte i k = s.slotByte i k := rfl

/-! ### `completed` (R9) -/

@[simp] theorem completed_cfg (s : State) : (completed s).cfg = s.cfg := rfl
@[simp] theorem completed_now (s : State) : (completed s).now = s.now := rfl
@[simp] theorem completed_script (s : State) : (completed s).script = s.script := rfl
@[simp] theorem completed_hostReads (s : State) : (completed s).hostReads = s.hostReads := rfl
@[simp] theorem completed_ramDraw (s : State) : (completed s).ramDraw = s.ramDraw := rfl
@[simp] theorem completed_seg (s : State) : (completed s).seg = s.seg := rfl
@[simp] theorem completed_segPlen (s : State) : (completed s).segPlen = s.segPlen := rfl
@[simp] theorem completed_pay (s : State) : (completed s).pay = s.pay := rfl
@[simp] theorem completed_frm (s : State) : (completed s).frm = s.frm := rfl
@[simp] theorem completed_flen (s : State) : (completed s).flen = s.flen := rfl
@[simp] theorem completed_csumCalc (s : State) : (completed s).csumCalc = s.csumCalc := rfl
@[simp] theorem completed_ckok (s : State) : (completed s).ckok = s.ckok := rfl
@[simp] theorem completed_cc (s : State) : (completed s).cc = .ok := rfl
@[simp] theorem completed_rxres (s : State) : (completed s).rxres = s.rxres := rfl
@[simp] theorem completed_tpoll (s : State) : (completed s).tpoll = s.tpoll := rfl
@[simp] theorem completed_busy (s : State) : (completed s).busy = s.busy := rfl
@[simp] theorem completed_esr (s : State) : (completed s).esr = s.esr := rfl
@[simp] theorem completed_tstate (s : State) : (completed s).tstate = s.tstate := rfl
@[simp] theorem completed_deadline (s : State) : (completed s).deadline = s.deadline := rfl
@[simp] theorem completed_tdur (s : State) : (completed s).tdur = s.tdur := rfl
@[simp] theorem completed_tdurv (s : State) : (completed s).tdurv = s.tdurv := rfl
@[simp] theorem completed_rstate (s : State) : (completed s).rstate = s.rstate := rfl
@[simp] theorem completed_expected (s : State) : (completed s).expected = s.expected := rfl
@[simp] theorem completed_slots (s : State) : (completed s).slots = s.slots := rfl
@[simp] theorem completed_out (s : State) : (completed s).out = s.out := rfl
@[simp] theorem completed_outlen (s : State) : (completed s).outlen = s.outlen := rfl
@[simp] theorem completed_acktSrcPort (s : State) : (completed s).acktSrcPort = s.acktSrcPort := rfl
@[simp] theorem completed_acktDstPort (s : State) : (completed s).acktDstPort = s.acktDstPort := rfl
@[simp] theorem completed_acktSeqNum (s : State) : (completed s).acktSeqNum = s.acktSeqNum := rfl
@[simp] theorem completed_acktHdrLen (s : State) : (completed s).acktHdrLen = s.acktHdrLen := rfl
@[simp] theorem completed_acktRecvWindow (s : State) : (completed s).acktRecvWindow = s.acktRecvWindow := rfl
@[simp] theorem completed_ackf (s : State) : (completed s).ackf = s.ackf := rfl
@[simp] theorem completed_payByte (s : State) (k : Nat) : (completed s).payByte k = s.payByte k := rfl
@[simp] theorem completed_frmByte (s : State) (k : Nat) : (completed s).frmByte k = s.frmByte k := rfl
@[simp] theorem completed_slot (s : State) (i : Nat) : (completed s).slot i = s.slot i := rfl
@[simp] theorem completed_slotByte (s : State) (i k : Nat) : (completed s).slotByte i k = s.slotByte i k := rfl

/-! ### `raised` (R230) -/

@[simp] theorem raised_cfg (c : CompletionCode) (s : State) : (raised c s).cfg = s.cfg := rfl
@[simp] theorem raised_now (c : CompletionCode) (s : State) : (raised c s).now = s.now := rfl
@[simp] theorem raised_script (c : CompletionCode) (s : State) : (raised c s).script = s.script := rfl
@[simp] theorem raised_hostReads (c : CompletionCode) (s : State) : (raised c s).hostReads = s.hostReads := rfl
@[simp] theorem raised_ramDraw (c : CompletionCode) (s : State) : (raised c s).ramDraw = s.ramDraw := rfl
@[simp] theorem raised_seg (c : CompletionCode) (s : State) : (raised c s).seg = s.seg := rfl
@[simp] theorem raised_segPlen (c : CompletionCode) (s : State) : (raised c s).segPlen = s.segPlen := rfl
@[simp] theorem raised_pay (c : CompletionCode) (s : State) : (raised c s).pay = s.pay := rfl
@[simp] theorem raised_frm (c : CompletionCode) (s : State) : (raised c s).frm = s.frm := rfl
@[simp] theorem raised_flen (c : CompletionCode) (s : State) : (raised c s).flen = s.flen := rfl
@[simp] theorem raised_csumCalc (c : CompletionCode) (s : State) : (raised c s).csumCalc = s.csumCalc := rfl
@[simp] theorem raised_ckok (c : CompletionCode) (s : State) : (raised c s).ckok = s.ckok := rfl
@[simp] theorem raised_cc (c : CompletionCode) (s : State) : (raised c s).cc = c := rfl
@[simp] theorem raised_rxres (c : CompletionCode) (s : State) : (raised c s).rxres = s.rxres := rfl
@[simp] theorem raised_tpoll (c : CompletionCode) (s : State) : (raised c s).tpoll = s.tpoll := rfl
@[simp] theorem raised_busy (c : CompletionCode) (s : State) : (raised c s).busy = s.busy := rfl
@[simp] theorem raised_esr (c : CompletionCode) (s : State) : (raised c s).esr = s.esr ||| c.esrMask := rfl
@[simp] theorem raised_tstate (c : CompletionCode) (s : State) : (raised c s).tstate = s.tstate := rfl
@[simp] theorem raised_deadline (c : CompletionCode) (s : State) : (raised c s).deadline = s.deadline := rfl
@[simp] theorem raised_tdur (c : CompletionCode) (s : State) : (raised c s).tdur = s.tdur := rfl
@[simp] theorem raised_tdurv (c : CompletionCode) (s : State) : (raised c s).tdurv = s.tdurv := rfl
@[simp] theorem raised_rstate (c : CompletionCode) (s : State) : (raised c s).rstate = s.rstate := rfl
@[simp] theorem raised_expected (c : CompletionCode) (s : State) : (raised c s).expected = s.expected := rfl
@[simp] theorem raised_slots (c : CompletionCode) (s : State) : (raised c s).slots = s.slots := rfl
@[simp] theorem raised_out (c : CompletionCode) (s : State) : (raised c s).out = s.out := rfl
@[simp] theorem raised_outlen (c : CompletionCode) (s : State) : (raised c s).outlen = s.outlen := rfl
@[simp] theorem raised_acktSrcPort (c : CompletionCode) (s : State) : (raised c s).acktSrcPort = s.acktSrcPort := rfl
@[simp] theorem raised_acktDstPort (c : CompletionCode) (s : State) : (raised c s).acktDstPort = s.acktDstPort := rfl
@[simp] theorem raised_acktSeqNum (c : CompletionCode) (s : State) : (raised c s).acktSeqNum = s.acktSeqNum := rfl
@[simp] theorem raised_acktHdrLen (c : CompletionCode) (s : State) : (raised c s).acktHdrLen = s.acktHdrLen := rfl
@[simp] theorem raised_acktRecvWindow (c : CompletionCode) (s : State) : (raised c s).acktRecvWindow = s.acktRecvWindow := rfl
@[simp] theorem raised_ackf (c : CompletionCode) (s : State) : (raised c s).ackf = s.ackf := rfl
@[simp] theorem raised_payByte (c : CompletionCode) (s : State) (k : Nat) : (raised c s).payByte k = s.payByte k := rfl
@[simp] theorem raised_frmByte (c : CompletionCode) (s : State) (k : Nat) : (raised c s).frmByte k = s.frmByte k := rfl
@[simp] theorem raised_slot (c : CompletionCode) (s : State) (i : Nat) : (raised c s).slot i = s.slot i := rfl
@[simp] theorem raised_slotByte (c : CompletionCode) (s : State) (i k : Nat) : (raised c s).slotByte i k = s.slotByte i k := rfl

/-! ### `freeAll` (R193) -/

@[simp] theorem freeAll_cfg (s : State) : (freeAll s).cfg = s.cfg := rfl
@[simp] theorem freeAll_now (s : State) : (freeAll s).now = s.now := rfl
@[simp] theorem freeAll_script (s : State) : (freeAll s).script = s.script := rfl
@[simp] theorem freeAll_hostReads (s : State) : (freeAll s).hostReads = s.hostReads := rfl
@[simp] theorem freeAll_ramDraw (s : State) : (freeAll s).ramDraw = s.ramDraw := rfl
@[simp] theorem freeAll_seg (s : State) : (freeAll s).seg = s.seg := rfl
@[simp] theorem freeAll_segPlen (s : State) : (freeAll s).segPlen = s.segPlen := rfl
@[simp] theorem freeAll_pay (s : State) : (freeAll s).pay = s.pay := rfl
@[simp] theorem freeAll_frm (s : State) : (freeAll s).frm = s.frm := rfl
@[simp] theorem freeAll_flen (s : State) : (freeAll s).flen = s.flen := rfl
@[simp] theorem freeAll_csumCalc (s : State) : (freeAll s).csumCalc = s.csumCalc := rfl
@[simp] theorem freeAll_ckok (s : State) : (freeAll s).ckok = s.ckok := rfl
@[simp] theorem freeAll_cc (s : State) : (freeAll s).cc = s.cc := rfl
@[simp] theorem freeAll_rxres (s : State) : (freeAll s).rxres = s.rxres := rfl
@[simp] theorem freeAll_tpoll (s : State) : (freeAll s).tpoll = s.tpoll := rfl
@[simp] theorem freeAll_busy (s : State) : (freeAll s).busy = s.busy := rfl
@[simp] theorem freeAll_esr (s : State) : (freeAll s).esr = s.esr := rfl
@[simp] theorem freeAll_tstate (s : State) : (freeAll s).tstate = s.tstate := rfl
@[simp] theorem freeAll_deadline (s : State) : (freeAll s).deadline = s.deadline := rfl
@[simp] theorem freeAll_tdur (s : State) : (freeAll s).tdur = s.tdur := rfl
@[simp] theorem freeAll_tdurv (s : State) : (freeAll s).tdurv = s.tdurv := rfl
@[simp] theorem freeAll_rstate (s : State) : (freeAll s).rstate = s.rstate := rfl
@[simp] theorem freeAll_expected (s : State) : (freeAll s).expected = s.expected := rfl
@[simp] theorem freeAll_slots (s : State) : (freeAll s).slots = s.slots.map Slot.freed := rfl
@[simp] theorem freeAll_out (s : State) : (freeAll s).out = s.out := rfl
@[simp] theorem freeAll_outlen (s : State) : (freeAll s).outlen = s.outlen := rfl
@[simp] theorem freeAll_acktSrcPort (s : State) : (freeAll s).acktSrcPort = s.acktSrcPort := rfl
@[simp] theorem freeAll_acktDstPort (s : State) : (freeAll s).acktDstPort = s.acktDstPort := rfl
@[simp] theorem freeAll_acktSeqNum (s : State) : (freeAll s).acktSeqNum = s.acktSeqNum := rfl
@[simp] theorem freeAll_acktHdrLen (s : State) : (freeAll s).acktHdrLen = s.acktHdrLen := rfl
@[simp] theorem freeAll_acktRecvWindow (s : State) : (freeAll s).acktRecvWindow = s.acktRecvWindow := rfl
@[simp] theorem freeAll_ackf (s : State) : (freeAll s).ackf = s.ackf := rfl
@[simp] theorem freeAll_payByte (s : State) (k : Nat) : (freeAll s).payByte k = s.payByte k := rfl
@[simp] theorem freeAll_frmByte (s : State) (k : Nat) : (freeAll s).frmByte k = s.frmByte k := rfl

/-! ### `freeSlot` (R193) -/

@[simp] theorem freeSlot_cfg (i : Nat) (s : State) : (freeSlot i s).cfg = s.cfg := rfl
@[simp] theorem freeSlot_now (i : Nat) (s : State) : (freeSlot i s).now = s.now := rfl
@[simp] theorem freeSlot_script (i : Nat) (s : State) : (freeSlot i s).script = s.script := rfl
@[simp] theorem freeSlot_hostReads (i : Nat) (s : State) : (freeSlot i s).hostReads = s.hostReads := rfl
@[simp] theorem freeSlot_ramDraw (i : Nat) (s : State) : (freeSlot i s).ramDraw = s.ramDraw := rfl
@[simp] theorem freeSlot_seg (i : Nat) (s : State) : (freeSlot i s).seg = s.seg := rfl
@[simp] theorem freeSlot_segPlen (i : Nat) (s : State) : (freeSlot i s).segPlen = s.segPlen := rfl
@[simp] theorem freeSlot_pay (i : Nat) (s : State) : (freeSlot i s).pay = s.pay := rfl
@[simp] theorem freeSlot_frm (i : Nat) (s : State) : (freeSlot i s).frm = s.frm := rfl
@[simp] theorem freeSlot_flen (i : Nat) (s : State) : (freeSlot i s).flen = s.flen := rfl
@[simp] theorem freeSlot_csumCalc (i : Nat) (s : State) : (freeSlot i s).csumCalc = s.csumCalc := rfl
@[simp] theorem freeSlot_ckok (i : Nat) (s : State) : (freeSlot i s).ckok = s.ckok := rfl
@[simp] theorem freeSlot_cc (i : Nat) (s : State) : (freeSlot i s).cc = s.cc := rfl
@[simp] theorem freeSlot_rxres (i : Nat) (s : State) : (freeSlot i s).rxres = s.rxres := rfl
@[simp] theorem freeSlot_tpoll (i : Nat) (s : State) : (freeSlot i s).tpoll = s.tpoll := rfl
@[simp] theorem freeSlot_busy (i : Nat) (s : State) : (freeSlot i s).busy = s.busy := rfl
@[simp] theorem freeSlot_esr (i : Nat) (s : State) : (freeSlot i s).esr = s.esr := rfl
@[simp] theorem freeSlot_tstate (i : Nat) (s : State) : (freeSlot i s).tstate = s.tstate := rfl
@[simp] theorem freeSlot_deadline (i : Nat) (s : State) : (freeSlot i s).deadline = s.deadline := rfl
@[simp] theorem freeSlot_tdur (i : Nat) (s : State) : (freeSlot i s).tdur = s.tdur := rfl
@[simp] theorem freeSlot_tdurv (i : Nat) (s : State) : (freeSlot i s).tdurv = s.tdurv := rfl
@[simp] theorem freeSlot_rstate (i : Nat) (s : State) : (freeSlot i s).rstate = s.rstate := rfl
@[simp] theorem freeSlot_expected (i : Nat) (s : State) : (freeSlot i s).expected = s.expected := rfl
@[simp] theorem freeSlot_slots (i : Nat) (s : State) : (freeSlot i s).slots = s.slots.set i (s.slot i).freed := rfl
@[simp] theorem freeSlot_out (i : Nat) (s : State) : (freeSlot i s).out = s.out := rfl
@[simp] theorem freeSlot_outlen (i : Nat) (s : State) : (freeSlot i s).outlen = s.outlen := rfl
@[simp] theorem freeSlot_acktSrcPort (i : Nat) (s : State) : (freeSlot i s).acktSrcPort = s.acktSrcPort := rfl
@[simp] theorem freeSlot_acktDstPort (i : Nat) (s : State) : (freeSlot i s).acktDstPort = s.acktDstPort := rfl
@[simp] theorem freeSlot_acktSeqNum (i : Nat) (s : State) : (freeSlot i s).acktSeqNum = s.acktSeqNum := rfl
@[simp] theorem freeSlot_acktHdrLen (i : Nat) (s : State) : (freeSlot i s).acktHdrLen = s.acktHdrLen := rfl
@[simp] theorem freeSlot_acktRecvWindow (i : Nat) (s : State) : (freeSlot i s).acktRecvWindow = s.acktRecvWindow := rfl
@[simp] theorem freeSlot_ackf (i : Nat) (s : State) : (freeSlot i s).ackf = s.ackf := rfl
@[simp] theorem freeSlot_payByte (i : Nat) (s : State) (k : Nat) : (freeSlot i s).payByte k = s.payByte k := rfl
@[simp] theorem freeSlot_frmByte (i : Nat) (s : State) (k : Nat) : (freeSlot i s).frmByte k = s.frmByte k := rfl

/-! ### `collectStale` (R206) -/

@[simp] theorem collectStale_cfg (s : State) : (collectStale s).cfg = s.cfg := rfl
@[simp] theorem collectStale_now (s : State) : (collectStale s).now = s.now := rfl
@[simp] theorem collectStale_script (s : State) : (collectStale s).script = s.script := rfl
@[simp] theorem collectStale_hostReads (s : State) : (collectStale s).hostReads = s.hostReads := rfl
@[simp] theorem collectStale_ramDraw (s : State) : (collectStale s).ramDraw = s.ramDraw := rfl
@[simp] theorem collectStale_seg (s : State) : (collectStale s).seg = s.seg := rfl
@[simp] theorem collectStale_segPlen (s : State) : (collectStale s).segPlen = s.segPlen := rfl
@[simp] theorem collectStale_pay (s : State) : (collectStale s).pay = s.pay := rfl
@[simp] theorem collectStale_frm (s : State) : (collectStale s).frm = s.frm := rfl
@[simp] theorem collectStale_flen (s : State) : (collectStale s).flen = s.flen := rfl
@[simp] theorem collectStale_csumCalc (s : State) : (collectStale s).csumCalc = s.csumCalc := rfl
@[simp] theorem collectStale_ckok (s : State) : (collectStale s).ckok = s.ckok := rfl
@[simp] theorem collectStale_cc (s : State) : (collectStale s).cc = s.cc := rfl
@[simp] theorem collectStale_rxres (s : State) : (collectStale s).rxres = s.rxres := rfl
@[simp] theorem collectStale_tpoll (s : State) : (collectStale s).tpoll = s.tpoll := rfl
@[simp] theorem collectStale_busy (s : State) : (collectStale s).busy = s.busy := rfl
@[simp] theorem collectStale_esr (s : State) : (collectStale s).esr = s.esr := rfl
@[simp] theorem collectStale_tstate (s : State) : (collectStale s).tstate = s.tstate := rfl
@[simp] theorem collectStale_deadline (s : State) : (collectStale s).deadline = s.deadline := rfl
@[simp] theorem collectStale_tdur (s : State) : (collectStale s).tdur = s.tdur := rfl
@[simp] theorem collectStale_tdurv (s : State) : (collectStale s).tdurv = s.tdurv := rfl
@[simp] theorem collectStale_rstate (s : State) : (collectStale s).rstate = s.rstate := rfl
@[simp] theorem collectStale_expected (s : State) : (collectStale s).expected = s.expected := rfl
@[simp] theorem collectStale_slots (s : State) : (collectStale s).slots = s.slots.map (fun t => if t.v && lt32 t.off s.expected then t.freed else t) := rfl
@[simp] theorem collectStale_out (s : State) : (collectStale s).out = s.out := rfl
@[simp] theorem collectStale_outlen (s : State) : (collectStale s).outlen = s.outlen := rfl
@[simp] theorem collectStale_acktSrcPort (s : State) : (collectStale s).acktSrcPort = s.acktSrcPort := rfl
@[simp] theorem collectStale_acktDstPort (s : State) : (collectStale s).acktDstPort = s.acktDstPort := rfl
@[simp] theorem collectStale_acktSeqNum (s : State) : (collectStale s).acktSeqNum = s.acktSeqNum := rfl
@[simp] theorem collectStale_acktHdrLen (s : State) : (collectStale s).acktHdrLen = s.acktHdrLen := rfl
@[simp] theorem collectStale_acktRecvWindow (s : State) : (collectStale s).acktRecvWindow = s.acktRecvWindow := rfl
@[simp] theorem collectStale_ackf (s : State) : (collectStale s).ackf = s.ackf := rfl
@[simp] theorem collectStale_payByte (s : State) (k : Nat) : (collectStale s).payByte k = s.payByte k := rfl
@[simp] theorem collectStale_frmByte (s : State) (k : Nat) : (collectStale s).frmByte k = s.frmByte k := rfl

/-! ### `appendOut` (R202) -/

@[simp] theorem appendOut_cfg (bs : List Byte) (s : State) : (appendOut bs s).cfg = s.cfg := rfl
@[simp] theorem appendOut_now (bs : List Byte) (s : State) : (appendOut bs s).now = s.now := rfl
@[simp] theorem appendOut_script (bs : List Byte) (s : State) : (appendOut bs s).script = s.script := rfl
@[simp] theorem appendOut_hostReads (bs : List Byte) (s : State) : (appendOut bs s).hostReads = s.hostReads := rfl
@[simp] theorem appendOut_ramDraw (bs : List Byte) (s : State) : (appendOut bs s).ramDraw = s.ramDraw := rfl
@[simp] theorem appendOut_seg (bs : List Byte) (s : State) : (appendOut bs s).seg = s.seg := rfl
@[simp] theorem appendOut_segPlen (bs : List Byte) (s : State) : (appendOut bs s).segPlen = s.segPlen := rfl
@[simp] theorem appendOut_pay (bs : List Byte) (s : State) : (appendOut bs s).pay = s.pay := rfl
@[simp] theorem appendOut_frm (bs : List Byte) (s : State) : (appendOut bs s).frm = s.frm := rfl
@[simp] theorem appendOut_flen (bs : List Byte) (s : State) : (appendOut bs s).flen = s.flen := rfl
@[simp] theorem appendOut_csumCalc (bs : List Byte) (s : State) : (appendOut bs s).csumCalc = s.csumCalc := rfl
@[simp] theorem appendOut_ckok (bs : List Byte) (s : State) : (appendOut bs s).ckok = s.ckok := rfl
@[simp] theorem appendOut_cc (bs : List Byte) (s : State) : (appendOut bs s).cc = s.cc := rfl
@[simp] theorem appendOut_rxres (bs : List Byte) (s : State) : (appendOut bs s).rxres = s.rxres := rfl
@[simp] theorem appendOut_tpoll (bs : List Byte) (s : State) : (appendOut bs s).tpoll = s.tpoll := rfl
@[simp] theorem appendOut_busy (bs : List Byte) (s : State) : (appendOut bs s).busy = s.busy := rfl
@[simp] theorem appendOut_esr (bs : List Byte) (s : State) : (appendOut bs s).esr = s.esr := rfl
@[simp] theorem appendOut_tstate (bs : List Byte) (s : State) : (appendOut bs s).tstate = s.tstate := rfl
@[simp] theorem appendOut_deadline (bs : List Byte) (s : State) : (appendOut bs s).deadline = s.deadline := rfl
@[simp] theorem appendOut_tdur (bs : List Byte) (s : State) : (appendOut bs s).tdur = s.tdur := rfl
@[simp] theorem appendOut_tdurv (bs : List Byte) (s : State) : (appendOut bs s).tdurv = s.tdurv := rfl
@[simp] theorem appendOut_rstate (bs : List Byte) (s : State) : (appendOut bs s).rstate = s.rstate := rfl
@[simp] theorem appendOut_expected (bs : List Byte) (s : State) : (appendOut bs s).expected = add32 s.expected bs.length := rfl
@[simp] theorem appendOut_slots (bs : List Byte) (s : State) : (appendOut bs s).slots = s.slots := rfl
@[simp] theorem appendOut_out (bs : List Byte) (s : State) : (appendOut bs s).out = s.out ++ bs := rfl
@[simp] theorem appendOut_outlen (bs : List Byte) (s : State) : (appendOut bs s).outlen = s.outlen + BitVec.ofNat 64 bs.length := rfl
@[simp] theorem appendOut_acktSrcPort (bs : List Byte) (s : State) : (appendOut bs s).acktSrcPort = s.acktSrcPort := rfl
@[simp] theorem appendOut_acktDstPort (bs : List Byte) (s : State) : (appendOut bs s).acktDstPort = s.acktDstPort := rfl
@[simp] theorem appendOut_acktSeqNum (bs : List Byte) (s : State) : (appendOut bs s).acktSeqNum = s.acktSeqNum := rfl
@[simp] theorem appendOut_acktHdrLen (bs : List Byte) (s : State) : (appendOut bs s).acktHdrLen = s.acktHdrLen := rfl
@[simp] theorem appendOut_acktRecvWindow (bs : List Byte) (s : State) : (appendOut bs s).acktRecvWindow = s.acktRecvWindow := rfl
@[simp] theorem appendOut_ackf (bs : List Byte) (s : State) : (appendOut bs s).ackf = s.ackf := rfl
@[simp] theorem appendOut_payByte (bs : List Byte) (s : State) (k : Nat) : (appendOut bs s).payByte k = s.payByte k := rfl
@[simp] theorem appendOut_frmByte (bs : List Byte) (s : State) (k : Nat) : (appendOut bs s).frmByte k = s.frmByte k := rfl
@[simp] theorem appendOut_slot (bs : List Byte) (s : State) (i : Nat) : (appendOut bs s).slot i = s.slot i := rfl
@[simp] theorem appendOut_slotByte (bs : List Byte) (s : State) (i k : Nat) : (appendOut bs s).slotByte i k = s.slotByte i k := rfl

/-! ### `closeStream` (R204) -/

@[simp] theorem closeStream_cfg (s : State) : (closeStream s).cfg = s.cfg := rfl
@[simp] theorem closeStream_now (s : State) : (closeStream s).now = s.now := rfl
@[simp] theorem closeStream_script (s : State) : (closeStream s).script = s.script := rfl
@[simp] theorem closeStream_hostReads (s : State) : (closeStream s).hostReads = s.hostReads := rfl
@[simp] theorem closeStream_ramDraw (s : State) : (closeStream s).ramDraw = s.ramDraw := rfl
@[simp] theorem closeStream_seg (s : State) : (closeStream s).seg = s.seg := rfl
@[simp] theorem closeStream_segPlen (s : State) : (closeStream s).segPlen = s.segPlen := rfl
@[simp] theorem closeStream_pay (s : State) : (closeStream s).pay = s.pay := rfl
@[simp] theorem closeStream_frm (s : State) : (closeStream s).frm = s.frm := rfl
@[simp] theorem closeStream_flen (s : State) : (closeStream s).flen = s.flen := rfl
@[simp] theorem closeStream_csumCalc (s : State) : (closeStream s).csumCalc = s.csumCalc := rfl
@[simp] theorem closeStream_ckok (s : State) : (closeStream s).ckok = s.ckok := rfl
@[simp] theorem closeStream_cc (s : State) : (closeStream s).cc = s.cc := rfl
@[simp] theorem closeStream_rxres (s : State) : (closeStream s).rxres = s.rxres := rfl
@[simp] theorem closeStream_tpoll (s : State) : (closeStream s).tpoll = s.tpoll := rfl
@[simp] theorem closeStream_busy (s : State) : (closeStream s).busy = s.busy := rfl
@[simp] theorem closeStream_esr (s : State) : (closeStream s).esr = s.esr := rfl
@[simp] theorem closeStream_tstate (s : State) : (closeStream s).tstate = s.tstate := rfl
@[simp] theorem closeStream_deadline (s : State) : (closeStream s).deadline = s.deadline := rfl
@[simp] theorem closeStream_tdur (s : State) : (closeStream s).tdur = s.tdur := rfl
@[simp] theorem closeStream_tdurv (s : State) : (closeStream s).tdurv = s.tdurv := rfl
@[simp] theorem closeStream_rstate (s : State) : (closeStream s).rstate = .done := rfl
@[simp] theorem closeStream_expected (s : State) : (closeStream s).expected = s.expected := rfl
@[simp] theorem closeStream_slots (s : State) : (closeStream s).slots = s.slots.map Slot.freed := rfl
@[simp] theorem closeStream_out (s : State) : (closeStream s).out = s.out := rfl
@[simp] theorem closeStream_outlen (s : State) : (closeStream s).outlen = s.outlen := rfl
@[simp] theorem closeStream_acktSrcPort (s : State) : (closeStream s).acktSrcPort = s.acktSrcPort := rfl
@[simp] theorem closeStream_acktDstPort (s : State) : (closeStream s).acktDstPort = s.acktDstPort := rfl
@[simp] theorem closeStream_acktSeqNum (s : State) : (closeStream s).acktSeqNum = s.acktSeqNum := rfl
@[simp] theorem closeStream_acktHdrLen (s : State) : (closeStream s).acktHdrLen = s.acktHdrLen := rfl
@[simp] theorem closeStream_acktRecvWindow (s : State) : (closeStream s).acktRecvWindow = s.acktRecvWindow := rfl
@[simp] theorem closeStream_ackf (s : State) : (closeStream s).ackf = s.ackf := rfl
@[simp] theorem closeStream_payByte (s : State) (k : Nat) : (closeStream s).payByte k = s.payByte k := rfl
@[simp] theorem closeStream_frmByte (s : State) (k : Nat) : (closeStream s).frmByte k = s.frmByte k := rfl

/-! ### `storeSlot` (R205) -/

@[simp] theorem storeSlot_cfg (i : Nat) (off : Word) (n : Nat) (fin : Bool) (s : State) : (storeSlot i off n fin s).cfg = s.cfg := rfl
@[simp] theorem storeSlot_now (i : Nat) (off : Word) (n : Nat) (fin : Bool) (s : State) : (storeSlot i off n fin s).now = s.now := rfl
@[simp] theorem storeSlot_script (i : Nat) (off : Word) (n : Nat) (fin : Bool) (s : State) : (storeSlot i off n fin s).script = s.script := rfl
@[simp] theorem storeSlot_hostReads (i : Nat) (off : Word) (n : Nat) (fin : Bool) (s : State) : (storeSlot i off n fin s).hostReads = s.hostReads := rfl
@[simp] theorem storeSlot_ramDraw (i : Nat) (off : Word) (n : Nat) (fin : Bool) (s : State) : (storeSlot i off n fin s).ramDraw = s.ramDraw := rfl
@[simp] theorem storeSlot_seg (i : Nat) (off : Word) (n : Nat) (fin : Bool) (s : State) : (storeSlot i off n fin s).seg = s.seg := rfl
@[simp] theorem storeSlot_segPlen (i : Nat) (off : Word) (n : Nat) (fin : Bool) (s : State) : (storeSlot i off n fin s).segPlen = s.segPlen := rfl
@[simp] theorem storeSlot_pay (i : Nat) (off : Word) (n : Nat) (fin : Bool) (s : State) : (storeSlot i off n fin s).pay = s.pay := rfl
@[simp] theorem storeSlot_frm (i : Nat) (off : Word) (n : Nat) (fin : Bool) (s : State) : (storeSlot i off n fin s).frm = s.frm := rfl
@[simp] theorem storeSlot_flen (i : Nat) (off : Word) (n : Nat) (fin : Bool) (s : State) : (storeSlot i off n fin s).flen = s.flen := rfl
@[simp] theorem storeSlot_csumCalc (i : Nat) (off : Word) (n : Nat) (fin : Bool) (s : State) : (storeSlot i off n fin s).csumCalc = s.csumCalc := rfl
@[simp] theorem storeSlot_ckok (i : Nat) (off : Word) (n : Nat) (fin : Bool) (s : State) : (storeSlot i off n fin s).ckok = s.ckok := rfl
@[simp] theorem storeSlot_cc (i : Nat) (off : Word) (n : Nat) (fin : Bool) (s : State) : (storeSlot i off n fin s).cc = s.cc := rfl
@[simp] theorem storeSlot_rxres (i : Nat) (off : Word) (n : Nat) (fin : Bool) (s : State) : (storeSlot i off n fin s).rxres = s.rxres := rfl
@[simp] theorem storeSlot_tpoll (i : Nat) (off : Word) (n : Nat) (fin : Bool) (s : State) : (storeSlot i off n fin s).tpoll = s.tpoll := rfl
@[simp] theorem storeSlot_busy (i : Nat) (off : Word) (n : Nat) (fin : Bool) (s : State) : (storeSlot i off n fin s).busy = s.busy := rfl
@[simp] theorem storeSlot_esr (i : Nat) (off : Word) (n : Nat) (fin : Bool) (s : State) : (storeSlot i off n fin s).esr = s.esr := rfl
@[simp] theorem storeSlot_tstate (i : Nat) (off : Word) (n : Nat) (fin : Bool) (s : State) : (storeSlot i off n fin s).tstate = s.tstate := rfl
@[simp] theorem storeSlot_deadline (i : Nat) (off : Word) (n : Nat) (fin : Bool) (s : State) : (storeSlot i off n fin s).deadline = s.deadline := rfl
@[simp] theorem storeSlot_tdur (i : Nat) (off : Word) (n : Nat) (fin : Bool) (s : State) : (storeSlot i off n fin s).tdur = s.tdur := rfl
@[simp] theorem storeSlot_tdurv (i : Nat) (off : Word) (n : Nat) (fin : Bool) (s : State) : (storeSlot i off n fin s).tdurv = s.tdurv := rfl
@[simp] theorem storeSlot_rstate (i : Nat) (off : Word) (n : Nat) (fin : Bool) (s : State) : (storeSlot i off n fin s).rstate = s.rstate := rfl
@[simp] theorem storeSlot_expected (i : Nat) (off : Word) (n : Nat) (fin : Bool) (s : State) : (storeSlot i off n fin s).expected = s.expected := rfl
@[simp] theorem storeSlot_slots (i : Nat) (off : Word) (n : Nat) (fin : Bool) (s : State) : (storeSlot i off n fin s).slots = s.slots.set i (fillSlot off n fin (s.payBytes n) (s.slot i)) := rfl
@[simp] theorem storeSlot_out (i : Nat) (off : Word) (n : Nat) (fin : Bool) (s : State) : (storeSlot i off n fin s).out = s.out := rfl
@[simp] theorem storeSlot_outlen (i : Nat) (off : Word) (n : Nat) (fin : Bool) (s : State) : (storeSlot i off n fin s).outlen = s.outlen := rfl
@[simp] theorem storeSlot_acktSrcPort (i : Nat) (off : Word) (n : Nat) (fin : Bool) (s : State) : (storeSlot i off n fin s).acktSrcPort = s.acktSrcPort := rfl
@[simp] theorem storeSlot_acktDstPort (i : Nat) (off : Word) (n : Nat) (fin : Bool) (s : State) : (storeSlot i off n fin s).acktDstPort = s.acktDstPort := rfl
@[simp] theorem storeSlot_acktSeqNum (i : Nat) (off : Word) (n : Nat) (fin : Bool) (s : State) : (storeSlot i off n fin s).acktSeqNum = s.acktSeqNum := rfl
@[simp] theorem storeSlot_acktHdrLen (i : Nat) (off : Word) (n : Nat) (fin : Bool) (s : State) : (storeSlot i off n fin s).acktHdrLen = s.acktHdrLen := rfl
@[simp] theorem storeSlot_acktRecvWindow (i : Nat) (off : Word) (n : Nat) (fin : Bool) (s : State) : (storeSlot i off n fin s).acktRecvWindow = s.acktRecvWindow := rfl
@[simp] theorem storeSlot_ackf (i : Nat) (off : Word) (n : Nat) (fin : Bool) (s : State) : (storeSlot i off n fin s).ackf = s.ackf := rfl
@[simp] theorem storeSlot_payByte (i : Nat) (off : Word) (n : Nat) (fin : Bool) (s : State) (k : Nat) : (storeSlot i off n fin s).payByte k = s.payByte k := rfl
@[simp] theorem storeSlot_frmByte (i : Nat) (off : Word) (n : Nat) (fin : Bool) (s : State) (k : Nat) : (storeSlot i off n fin s).frmByte k = s.frmByte k := rfl

/-! ### `openStream` (R192) -/

@[simp] theorem openStream_cfg (x : Word) (s : State) : (openStream x s).cfg = s.cfg := rfl
@[simp] theorem openStream_now (x : Word) (s : State) : (openStream x s).now = s.now := rfl
@[simp] theorem openStream_script (x : Word) (s : State) : (openStream x s).script = s.script := rfl
@[simp] theorem openStream_hostReads (x : Word) (s : State) : (openStream x s).hostReads = s.hostReads := rfl
@[simp] theorem openStream_ramDraw (x : Word) (s : State) : (openStream x s).ramDraw = s.ramDraw := rfl
@[simp] theorem openStream_seg (x : Word) (s : State) : (openStream x s).seg = s.seg := rfl
@[simp] theorem openStream_segPlen (x : Word) (s : State) : (openStream x s).segPlen = s.segPlen := rfl
@[simp] theorem openStream_pay (x : Word) (s : State) : (openStream x s).pay = s.pay := rfl
@[simp] theorem openStream_frm (x : Word) (s : State) : (openStream x s).frm = s.frm := rfl
@[simp] theorem openStream_flen (x : Word) (s : State) : (openStream x s).flen = s.flen := rfl
@[simp] theorem openStream_csumCalc (x : Word) (s : State) : (openStream x s).csumCalc = s.csumCalc := rfl
@[simp] theorem openStream_ckok (x : Word) (s : State) : (openStream x s).ckok = s.ckok := rfl
@[simp] theorem openStream_cc (x : Word) (s : State) : (openStream x s).cc = s.cc := rfl
@[simp] theorem openStream_rxres (x : Word) (s : State) : (openStream x s).rxres = .none := rfl
@[simp] theorem openStream_tpoll (x : Word) (s : State) : (openStream x s).tpoll = s.tpoll := rfl
@[simp] theorem openStream_busy (x : Word) (s : State) : (openStream x s).busy = s.busy := rfl
@[simp] theorem openStream_esr (x : Word) (s : State) : (openStream x s).esr = s.esr := rfl
@[simp] theorem openStream_tstate (x : Word) (s : State) : (openStream x s).tstate = s.tstate := rfl
@[simp] theorem openStream_deadline (x : Word) (s : State) : (openStream x s).deadline = s.deadline := rfl
@[simp] theorem openStream_tdur (x : Word) (s : State) : (openStream x s).tdur = s.tdur := rfl
@[simp] theorem openStream_tdurv (x : Word) (s : State) : (openStream x s).tdurv = s.tdurv := rfl
@[simp] theorem openStream_rstate (x : Word) (s : State) : (openStream x s).rstate = .active := rfl
@[simp] theorem openStream_expected (x : Word) (s : State) : (openStream x s).expected = x := rfl
@[simp] theorem openStream_slots (x : Word) (s : State) : (openStream x s).slots = s.slots := rfl
@[simp] theorem openStream_out (x : Word) (s : State) : (openStream x s).out = [] := rfl
@[simp] theorem openStream_outlen (x : Word) (s : State) : (openStream x s).outlen = 0 := rfl
@[simp] theorem openStream_acktSrcPort (x : Word) (s : State) : (openStream x s).acktSrcPort = s.acktSrcPort := rfl
@[simp] theorem openStream_acktDstPort (x : Word) (s : State) : (openStream x s).acktDstPort = s.acktDstPort := rfl
@[simp] theorem openStream_acktSeqNum (x : Word) (s : State) : (openStream x s).acktSeqNum = s.acktSeqNum := rfl
@[simp] theorem openStream_acktHdrLen (x : Word) (s : State) : (openStream x s).acktHdrLen = s.acktHdrLen := rfl
@[simp] theorem openStream_acktRecvWindow (x : Word) (s : State) : (openStream x s).acktRecvWindow = s.acktRecvWindow := rfl
@[simp] theorem openStream_ackf (x : Word) (s : State) : (openStream x s).ackf = s.ackf := rfl
@[simp] theorem openStream_payByte (x : Word) (s : State) (k : Nat) : (openStream x s).payByte k = s.payByte k := rfl
@[simp] theorem openStream_frmByte (x : Word) (s : State) (k : Nat) : (openStream x s).frmByte k = s.frmByte k := rfl
@[simp] theorem openStream_slot (x : Word) (s : State) (i : Nat) : (openStream x s).slot i = s.slot i := rfl
@[simp] theorem openStream_slotByte (x : Word) (s : State) (i k : Nat) : (openStream x s).slotByte i k = s.slotByte i k := rfl

/-! ### `buildAck` (R208) -/

@[simp] theorem buildAck_cfg (s : State) : (buildAck s).cfg = s.cfg := rfl
@[simp] theorem buildAck_now (s : State) : (buildAck s).now = s.now := rfl
@[simp] theorem buildAck_script (s : State) : (buildAck s).script = s.script := rfl
@[simp] theorem buildAck_hostReads (s : State) : (buildAck s).hostReads = s.hostReads := rfl
@[simp] theorem buildAck_ramDraw (s : State) : (buildAck s).ramDraw = s.ramDraw := rfl
@[simp] theorem buildAck_seg (s : State) : (buildAck s).seg = s.seg := rfl
@[simp] theorem buildAck_segPlen (s : State) : (buildAck s).segPlen = s.segPlen := rfl
@[simp] theorem buildAck_pay (s : State) : (buildAck s).pay = s.pay := rfl
@[simp] theorem buildAck_frm (s : State) : (buildAck s).frm = s.frm := rfl
@[simp] theorem buildAck_flen (s : State) : (buildAck s).flen = s.flen := rfl
@[simp] theorem buildAck_csumCalc (s : State) : (buildAck s).csumCalc = s.csumCalc := rfl
@[simp] theorem buildAck_ckok (s : State) : (buildAck s).ckok = s.ckok := rfl
@[simp] theorem buildAck_cc (s : State) : (buildAck s).cc = s.cc := rfl
@[simp] theorem buildAck_rxres (s : State) : (buildAck s).rxres = s.rxres := rfl
@[simp] theorem buildAck_tpoll (s : State) : (buildAck s).tpoll = s.tpoll := rfl
@[simp] theorem buildAck_busy (s : State) : (buildAck s).busy = s.busy := rfl
@[simp] theorem buildAck_esr (s : State) : (buildAck s).esr = s.esr := rfl
@[simp] theorem buildAck_tstate (s : State) : (buildAck s).tstate = s.tstate := rfl
@[simp] theorem buildAck_deadline (s : State) : (buildAck s).deadline = s.deadline := rfl
@[simp] theorem buildAck_tdur (s : State) : (buildAck s).tdur = s.tdur := rfl
@[simp] theorem buildAck_tdurv (s : State) : (buildAck s).tdurv = s.tdurv := rfl
@[simp] theorem buildAck_rstate (s : State) : (buildAck s).rstate = s.rstate := rfl
@[simp] theorem buildAck_expected (s : State) : (buildAck s).expected = s.expected := rfl
@[simp] theorem buildAck_slots (s : State) : (buildAck s).slots = s.slots := rfl
@[simp] theorem buildAck_out (s : State) : (buildAck s).out = s.out := rfl
@[simp] theorem buildAck_outlen (s : State) : (buildAck s).outlen = s.outlen := rfl
@[simp] theorem buildAck_acktSrcPort (s : State) : (buildAck s).acktSrcPort = s.acktSrcPort := rfl
@[simp] theorem buildAck_acktDstPort (s : State) : (buildAck s).acktDstPort = s.acktDstPort := rfl
@[simp] theorem buildAck_acktSeqNum (s : State) : (buildAck s).acktSeqNum = s.acktSeqNum := rfl
@[simp] theorem buildAck_acktHdrLen (s : State) : (buildAck s).acktHdrLen = s.acktHdrLen := rfl
@[simp] theorem buildAck_acktRecvWindow (s : State) : (buildAck s).acktRecvWindow = s.acktRecvWindow := rfl
@[simp] theorem buildAck_ackf (s : State) : (buildAck s).ackf = s.ackFrame := rfl
@[simp] theorem buildAck_payByte (s : State) (k : Nat) : (buildAck s).payByte k = s.payByte k := rfl
@[simp] theorem buildAck_frmByte (s : State) (k : Nat) : (buildAck s).frmByte k = s.frmByte k := rfl
@[simp] theorem buildAck_slot (s : State) (i : Nat) : (buildAck s).slot i = s.slot i := rfl
@[simp] theorem buildAck_slotByte (s : State) (i k : Nat) : (buildAck s).slotByte i k = s.slotByte i k := rfl

/-! ### `recordRx` (R195) -/

@[simp] theorem recordRx_cfg (r : RxResult) (s : State) : (recordRx r s).cfg = s.cfg := rfl
@[simp] theorem recordRx_now (r : RxResult) (s : State) : (recordRx r s).now = s.now := rfl
@[simp] theorem recordRx_script (r : RxResult) (s : State) : (recordRx r s).script = s.script := rfl
@[simp] theorem recordRx_hostReads (r : RxResult) (s : State) : (recordRx r s).hostReads = s.hostReads := rfl
@[simp] theorem recordRx_ramDraw (r : RxResult) (s : State) : (recordRx r s).ramDraw = s.ramDraw := rfl
@[simp] theorem recordRx_seg (r : RxResult) (s : State) : (recordRx r s).seg = s.seg := rfl
@[simp] theorem recordRx_segPlen (r : RxResult) (s : State) : (recordRx r s).segPlen = s.segPlen := rfl
@[simp] theorem recordRx_pay (r : RxResult) (s : State) : (recordRx r s).pay = s.pay := rfl
@[simp] theorem recordRx_frm (r : RxResult) (s : State) : (recordRx r s).frm = s.frm := rfl
@[simp] theorem recordRx_flen (r : RxResult) (s : State) : (recordRx r s).flen = s.flen := rfl
@[simp] theorem recordRx_csumCalc (r : RxResult) (s : State) : (recordRx r s).csumCalc = s.csumCalc := rfl
@[simp] theorem recordRx_ckok (r : RxResult) (s : State) : (recordRx r s).ckok = s.ckok := rfl
@[simp] theorem recordRx_cc (r : RxResult) (s : State) : (recordRx r s).cc = s.cc := rfl
@[simp] theorem recordRx_rxres (r : RxResult) (s : State) : (recordRx r s).rxres = r := rfl
@[simp] theorem recordRx_tpoll (r : RxResult) (s : State) : (recordRx r s).tpoll = s.tpoll := rfl
@[simp] theorem recordRx_busy (r : RxResult) (s : State) : (recordRx r s).busy = s.busy := rfl
@[simp] theorem recordRx_esr (r : RxResult) (s : State) : (recordRx r s).esr = s.esr ||| r.esrMask := rfl
@[simp] theorem recordRx_tstate (r : RxResult) (s : State) : (recordRx r s).tstate = s.tstate := rfl
@[simp] theorem recordRx_deadline (r : RxResult) (s : State) : (recordRx r s).deadline = s.deadline := rfl
@[simp] theorem recordRx_tdur (r : RxResult) (s : State) : (recordRx r s).tdur = s.tdur := rfl
@[simp] theorem recordRx_tdurv (r : RxResult) (s : State) : (recordRx r s).tdurv = s.tdurv := rfl
@[simp] theorem recordRx_rstate (r : RxResult) (s : State) : (recordRx r s).rstate = s.rstate := rfl
@[simp] theorem recordRx_expected (r : RxResult) (s : State) : (recordRx r s).expected = s.expected := rfl
@[simp] theorem recordRx_slots (r : RxResult) (s : State) : (recordRx r s).slots = s.slots := rfl
@[simp] theorem recordRx_out (r : RxResult) (s : State) : (recordRx r s).out = s.out := rfl
@[simp] theorem recordRx_outlen (r : RxResult) (s : State) : (recordRx r s).outlen = s.outlen := rfl
@[simp] theorem recordRx_acktSrcPort (r : RxResult) (s : State) : (recordRx r s).acktSrcPort = s.acktSrcPort := rfl
@[simp] theorem recordRx_acktDstPort (r : RxResult) (s : State) : (recordRx r s).acktDstPort = s.acktDstPort := rfl
@[simp] theorem recordRx_acktSeqNum (r : RxResult) (s : State) : (recordRx r s).acktSeqNum = s.acktSeqNum := rfl
@[simp] theorem recordRx_acktHdrLen (r : RxResult) (s : State) : (recordRx r s).acktHdrLen = s.acktHdrLen := rfl
@[simp] theorem recordRx_acktRecvWindow (r : RxResult) (s : State) : (recordRx r s).acktRecvWindow = s.acktRecvWindow := rfl
@[simp] theorem recordRx_ackf (r : RxResult) (s : State) : (recordRx r s).ackf = s.ackf := rfl
@[simp] theorem recordRx_payByte (r : RxResult) (s : State) (k : Nat) : (recordRx r s).payByte k = s.payByte k := rfl
@[simp] theorem recordRx_frmByte (r : RxResult) (s : State) (k : Nat) : (recordRx r s).frmByte k = s.frmByte k := rfl
@[simp] theorem recordRx_slot (r : RxResult) (s : State) (i : Nat) : (recordRx r s).slot i = s.slot i := rfl
@[simp] theorem recordRx_slotByte (r : RxResult) (s : State) (i k : Nat) : (recordRx r s).slotByte i k = s.slotByte i k := rfl

/-! ### `decodeFrame` (R156) -/

@[simp] theorem decodeFrame_cfg (s : State) : (decodeFrame s).cfg = s.cfg := rfl
@[simp] theorem decodeFrame_now (s : State) : (decodeFrame s).now = s.now := rfl
@[simp] theorem decodeFrame_script (s : State) : (decodeFrame s).script = s.script := rfl
@[simp] theorem decodeFrame_hostReads (s : State) : (decodeFrame s).hostReads = s.hostReads := rfl
@[simp] theorem decodeFrame_ramDraw (s : State) : (decodeFrame s).ramDraw = s.ramDraw := rfl
@[simp] theorem decodeFrame_seg (s : State) : (decodeFrame s).seg = Header.ofBytes s.frmByte := rfl
@[simp] theorem decodeFrame_segPlen (s : State) : (decodeFrame s).segPlen = BitVec.ofNat 16 s.framePlen := rfl
@[simp] theorem decodeFrame_pay (s : State) : (decodeFrame s).pay = s.pay.writeBytes 0 (s.frmBytes hdrBytes s.framePlen) := by simp only [decodeFrame]
@[simp] theorem decodeFrame_frm (s : State) : (decodeFrame s).frm = s.frm := rfl
@[simp] theorem decodeFrame_flen (s : State) : (decodeFrame s).flen = s.flen := rfl
@[simp] theorem decodeFrame_csumCalc (s : State) : (decodeFrame s).csumCalc = s.csumCalc := rfl
@[simp] theorem decodeFrame_ckok (s : State) : (decodeFrame s).ckok = s.ckok := rfl
@[simp] theorem decodeFrame_cc (s : State) : (decodeFrame s).cc = s.cc := rfl
@[simp] theorem decodeFrame_rxres (s : State) : (decodeFrame s).rxres = s.rxres := rfl
@[simp] theorem decodeFrame_tpoll (s : State) : (decodeFrame s).tpoll = s.tpoll := rfl
@[simp] theorem decodeFrame_busy (s : State) : (decodeFrame s).busy = s.busy := rfl
@[simp] theorem decodeFrame_esr (s : State) : (decodeFrame s).esr = s.esr := rfl
@[simp] theorem decodeFrame_tstate (s : State) : (decodeFrame s).tstate = s.tstate := rfl
@[simp] theorem decodeFrame_deadline (s : State) : (decodeFrame s).deadline = s.deadline := rfl
@[simp] theorem decodeFrame_tdur (s : State) : (decodeFrame s).tdur = s.tdur := rfl
@[simp] theorem decodeFrame_tdurv (s : State) : (decodeFrame s).tdurv = s.tdurv := rfl
@[simp] theorem decodeFrame_rstate (s : State) : (decodeFrame s).rstate = s.rstate := rfl
@[simp] theorem decodeFrame_expected (s : State) : (decodeFrame s).expected = s.expected := rfl
@[simp] theorem decodeFrame_slots (s : State) : (decodeFrame s).slots = s.slots := rfl
@[simp] theorem decodeFrame_out (s : State) : (decodeFrame s).out = s.out := rfl
@[simp] theorem decodeFrame_outlen (s : State) : (decodeFrame s).outlen = s.outlen := rfl
@[simp] theorem decodeFrame_acktSrcPort (s : State) : (decodeFrame s).acktSrcPort = s.acktSrcPort := rfl
@[simp] theorem decodeFrame_acktDstPort (s : State) : (decodeFrame s).acktDstPort = s.acktDstPort := rfl
@[simp] theorem decodeFrame_acktSeqNum (s : State) : (decodeFrame s).acktSeqNum = s.acktSeqNum := rfl
@[simp] theorem decodeFrame_acktHdrLen (s : State) : (decodeFrame s).acktHdrLen = s.acktHdrLen := rfl
@[simp] theorem decodeFrame_acktRecvWindow (s : State) : (decodeFrame s).acktRecvWindow = s.acktRecvWindow := rfl
@[simp] theorem decodeFrame_ackf (s : State) : (decodeFrame s).ackf = s.ackf := rfl
@[simp] theorem decodeFrame_frmByte (s : State) (k : Nat) : (decodeFrame s).frmByte k = s.frmByte k := rfl
@[simp] theorem decodeFrame_slot (s : State) (i : Nat) : (decodeFrame s).slot i = s.slot i := rfl
@[simp] theorem decodeFrame_slotByte (s : State) (i k : Nat) : (decodeFrame s).slotByte i k = s.slotByte i k := rfl

/-! ### `encodeFrame` (R151) -/

@[simp] theorem encodeFrame_cfg (s : State) : (encodeFrame s).cfg = s.cfg := rfl
@[simp] theorem encodeFrame_now (s : State) : (encodeFrame s).now = s.now := rfl
@[simp] theorem encodeFrame_script (s : State) : (encodeFrame s).script = s.script := rfl
@[simp] theorem encodeFrame_hostReads (s : State) : (encodeFrame s).hostReads = s.hostReads := rfl
@[simp] theorem encodeFrame_ramDraw (s : State) : (encodeFrame s).ramDraw = s.ramDraw := rfl
@[simp] theorem encodeFrame_seg (s : State) : (encodeFrame s).seg = s.seg := rfl
@[simp] theorem encodeFrame_segPlen (s : State) : (encodeFrame s).segPlen = s.segPlen := rfl
@[simp] theorem encodeFrame_pay (s : State) : (encodeFrame s).pay = s.pay := rfl
@[simp] theorem encodeFrame_frm (s : State) : (encodeFrame s).frm = s.frm.writeBytes 0 s.segFrame := by simp only [encodeFrame]
@[simp] theorem encodeFrame_flen (s : State) : (encodeFrame s).flen = BitVec.ofNat 16 (hdrBytes + s.segPlen.toNat) := rfl
@[simp] theorem encodeFrame_csumCalc (s : State) : (encodeFrame s).csumCalc = s.csumCalc := rfl
@[simp] theorem encodeFrame_ckok (s : State) : (encodeFrame s).ckok = s.ckok := rfl
@[simp] theorem encodeFrame_cc (s : State) : (encodeFrame s).cc = s.cc := rfl
@[simp] theorem encodeFrame_rxres (s : State) : (encodeFrame s).rxres = s.rxres := rfl
@[simp] theorem encodeFrame_tpoll (s : State) : (encodeFrame s).tpoll = s.tpoll := rfl
@[simp] theorem encodeFrame_busy (s : State) : (encodeFrame s).busy = s.busy := rfl
@[simp] theorem encodeFrame_esr (s : State) : (encodeFrame s).esr = s.esr := rfl
@[simp] theorem encodeFrame_tstate (s : State) : (encodeFrame s).tstate = s.tstate := rfl
@[simp] theorem encodeFrame_deadline (s : State) : (encodeFrame s).deadline = s.deadline := rfl
@[simp] theorem encodeFrame_tdur (s : State) : (encodeFrame s).tdur = s.tdur := rfl
@[simp] theorem encodeFrame_tdurv (s : State) : (encodeFrame s).tdurv = s.tdurv := rfl
@[simp] theorem encodeFrame_rstate (s : State) : (encodeFrame s).rstate = s.rstate := rfl
@[simp] theorem encodeFrame_expected (s : State) : (encodeFrame s).expected = s.expected := rfl
@[simp] theorem encodeFrame_slots (s : State) : (encodeFrame s).slots = s.slots := rfl
@[simp] theorem encodeFrame_out (s : State) : (encodeFrame s).out = s.out := rfl
@[simp] theorem encodeFrame_outlen (s : State) : (encodeFrame s).outlen = s.outlen := rfl
@[simp] theorem encodeFrame_acktSrcPort (s : State) : (encodeFrame s).acktSrcPort = s.acktSrcPort := rfl
@[simp] theorem encodeFrame_acktDstPort (s : State) : (encodeFrame s).acktDstPort = s.acktDstPort := rfl
@[simp] theorem encodeFrame_acktSeqNum (s : State) : (encodeFrame s).acktSeqNum = s.acktSeqNum := rfl
@[simp] theorem encodeFrame_acktHdrLen (s : State) : (encodeFrame s).acktHdrLen = s.acktHdrLen := rfl
@[simp] theorem encodeFrame_acktRecvWindow (s : State) : (encodeFrame s).acktRecvWindow = s.acktRecvWindow := rfl
@[simp] theorem encodeFrame_ackf (s : State) : (encodeFrame s).ackf = s.ackf := rfl
@[simp] theorem encodeFrame_payByte (s : State) (k : Nat) : (encodeFrame s).payByte k = s.payByte k := rfl
@[simp] theorem encodeFrame_slot (s : State) (i : Nat) : (encodeFrame s).slot i = s.slot i := rfl
@[simp] theorem encodeFrame_slotByte (s : State) (i k : Nat) : (encodeFrame s).slotByte i k = s.slotByte i k := rfl

/-! ### `clearCkok` (R156) -/

@[simp] theorem clearCkok_cfg (s : State) : (clearCkok s).cfg = s.cfg := rfl
@[simp] theorem clearCkok_now (s : State) : (clearCkok s).now = s.now := rfl
@[simp] theorem clearCkok_script (s : State) : (clearCkok s).script = s.script := rfl
@[simp] theorem clearCkok_hostReads (s : State) : (clearCkok s).hostReads = s.hostReads := rfl
@[simp] theorem clearCkok_ramDraw (s : State) : (clearCkok s).ramDraw = s.ramDraw := rfl
@[simp] theorem clearCkok_seg (s : State) : (clearCkok s).seg = s.seg := rfl
@[simp] theorem clearCkok_segPlen (s : State) : (clearCkok s).segPlen = s.segPlen := rfl
@[simp] theorem clearCkok_pay (s : State) : (clearCkok s).pay = s.pay := rfl
@[simp] theorem clearCkok_frm (s : State) : (clearCkok s).frm = s.frm := rfl
@[simp] theorem clearCkok_flen (s : State) : (clearCkok s).flen = s.flen := rfl
@[simp] theorem clearCkok_csumCalc (s : State) : (clearCkok s).csumCalc = s.csumCalc := rfl
@[simp] theorem clearCkok_ckok (s : State) : (clearCkok s).ckok = false := rfl
@[simp] theorem clearCkok_cc (s : State) : (clearCkok s).cc = s.cc := rfl
@[simp] theorem clearCkok_rxres (s : State) : (clearCkok s).rxres = s.rxres := rfl
@[simp] theorem clearCkok_tpoll (s : State) : (clearCkok s).tpoll = s.tpoll := rfl
@[simp] theorem clearCkok_busy (s : State) : (clearCkok s).busy = s.busy := rfl
@[simp] theorem clearCkok_esr (s : State) : (clearCkok s).esr = s.esr := rfl
@[simp] theorem clearCkok_tstate (s : State) : (clearCkok s).tstate = s.tstate := rfl
@[simp] theorem clearCkok_deadline (s : State) : (clearCkok s).deadline = s.deadline := rfl
@[simp] theorem clearCkok_tdur (s : State) : (clearCkok s).tdur = s.tdur := rfl
@[simp] theorem clearCkok_tdurv (s : State) : (clearCkok s).tdurv = s.tdurv := rfl
@[simp] theorem clearCkok_rstate (s : State) : (clearCkok s).rstate = s.rstate := rfl
@[simp] theorem clearCkok_expected (s : State) : (clearCkok s).expected = s.expected := rfl
@[simp] theorem clearCkok_slots (s : State) : (clearCkok s).slots = s.slots := rfl
@[simp] theorem clearCkok_out (s : State) : (clearCkok s).out = s.out := rfl
@[simp] theorem clearCkok_outlen (s : State) : (clearCkok s).outlen = s.outlen := rfl
@[simp] theorem clearCkok_acktSrcPort (s : State) : (clearCkok s).acktSrcPort = s.acktSrcPort := rfl
@[simp] theorem clearCkok_acktDstPort (s : State) : (clearCkok s).acktDstPort = s.acktDstPort := rfl
@[simp] theorem clearCkok_acktSeqNum (s : State) : (clearCkok s).acktSeqNum = s.acktSeqNum := rfl
@[simp] theorem clearCkok_acktHdrLen (s : State) : (clearCkok s).acktHdrLen = s.acktHdrLen := rfl
@[simp] theorem clearCkok_acktRecvWindow (s : State) : (clearCkok s).acktRecvWindow = s.acktRecvWindow := rfl
@[simp] theorem clearCkok_ackf (s : State) : (clearCkok s).ackf = s.ackf := rfl
@[simp] theorem clearCkok_payByte (s : State) (k : Nat) : (clearCkok s).payByte k = s.payByte k := rfl
@[simp] theorem clearCkok_frmByte (s : State) (k : Nat) : (clearCkok s).frmByte k = s.frmByte k := rfl
@[simp] theorem clearCkok_slot (s : State) (i : Nat) : (clearCkok s).slot i = s.slot i := rfl
@[simp] theorem clearCkok_slotByte (s : State) (i k : Nat) : (clearCkok s).slotByte i k = s.slotByte i k := rfl

/-! ### `checkSegment` (R136) -/

@[simp] theorem checkSegment_cfg (s : State) : (checkSegment s).cfg = s.cfg := rfl
@[simp] theorem checkSegment_now (s : State) : (checkSegment s).now = s.now := rfl
@[simp] theorem checkSegment_script (s : State) : (checkSegment s).script = s.script := rfl
@[simp] theorem checkSegment_hostReads (s : State) : (checkSegment s).hostReads = s.hostReads := rfl
@[simp] theorem checkSegment_ramDraw (s : State) : (checkSegment s).ramDraw = s.ramDraw := rfl
@[simp] theorem checkSegment_seg (s : State) : (checkSegment s).seg = s.seg := rfl
@[simp] theorem checkSegment_segPlen (s : State) : (checkSegment s).segPlen = s.segPlen := rfl
@[simp] theorem checkSegment_pay (s : State) : (checkSegment s).pay = s.pay := rfl
@[simp] theorem checkSegment_frm (s : State) : (checkSegment s).frm = s.frm := rfl
@[simp] theorem checkSegment_flen (s : State) : (checkSegment s).flen = s.flen := rfl
@[simp] theorem checkSegment_csumCalc (s : State) : (checkSegment s).csumCalc = s.segChecksum := rfl
@[simp] theorem checkSegment_ckok (s : State) : (checkSegment s).ckok = (s.seg.checksum == s.segChecksum) := rfl
@[simp] theorem checkSegment_cc (s : State) : (checkSegment s).cc = s.cc := rfl
@[simp] theorem checkSegment_rxres (s : State) : (checkSegment s).rxres = s.rxres := rfl
@[simp] theorem checkSegment_tpoll (s : State) : (checkSegment s).tpoll = s.tpoll := rfl
@[simp] theorem checkSegment_busy (s : State) : (checkSegment s).busy = s.busy := rfl
@[simp] theorem checkSegment_esr (s : State) : (checkSegment s).esr = s.esr := rfl
@[simp] theorem checkSegment_tstate (s : State) : (checkSegment s).tstate = s.tstate := rfl
@[simp] theorem checkSegment_deadline (s : State) : (checkSegment s).deadline = s.deadline := rfl
@[simp] theorem checkSegment_tdur (s : State) : (checkSegment s).tdur = s.tdur := rfl
@[simp] theorem checkSegment_tdurv (s : State) : (checkSegment s).tdurv = s.tdurv := rfl
@[simp] theorem checkSegment_rstate (s : State) : (checkSegment s).rstate = s.rstate := rfl
@[simp] theorem checkSegment_expected (s : State) : (checkSegment s).expected = s.expected := rfl
@[simp] theorem checkSegment_slots (s : State) : (checkSegment s).slots = s.slots := rfl
@[simp] theorem checkSegment_out (s : State) : (checkSegment s).out = s.out := rfl
@[simp] theorem checkSegment_outlen (s : State) : (checkSegment s).outlen = s.outlen := rfl
@[simp] theorem checkSegment_acktSrcPort (s : State) : (checkSegment s).acktSrcPort = s.acktSrcPort := rfl
@[simp] theorem checkSegment_acktDstPort (s : State) : (checkSegment s).acktDstPort = s.acktDstPort := rfl
@[simp] theorem checkSegment_acktSeqNum (s : State) : (checkSegment s).acktSeqNum = s.acktSeqNum := rfl
@[simp] theorem checkSegment_acktHdrLen (s : State) : (checkSegment s).acktHdrLen = s.acktHdrLen := rfl
@[simp] theorem checkSegment_acktRecvWindow (s : State) : (checkSegment s).acktRecvWindow = s.acktRecvWindow := rfl
@[simp] theorem checkSegment_ackf (s : State) : (checkSegment s).ackf = s.ackf := rfl
@[simp] theorem checkSegment_payByte (s : State) (k : Nat) : (checkSegment s).payByte k = s.payByte k := rfl
@[simp] theorem checkSegment_frmByte (s : State) (k : Nat) : (checkSegment s).frmByte k = s.frmByte k := rfl
@[simp] theorem checkSegment_slot (s : State) (i : Nat) : (checkSegment s).slot i = s.slot i := rfl
@[simp] theorem checkSegment_slotByte (s : State) (i k : Nat) : (checkSegment s).slotByte i k = s.slotByte i k := rfl

/-! ### `generateChecksum` (R134) -/

@[simp] theorem generateChecksum_cfg (s : State) : (generateChecksum s).cfg = s.cfg := rfl
@[simp] theorem generateChecksum_now (s : State) : (generateChecksum s).now = s.now := rfl
@[simp] theorem generateChecksum_script (s : State) : (generateChecksum s).script = s.script := rfl
@[simp] theorem generateChecksum_hostReads (s : State) : (generateChecksum s).hostReads = s.hostReads := rfl
@[simp] theorem generateChecksum_ramDraw (s : State) : (generateChecksum s).ramDraw = s.ramDraw := rfl
@[simp] theorem generateChecksum_seg (s : State) : (generateChecksum s).seg = { s.seg with checksum := s.segChecksum } := rfl
@[simp] theorem generateChecksum_segPlen (s : State) : (generateChecksum s).segPlen = s.segPlen := rfl
@[simp] theorem generateChecksum_pay (s : State) : (generateChecksum s).pay = s.pay := rfl
@[simp] theorem generateChecksum_frm (s : State) : (generateChecksum s).frm = s.frm := rfl
@[simp] theorem generateChecksum_flen (s : State) : (generateChecksum s).flen = s.flen := rfl
@[simp] theorem generateChecksum_csumCalc (s : State) : (generateChecksum s).csumCalc = s.segChecksum := rfl
@[simp] theorem generateChecksum_ckok (s : State) : (generateChecksum s).ckok = true := rfl
@[simp] theorem generateChecksum_cc (s : State) : (generateChecksum s).cc = s.cc := rfl
@[simp] theorem generateChecksum_rxres (s : State) : (generateChecksum s).rxres = s.rxres := rfl
@[simp] theorem generateChecksum_tpoll (s : State) : (generateChecksum s).tpoll = s.tpoll := rfl
@[simp] theorem generateChecksum_busy (s : State) : (generateChecksum s).busy = s.busy := rfl
@[simp] theorem generateChecksum_esr (s : State) : (generateChecksum s).esr = s.esr := rfl
@[simp] theorem generateChecksum_tstate (s : State) : (generateChecksum s).tstate = s.tstate := rfl
@[simp] theorem generateChecksum_deadline (s : State) : (generateChecksum s).deadline = s.deadline := rfl
@[simp] theorem generateChecksum_tdur (s : State) : (generateChecksum s).tdur = s.tdur := rfl
@[simp] theorem generateChecksum_tdurv (s : State) : (generateChecksum s).tdurv = s.tdurv := rfl
@[simp] theorem generateChecksum_rstate (s : State) : (generateChecksum s).rstate = s.rstate := rfl
@[simp] theorem generateChecksum_expected (s : State) : (generateChecksum s).expected = s.expected := rfl
@[simp] theorem generateChecksum_slots (s : State) : (generateChecksum s).slots = s.slots := rfl
@[simp] theorem generateChecksum_out (s : State) : (generateChecksum s).out = s.out := rfl
@[simp] theorem generateChecksum_outlen (s : State) : (generateChecksum s).outlen = s.outlen := rfl
@[simp] theorem generateChecksum_acktSrcPort (s : State) : (generateChecksum s).acktSrcPort = s.acktSrcPort := rfl
@[simp] theorem generateChecksum_acktDstPort (s : State) : (generateChecksum s).acktDstPort = s.acktDstPort := rfl
@[simp] theorem generateChecksum_acktSeqNum (s : State) : (generateChecksum s).acktSeqNum = s.acktSeqNum := rfl
@[simp] theorem generateChecksum_acktHdrLen (s : State) : (generateChecksum s).acktHdrLen = s.acktHdrLen := rfl
@[simp] theorem generateChecksum_acktRecvWindow (s : State) : (generateChecksum s).acktRecvWindow = s.acktRecvWindow := rfl
@[simp] theorem generateChecksum_ackf (s : State) : (generateChecksum s).ackf = s.ackf := rfl
@[simp] theorem generateChecksum_payByte (s : State) (k : Nat) : (generateChecksum s).payByte k = s.payByte k := rfl
@[simp] theorem generateChecksum_frmByte (s : State) (k : Nat) : (generateChecksum s).frmByte k = s.frmByte k := rfl
@[simp] theorem generateChecksum_slot (s : State) (i : Nat) : (generateChecksum s).slot i = s.slot i := rfl
@[simp] theorem generateChecksum_slotByte (s : State) (i k : Nat) : (generateChecksum s).slotByte i k = s.slotByte i k := rfl

/-! ### `recordDuration` (R172) -/

@[simp] theorem recordDuration_cfg (d : Word) (s : State) : (recordDuration d s).cfg = s.cfg := rfl
@[simp] theorem recordDuration_now (d : Word) (s : State) : (recordDuration d s).now = s.now := rfl
@[simp] theorem recordDuration_script (d : Word) (s : State) : (recordDuration d s).script = s.script := rfl
@[simp] theorem recordDuration_hostReads (d : Word) (s : State) : (recordDuration d s).hostReads = s.hostReads := rfl
@[simp] theorem recordDuration_ramDraw (d : Word) (s : State) : (recordDuration d s).ramDraw = s.ramDraw := rfl
@[simp] theorem recordDuration_seg (d : Word) (s : State) : (recordDuration d s).seg = s.seg := rfl
@[simp] theorem recordDuration_segPlen (d : Word) (s : State) : (recordDuration d s).segPlen = s.segPlen := rfl
@[simp] theorem recordDuration_pay (d : Word) (s : State) : (recordDuration d s).pay = s.pay := rfl
@[simp] theorem recordDuration_frm (d : Word) (s : State) : (recordDuration d s).frm = s.frm := rfl
@[simp] theorem recordDuration_flen (d : Word) (s : State) : (recordDuration d s).flen = s.flen := rfl
@[simp] theorem recordDuration_csumCalc (d : Word) (s : State) : (recordDuration d s).csumCalc = s.csumCalc := rfl
@[simp] theorem recordDuration_ckok (d : Word) (s : State) : (recordDuration d s).ckok = s.ckok := rfl
@[simp] theorem recordDuration_cc (d : Word) (s : State) : (recordDuration d s).cc = s.cc := rfl
@[simp] theorem recordDuration_rxres (d : Word) (s : State) : (recordDuration d s).rxres = s.rxres := rfl
@[simp] theorem recordDuration_tpoll (d : Word) (s : State) : (recordDuration d s).tpoll = s.tpoll := rfl
@[simp] theorem recordDuration_busy (d : Word) (s : State) : (recordDuration d s).busy = s.busy := rfl
@[simp] theorem recordDuration_esr (d : Word) (s : State) : (recordDuration d s).esr = s.esr := rfl
@[simp] theorem recordDuration_tstate (d : Word) (s : State) : (recordDuration d s).tstate = s.tstate := rfl
@[simp] theorem recordDuration_deadline (d : Word) (s : State) : (recordDuration d s).deadline = s.deadline := rfl
@[simp] theorem recordDuration_tdur (d : Word) (s : State) : (recordDuration d s).tdur = d := rfl
@[simp] theorem recordDuration_tdurv (d : Word) (s : State) : (recordDuration d s).tdurv = true := rfl
@[simp] theorem recordDuration_rstate (d : Word) (s : State) : (recordDuration d s).rstate = s.rstate := rfl
@[simp] theorem recordDuration_expected (d : Word) (s : State) : (recordDuration d s).expected = s.expected := rfl
@[simp] theorem recordDuration_slots (d : Word) (s : State) : (recordDuration d s).slots = s.slots := rfl
@[simp] theorem recordDuration_out (d : Word) (s : State) : (recordDuration d s).out = s.out := rfl
@[simp] theorem recordDuration_outlen (d : Word) (s : State) : (recordDuration d s).outlen = s.outlen := rfl
@[simp] theorem recordDuration_acktSrcPort (d : Word) (s : State) : (recordDuration d s).acktSrcPort = s.acktSrcPort := rfl
@[simp] theorem recordDuration_acktDstPort (d : Word) (s : State) : (recordDuration d s).acktDstPort = s.acktDstPort := rfl
@[simp] theorem recordDuration_acktSeqNum (d : Word) (s : State) : (recordDuration d s).acktSeqNum = s.acktSeqNum := rfl
@[simp] theorem recordDuration_acktHdrLen (d : Word) (s : State) : (recordDuration d s).acktHdrLen = s.acktHdrLen := rfl
@[simp] theorem recordDuration_acktRecvWindow (d : Word) (s : State) : (recordDuration d s).acktRecvWindow = s.acktRecvWindow := rfl
@[simp] theorem recordDuration_ackf (d : Word) (s : State) : (recordDuration d s).ackf = s.ackf := rfl
@[simp] theorem recordDuration_payByte (d : Word) (s : State) (k : Nat) : (recordDuration d s).payByte k = s.payByte k := rfl
@[simp] theorem recordDuration_frmByte (d : Word) (s : State) (k : Nat) : (recordDuration d s).frmByte k = s.frmByte k := rfl
@[simp] theorem recordDuration_slot (d : Word) (s : State) (i : Nat) : (recordDuration d s).slot i = s.slot i := rfl
@[simp] theorem recordDuration_slotByte (d : Word) (s : State) (i k : Nat) : (recordDuration d s).slotByte i k = s.slotByte i k := rfl

/-! ### `disarmTimer` (R176) -/

@[simp] theorem disarmTimer_cfg (s : State) : (disarmTimer s).cfg = s.cfg := rfl
@[simp] theorem disarmTimer_now (s : State) : (disarmTimer s).now = s.now := rfl
@[simp] theorem disarmTimer_script (s : State) : (disarmTimer s).script = s.script := rfl
@[simp] theorem disarmTimer_hostReads (s : State) : (disarmTimer s).hostReads = s.hostReads := rfl
@[simp] theorem disarmTimer_ramDraw (s : State) : (disarmTimer s).ramDraw = s.ramDraw := rfl
@[simp] theorem disarmTimer_seg (s : State) : (disarmTimer s).seg = s.seg := rfl
@[simp] theorem disarmTimer_segPlen (s : State) : (disarmTimer s).segPlen = s.segPlen := rfl
@[simp] theorem disarmTimer_pay (s : State) : (disarmTimer s).pay = s.pay := rfl
@[simp] theorem disarmTimer_frm (s : State) : (disarmTimer s).frm = s.frm := rfl
@[simp] theorem disarmTimer_flen (s : State) : (disarmTimer s).flen = s.flen := rfl
@[simp] theorem disarmTimer_csumCalc (s : State) : (disarmTimer s).csumCalc = s.csumCalc := rfl
@[simp] theorem disarmTimer_ckok (s : State) : (disarmTimer s).ckok = s.ckok := rfl
@[simp] theorem disarmTimer_cc (s : State) : (disarmTimer s).cc = s.cc := rfl
@[simp] theorem disarmTimer_rxres (s : State) : (disarmTimer s).rxres = s.rxres := rfl
@[simp] theorem disarmTimer_tpoll (s : State) : (disarmTimer s).tpoll = s.tpoll := rfl
@[simp] theorem disarmTimer_busy (s : State) : (disarmTimer s).busy = s.busy := rfl
@[simp] theorem disarmTimer_esr (s : State) : (disarmTimer s).esr = s.esr := rfl
@[simp] theorem disarmTimer_tstate (s : State) : (disarmTimer s).tstate = .idle := rfl
@[simp] theorem disarmTimer_deadline (s : State) : (disarmTimer s).deadline = 0 := rfl
@[simp] theorem disarmTimer_tdur (s : State) : (disarmTimer s).tdur = s.tdur := rfl
@[simp] theorem disarmTimer_tdurv (s : State) : (disarmTimer s).tdurv = s.tdurv := rfl
@[simp] theorem disarmTimer_rstate (s : State) : (disarmTimer s).rstate = s.rstate := rfl
@[simp] theorem disarmTimer_expected (s : State) : (disarmTimer s).expected = s.expected := rfl
@[simp] theorem disarmTimer_slots (s : State) : (disarmTimer s).slots = s.slots := rfl
@[simp] theorem disarmTimer_out (s : State) : (disarmTimer s).out = s.out := rfl
@[simp] theorem disarmTimer_outlen (s : State) : (disarmTimer s).outlen = s.outlen := rfl
@[simp] theorem disarmTimer_acktSrcPort (s : State) : (disarmTimer s).acktSrcPort = s.acktSrcPort := rfl
@[simp] theorem disarmTimer_acktDstPort (s : State) : (disarmTimer s).acktDstPort = s.acktDstPort := rfl
@[simp] theorem disarmTimer_acktSeqNum (s : State) : (disarmTimer s).acktSeqNum = s.acktSeqNum := rfl
@[simp] theorem disarmTimer_acktHdrLen (s : State) : (disarmTimer s).acktHdrLen = s.acktHdrLen := rfl
@[simp] theorem disarmTimer_acktRecvWindow (s : State) : (disarmTimer s).acktRecvWindow = s.acktRecvWindow := rfl
@[simp] theorem disarmTimer_ackf (s : State) : (disarmTimer s).ackf = s.ackf := rfl
@[simp] theorem disarmTimer_payByte (s : State) (k : Nat) : (disarmTimer s).payByte k = s.payByte k := rfl
@[simp] theorem disarmTimer_frmByte (s : State) (k : Nat) : (disarmTimer s).frmByte k = s.frmByte k := rfl
@[simp] theorem disarmTimer_slot (s : State) (i : Nat) : (disarmTimer s).slot i = s.slot i := rfl
@[simp] theorem disarmTimer_slotByte (s : State) (i k : Nat) : (disarmTimer s).slotByte i k = s.slotByte i k := rfl

/-! ### `recordPoll` (R178) -/

@[simp] theorem recordPoll_cfg (s : State) : (recordPoll s).cfg = s.cfg := rfl
@[simp] theorem recordPoll_now (s : State) : (recordPoll s).now = s.now := rfl
@[simp] theorem recordPoll_script (s : State) : (recordPoll s).script = s.script := rfl
@[simp] theorem recordPoll_hostReads (s : State) : (recordPoll s).hostReads = s.hostReads := rfl
@[simp] theorem recordPoll_ramDraw (s : State) : (recordPoll s).ramDraw = s.ramDraw := rfl
@[simp] theorem recordPoll_seg (s : State) : (recordPoll s).seg = s.seg := rfl
@[simp] theorem recordPoll_segPlen (s : State) : (recordPoll s).segPlen = s.segPlen := rfl
@[simp] theorem recordPoll_pay (s : State) : (recordPoll s).pay = s.pay := rfl
@[simp] theorem recordPoll_frm (s : State) : (recordPoll s).frm = s.frm := rfl
@[simp] theorem recordPoll_flen (s : State) : (recordPoll s).flen = s.flen := rfl
@[simp] theorem recordPoll_csumCalc (s : State) : (recordPoll s).csumCalc = s.csumCalc := rfl
@[simp] theorem recordPoll_ckok (s : State) : (recordPoll s).ckok = s.ckok := rfl
@[simp] theorem recordPoll_cc (s : State) : (recordPoll s).cc = s.cc := rfl
@[simp] theorem recordPoll_rxres (s : State) : (recordPoll s).rxres = s.rxres := rfl
@[simp] theorem recordPoll_tpoll (s : State) : (recordPoll s).tpoll = (s.tstate == .expired) := rfl
@[simp] theorem recordPoll_busy (s : State) : (recordPoll s).busy = s.busy := rfl
@[simp] theorem recordPoll_esr (s : State) : (recordPoll s).esr = s.esr := rfl
@[simp] theorem recordPoll_tstate (s : State) : (recordPoll s).tstate = s.tstate := rfl
@[simp] theorem recordPoll_deadline (s : State) : (recordPoll s).deadline = s.deadline := rfl
@[simp] theorem recordPoll_tdur (s : State) : (recordPoll s).tdur = s.tdur := rfl
@[simp] theorem recordPoll_tdurv (s : State) : (recordPoll s).tdurv = s.tdurv := rfl
@[simp] theorem recordPoll_rstate (s : State) : (recordPoll s).rstate = s.rstate := rfl
@[simp] theorem recordPoll_expected (s : State) : (recordPoll s).expected = s.expected := rfl
@[simp] theorem recordPoll_slots (s : State) : (recordPoll s).slots = s.slots := rfl
@[simp] theorem recordPoll_out (s : State) : (recordPoll s).out = s.out := rfl
@[simp] theorem recordPoll_outlen (s : State) : (recordPoll s).outlen = s.outlen := rfl
@[simp] theorem recordPoll_acktSrcPort (s : State) : (recordPoll s).acktSrcPort = s.acktSrcPort := rfl
@[simp] theorem recordPoll_acktDstPort (s : State) : (recordPoll s).acktDstPort = s.acktDstPort := rfl
@[simp] theorem recordPoll_acktSeqNum (s : State) : (recordPoll s).acktSeqNum = s.acktSeqNum := rfl
@[simp] theorem recordPoll_acktHdrLen (s : State) : (recordPoll s).acktHdrLen = s.acktHdrLen := rfl
@[simp] theorem recordPoll_acktRecvWindow (s : State) : (recordPoll s).acktRecvWindow = s.acktRecvWindow := rfl
@[simp] theorem recordPoll_ackf (s : State) : (recordPoll s).ackf = s.ackf := rfl
@[simp] theorem recordPoll_payByte (s : State) (k : Nat) : (recordPoll s).payByte k = s.payByte k := rfl
@[simp] theorem recordPoll_frmByte (s : State) (k : Nat) : (recordPoll s).frmByte k = s.frmByte k := rfl
@[simp] theorem recordPoll_slot (s : State) (i : Nat) : (recordPoll s).slot i = s.slot i := rfl
@[simp] theorem recordPoll_slotByte (s : State) (i k : Nat) : (recordPoll s).slotByte i k = s.slotByte i k := rfl

/-! ### `advanceNow` (R39) -/

@[simp] theorem advanceNow_cfg (n : Nat) (s : State) : (advanceNow n s).cfg = s.cfg := rfl
@[simp] theorem advanceNow_now (n : Nat) (s : State) : (advanceNow n s).now = BitVec.ofNat 64 (s.now.toNat + n) := rfl
@[simp] theorem advanceNow_script (n : Nat) (s : State) : (advanceNow n s).script = s.script := rfl
@[simp] theorem advanceNow_hostReads (n : Nat) (s : State) : (advanceNow n s).hostReads = s.hostReads := rfl
@[simp] theorem advanceNow_ramDraw (n : Nat) (s : State) : (advanceNow n s).ramDraw = s.ramDraw := rfl
@[simp] theorem advanceNow_seg (n : Nat) (s : State) : (advanceNow n s).seg = s.seg := rfl
@[simp] theorem advanceNow_segPlen (n : Nat) (s : State) : (advanceNow n s).segPlen = s.segPlen := rfl
@[simp] theorem advanceNow_pay (n : Nat) (s : State) : (advanceNow n s).pay = s.pay := rfl
@[simp] theorem advanceNow_frm (n : Nat) (s : State) : (advanceNow n s).frm = s.frm := rfl
@[simp] theorem advanceNow_flen (n : Nat) (s : State) : (advanceNow n s).flen = s.flen := rfl
@[simp] theorem advanceNow_csumCalc (n : Nat) (s : State) : (advanceNow n s).csumCalc = s.csumCalc := rfl
@[simp] theorem advanceNow_ckok (n : Nat) (s : State) : (advanceNow n s).ckok = s.ckok := rfl
@[simp] theorem advanceNow_cc (n : Nat) (s : State) : (advanceNow n s).cc = s.cc := rfl
@[simp] theorem advanceNow_rxres (n : Nat) (s : State) : (advanceNow n s).rxres = s.rxres := rfl
@[simp] theorem advanceNow_tpoll (n : Nat) (s : State) : (advanceNow n s).tpoll = s.tpoll := rfl
@[simp] theorem advanceNow_busy (n : Nat) (s : State) : (advanceNow n s).busy = s.busy := rfl
@[simp] theorem advanceNow_esr (n : Nat) (s : State) : (advanceNow n s).esr = s.esr := rfl
@[simp] theorem advanceNow_tstate (n : Nat) (s : State) : (advanceNow n s).tstate = s.tstate := rfl
@[simp] theorem advanceNow_deadline (n : Nat) (s : State) : (advanceNow n s).deadline = s.deadline := rfl
@[simp] theorem advanceNow_tdur (n : Nat) (s : State) : (advanceNow n s).tdur = s.tdur := rfl
@[simp] theorem advanceNow_tdurv (n : Nat) (s : State) : (advanceNow n s).tdurv = s.tdurv := rfl
@[simp] theorem advanceNow_rstate (n : Nat) (s : State) : (advanceNow n s).rstate = s.rstate := rfl
@[simp] theorem advanceNow_expected (n : Nat) (s : State) : (advanceNow n s).expected = s.expected := rfl
@[simp] theorem advanceNow_slots (n : Nat) (s : State) : (advanceNow n s).slots = s.slots := rfl
@[simp] theorem advanceNow_out (n : Nat) (s : State) : (advanceNow n s).out = s.out := rfl
@[simp] theorem advanceNow_outlen (n : Nat) (s : State) : (advanceNow n s).outlen = s.outlen := rfl
@[simp] theorem advanceNow_acktSrcPort (n : Nat) (s : State) : (advanceNow n s).acktSrcPort = s.acktSrcPort := rfl
@[simp] theorem advanceNow_acktDstPort (n : Nat) (s : State) : (advanceNow n s).acktDstPort = s.acktDstPort := rfl
@[simp] theorem advanceNow_acktSeqNum (n : Nat) (s : State) : (advanceNow n s).acktSeqNum = s.acktSeqNum := rfl
@[simp] theorem advanceNow_acktHdrLen (n : Nat) (s : State) : (advanceNow n s).acktHdrLen = s.acktHdrLen := rfl
@[simp] theorem advanceNow_acktRecvWindow (n : Nat) (s : State) : (advanceNow n s).acktRecvWindow = s.acktRecvWindow := rfl
@[simp] theorem advanceNow_ackf (n : Nat) (s : State) : (advanceNow n s).ackf = s.ackf := rfl
@[simp] theorem advanceNow_payByte (n : Nat) (s : State) (k : Nat) : (advanceNow n s).payByte k = s.payByte k := rfl
@[simp] theorem advanceNow_frmByte (n : Nat) (s : State) (k : Nat) : (advanceNow n s).frmByte k = s.frmByte k := rfl
@[simp] theorem advanceNow_slot (n : Nat) (s : State) (i : Nat) : (advanceNow n s).slot i = s.slot i := rfl
@[simp] theorem advanceNow_slotByte (n : Nat) (s : State) (i k : Nat) : (advanceNow n s).slotByte i k = s.slotByte i k := rfl

/-! ### `resetRegisters` (R55) -/

@[simp] theorem resetRegisters_cfg (s : State) : (resetRegisters s).cfg = s.cfg := rfl
@[simp] theorem resetRegisters_now (s : State) : (resetRegisters s).now = s.now := rfl
@[simp] theorem resetRegisters_script (s : State) : (resetRegisters s).script = s.script := rfl
@[simp] theorem resetRegisters_hostReads (s : State) : (resetRegisters s).hostReads = s.hostReads := rfl
@[simp] theorem resetRegisters_ramDraw (s : State) : (resetRegisters s).ramDraw = s.ramDraw := rfl
@[simp] theorem resetRegisters_seg (s : State) : (resetRegisters s).seg = Header.zero := rfl
@[simp] theorem resetRegisters_segPlen (s : State) : (resetRegisters s).segPlen = 0 := rfl
@[simp] theorem resetRegisters_pay (s : State) : (resetRegisters s).pay = s.pay := rfl
@[simp] theorem resetRegisters_frm (s : State) : (resetRegisters s).frm = s.frm := rfl
@[simp] theorem resetRegisters_flen (s : State) : (resetRegisters s).flen = 0 := rfl
@[simp] theorem resetRegisters_csumCalc (s : State) : (resetRegisters s).csumCalc = 0 := rfl
@[simp] theorem resetRegisters_ckok (s : State) : (resetRegisters s).ckok = false := rfl
@[simp] theorem resetRegisters_cc (s : State) : (resetRegisters s).cc = .ok := rfl
@[simp] theorem resetRegisters_rxres (s : State) : (resetRegisters s).rxres = .none := rfl
@[simp] theorem resetRegisters_tpoll (s : State) : (resetRegisters s).tpoll = false := rfl
@[simp] theorem resetRegisters_busy (s : State) : (resetRegisters s).busy = false := rfl
@[simp] theorem resetRegisters_esr (s : State) : (resetRegisters s).esr = 0 := rfl
@[simp] theorem resetRegisters_tstate (s : State) : (resetRegisters s).tstate = .idle := rfl
@[simp] theorem resetRegisters_deadline (s : State) : (resetRegisters s).deadline = 0 := rfl
@[simp] theorem resetRegisters_tdur (s : State) : (resetRegisters s).tdur = 0 := rfl
@[simp] theorem resetRegisters_tdurv (s : State) : (resetRegisters s).tdurv = false := rfl
@[simp] theorem resetRegisters_rstate (s : State) : (resetRegisters s).rstate = .idle := rfl
@[simp] theorem resetRegisters_expected (s : State) : (resetRegisters s).expected = 0 := rfl
@[simp] theorem resetRegisters_slots (s : State) : (resetRegisters s).slots = s.slots := rfl
@[simp] theorem resetRegisters_out (s : State) : (resetRegisters s).out = [] := rfl
@[simp] theorem resetRegisters_outlen (s : State) : (resetRegisters s).outlen = 0 := rfl
@[simp] theorem resetRegisters_acktSrcPort (s : State) : (resetRegisters s).acktSrcPort = 0 := rfl
@[simp] theorem resetRegisters_acktDstPort (s : State) : (resetRegisters s).acktDstPort = 0 := rfl
@[simp] theorem resetRegisters_acktSeqNum (s : State) : (resetRegisters s).acktSeqNum = 0 := rfl
@[simp] theorem resetRegisters_acktHdrLen (s : State) : (resetRegisters s).acktHdrLen = 18 := rfl
@[simp] theorem resetRegisters_acktRecvWindow (s : State) : (resetRegisters s).acktRecvWindow = 0 := rfl
@[simp] theorem resetRegisters_ackf (s : State) : (resetRegisters s).ackf = List.replicate hdrBytes 0 := rfl
@[simp] theorem resetRegisters_payByte (s : State) (k : Nat) : (resetRegisters s).payByte k = s.payByte k := rfl
@[simp] theorem resetRegisters_frmByte (s : State) (k : Nat) : (resetRegisters s).frmByte k = s.frmByte k := rfl
@[simp] theorem resetRegisters_slot (s : State) (i : Nat) : (resetRegisters s).slot i = s.slot i := rfl
@[simp] theorem resetRegisters_slotByte (s : State) (i k : Nat) : (resetRegisters s).slotByte i k = s.slotByte i k := rfl

/-! ### `hardwareReset` (R260) -/

@[simp] theorem hardwareReset_cfg (s : State) : (hardwareReset s).cfg = s.cfg := rfl
@[simp] theorem hardwareReset_now (s : State) : (hardwareReset s).now = s.now := rfl
@[simp] theorem hardwareReset_script (s : State) : (hardwareReset s).script = s.script := rfl
@[simp] theorem hardwareReset_hostReads (s : State) : (hardwareReset s).hostReads = s.hostReads := rfl
@[simp] theorem hardwareReset_ramDraw (s : State) : (hardwareReset s).ramDraw = s.ramDraw + 1 := rfl
@[simp] theorem hardwareReset_seg (s : State) : (hardwareReset s).seg = Header.zero := rfl
@[simp] theorem hardwareReset_segPlen (s : State) : (hardwareReset s).segPlen = 0 := rfl
@[simp] theorem hardwareReset_pay (s : State) : (hardwareReset s).pay = [] := rfl
@[simp] theorem hardwareReset_frm (s : State) : (hardwareReset s).frm = [] := rfl
@[simp] theorem hardwareReset_flen (s : State) : (hardwareReset s).flen = 0 := rfl
@[simp] theorem hardwareReset_csumCalc (s : State) : (hardwareReset s).csumCalc = 0 := rfl
@[simp] theorem hardwareReset_ckok (s : State) : (hardwareReset s).ckok = false := rfl
@[simp] theorem hardwareReset_cc (s : State) : (hardwareReset s).cc = .ok := rfl
@[simp] theorem hardwareReset_rxres (s : State) : (hardwareReset s).rxres = .none := rfl
@[simp] theorem hardwareReset_tpoll (s : State) : (hardwareReset s).tpoll = false := rfl
@[simp] theorem hardwareReset_busy (s : State) : (hardwareReset s).busy = false := rfl
@[simp] theorem hardwareReset_esr (s : State) : (hardwareReset s).esr = 0 := rfl
@[simp] theorem hardwareReset_tstate (s : State) : (hardwareReset s).tstate = .idle := rfl
@[simp] theorem hardwareReset_deadline (s : State) : (hardwareReset s).deadline = 0 := rfl
@[simp] theorem hardwareReset_tdur (s : State) : (hardwareReset s).tdur = 0 := rfl
@[simp] theorem hardwareReset_tdurv (s : State) : (hardwareReset s).tdurv = false := rfl
@[simp] theorem hardwareReset_rstate (s : State) : (hardwareReset s).rstate = .idle := rfl
@[simp] theorem hardwareReset_expected (s : State) : (hardwareReset s).expected = 0 := rfl
@[simp] theorem hardwareReset_slots (s : State) : (hardwareReset s).slots = List.replicate s.cfg.pendSlots Slot.empty := rfl
@[simp] theorem hardwareReset_out (s : State) : (hardwareReset s).out = [] := rfl
@[simp] theorem hardwareReset_outlen (s : State) : (hardwareReset s).outlen = 0 := rfl
@[simp] theorem hardwareReset_acktSrcPort (s : State) : (hardwareReset s).acktSrcPort = 0 := rfl
@[simp] theorem hardwareReset_acktDstPort (s : State) : (hardwareReset s).acktDstPort = 0 := rfl
@[simp] theorem hardwareReset_acktSeqNum (s : State) : (hardwareReset s).acktSeqNum = 0 := rfl
@[simp] theorem hardwareReset_acktHdrLen (s : State) : (hardwareReset s).acktHdrLen = 18 := rfl
@[simp] theorem hardwareReset_acktRecvWindow (s : State) : (hardwareReset s).acktRecvWindow = 0 := rfl
@[simp] theorem hardwareReset_ackf (s : State) : (hardwareReset s).ackf = List.replicate hdrBytes 0 := rfl

/-! ### `writePay` (R84) -/

@[simp] theorem writePay_cfg (i : Nat) (v : Byte) (s : State) : (writePay i v s).cfg = s.cfg := rfl
@[simp] theorem writePay_now (i : Nat) (v : Byte) (s : State) : (writePay i v s).now = s.now := rfl
@[simp] theorem writePay_script (i : Nat) (v : Byte) (s : State) : (writePay i v s).script = s.script := rfl
@[simp] theorem writePay_hostReads (i : Nat) (v : Byte) (s : State) : (writePay i v s).hostReads = s.hostReads := rfl
@[simp] theorem writePay_ramDraw (i : Nat) (v : Byte) (s : State) : (writePay i v s).ramDraw = s.ramDraw := rfl
@[simp] theorem writePay_seg (i : Nat) (v : Byte) (s : State) : (writePay i v s).seg = s.seg := rfl
@[simp] theorem writePay_segPlen (i : Nat) (v : Byte) (s : State) : (writePay i v s).segPlen = s.segPlen := rfl
@[simp] theorem writePay_pay (i : Nat) (v : Byte) (s : State) : (writePay i v s).pay = s.pay.write i v := rfl
@[simp] theorem writePay_frm (i : Nat) (v : Byte) (s : State) : (writePay i v s).frm = s.frm := rfl
@[simp] theorem writePay_flen (i : Nat) (v : Byte) (s : State) : (writePay i v s).flen = s.flen := rfl
@[simp] theorem writePay_csumCalc (i : Nat) (v : Byte) (s : State) : (writePay i v s).csumCalc = s.csumCalc := rfl
@[simp] theorem writePay_ckok (i : Nat) (v : Byte) (s : State) : (writePay i v s).ckok = s.ckok := rfl
@[simp] theorem writePay_cc (i : Nat) (v : Byte) (s : State) : (writePay i v s).cc = s.cc := rfl
@[simp] theorem writePay_rxres (i : Nat) (v : Byte) (s : State) : (writePay i v s).rxres = s.rxres := rfl
@[simp] theorem writePay_tpoll (i : Nat) (v : Byte) (s : State) : (writePay i v s).tpoll = s.tpoll := rfl
@[simp] theorem writePay_busy (i : Nat) (v : Byte) (s : State) : (writePay i v s).busy = s.busy := rfl
@[simp] theorem writePay_esr (i : Nat) (v : Byte) (s : State) : (writePay i v s).esr = s.esr := rfl
@[simp] theorem writePay_tstate (i : Nat) (v : Byte) (s : State) : (writePay i v s).tstate = s.tstate := rfl
@[simp] theorem writePay_deadline (i : Nat) (v : Byte) (s : State) : (writePay i v s).deadline = s.deadline := rfl
@[simp] theorem writePay_tdur (i : Nat) (v : Byte) (s : State) : (writePay i v s).tdur = s.tdur := rfl
@[simp] theorem writePay_tdurv (i : Nat) (v : Byte) (s : State) : (writePay i v s).tdurv = s.tdurv := rfl
@[simp] theorem writePay_rstate (i : Nat) (v : Byte) (s : State) : (writePay i v s).rstate = s.rstate := rfl
@[simp] theorem writePay_expected (i : Nat) (v : Byte) (s : State) : (writePay i v s).expected = s.expected := rfl
@[simp] theorem writePay_slots (i : Nat) (v : Byte) (s : State) : (writePay i v s).slots = s.slots := rfl
@[simp] theorem writePay_out (i : Nat) (v : Byte) (s : State) : (writePay i v s).out = s.out := rfl
@[simp] theorem writePay_outlen (i : Nat) (v : Byte) (s : State) : (writePay i v s).outlen = s.outlen := rfl
@[simp] theorem writePay_acktSrcPort (i : Nat) (v : Byte) (s : State) : (writePay i v s).acktSrcPort = s.acktSrcPort := rfl
@[simp] theorem writePay_acktDstPort (i : Nat) (v : Byte) (s : State) : (writePay i v s).acktDstPort = s.acktDstPort := rfl
@[simp] theorem writePay_acktSeqNum (i : Nat) (v : Byte) (s : State) : (writePay i v s).acktSeqNum = s.acktSeqNum := rfl
@[simp] theorem writePay_acktHdrLen (i : Nat) (v : Byte) (s : State) : (writePay i v s).acktHdrLen = s.acktHdrLen := rfl
@[simp] theorem writePay_acktRecvWindow (i : Nat) (v : Byte) (s : State) : (writePay i v s).acktRecvWindow = s.acktRecvWindow := rfl
@[simp] theorem writePay_ackf (i : Nat) (v : Byte) (s : State) : (writePay i v s).ackf = s.ackf := rfl
@[simp] theorem writePay_frmByte (i : Nat) (v : Byte) (s : State) (k : Nat) : (writePay i v s).frmByte k = s.frmByte k := rfl
@[simp] theorem writePay_slot (i : Nat) (v : Byte) (s : State) (i : Nat) : (writePay i v s).slot i = s.slot i := rfl
@[simp] theorem writePay_slotByte (i : Nat) (v : Byte) (s : State) (i k : Nat) : (writePay i v s).slotByte i k = s.slotByte i k := rfl

/-! ### `writeFrm` (R84) -/

@[simp] theorem writeFrm_cfg (i : Nat) (v : Byte) (s : State) : (writeFrm i v s).cfg = s.cfg := rfl
@[simp] theorem writeFrm_now (i : Nat) (v : Byte) (s : State) : (writeFrm i v s).now = s.now := rfl
@[simp] theorem writeFrm_script (i : Nat) (v : Byte) (s : State) : (writeFrm i v s).script = s.script := rfl
@[simp] theorem writeFrm_hostReads (i : Nat) (v : Byte) (s : State) : (writeFrm i v s).hostReads = s.hostReads := rfl
@[simp] theorem writeFrm_ramDraw (i : Nat) (v : Byte) (s : State) : (writeFrm i v s).ramDraw = s.ramDraw := rfl
@[simp] theorem writeFrm_seg (i : Nat) (v : Byte) (s : State) : (writeFrm i v s).seg = s.seg := rfl
@[simp] theorem writeFrm_segPlen (i : Nat) (v : Byte) (s : State) : (writeFrm i v s).segPlen = s.segPlen := rfl
@[simp] theorem writeFrm_pay (i : Nat) (v : Byte) (s : State) : (writeFrm i v s).pay = s.pay := rfl
@[simp] theorem writeFrm_frm (i : Nat) (v : Byte) (s : State) : (writeFrm i v s).frm = s.frm.write i v := rfl
@[simp] theorem writeFrm_flen (i : Nat) (v : Byte) (s : State) : (writeFrm i v s).flen = s.flen := rfl
@[simp] theorem writeFrm_csumCalc (i : Nat) (v : Byte) (s : State) : (writeFrm i v s).csumCalc = s.csumCalc := rfl
@[simp] theorem writeFrm_ckok (i : Nat) (v : Byte) (s : State) : (writeFrm i v s).ckok = s.ckok := rfl
@[simp] theorem writeFrm_cc (i : Nat) (v : Byte) (s : State) : (writeFrm i v s).cc = s.cc := rfl
@[simp] theorem writeFrm_rxres (i : Nat) (v : Byte) (s : State) : (writeFrm i v s).rxres = s.rxres := rfl
@[simp] theorem writeFrm_tpoll (i : Nat) (v : Byte) (s : State) : (writeFrm i v s).tpoll = s.tpoll := rfl
@[simp] theorem writeFrm_busy (i : Nat) (v : Byte) (s : State) : (writeFrm i v s).busy = s.busy := rfl
@[simp] theorem writeFrm_esr (i : Nat) (v : Byte) (s : State) : (writeFrm i v s).esr = s.esr := rfl
@[simp] theorem writeFrm_tstate (i : Nat) (v : Byte) (s : State) : (writeFrm i v s).tstate = s.tstate := rfl
@[simp] theorem writeFrm_deadline (i : Nat) (v : Byte) (s : State) : (writeFrm i v s).deadline = s.deadline := rfl
@[simp] theorem writeFrm_tdur (i : Nat) (v : Byte) (s : State) : (writeFrm i v s).tdur = s.tdur := rfl
@[simp] theorem writeFrm_tdurv (i : Nat) (v : Byte) (s : State) : (writeFrm i v s).tdurv = s.tdurv := rfl
@[simp] theorem writeFrm_rstate (i : Nat) (v : Byte) (s : State) : (writeFrm i v s).rstate = s.rstate := rfl
@[simp] theorem writeFrm_expected (i : Nat) (v : Byte) (s : State) : (writeFrm i v s).expected = s.expected := rfl
@[simp] theorem writeFrm_slots (i : Nat) (v : Byte) (s : State) : (writeFrm i v s).slots = s.slots := rfl
@[simp] theorem writeFrm_out (i : Nat) (v : Byte) (s : State) : (writeFrm i v s).out = s.out := rfl
@[simp] theorem writeFrm_outlen (i : Nat) (v : Byte) (s : State) : (writeFrm i v s).outlen = s.outlen := rfl
@[simp] theorem writeFrm_acktSrcPort (i : Nat) (v : Byte) (s : State) : (writeFrm i v s).acktSrcPort = s.acktSrcPort := rfl
@[simp] theorem writeFrm_acktDstPort (i : Nat) (v : Byte) (s : State) : (writeFrm i v s).acktDstPort = s.acktDstPort := rfl
@[simp] theorem writeFrm_acktSeqNum (i : Nat) (v : Byte) (s : State) : (writeFrm i v s).acktSeqNum = s.acktSeqNum := rfl
@[simp] theorem writeFrm_acktHdrLen (i : Nat) (v : Byte) (s : State) : (writeFrm i v s).acktHdrLen = s.acktHdrLen := rfl
@[simp] theorem writeFrm_acktRecvWindow (i : Nat) (v : Byte) (s : State) : (writeFrm i v s).acktRecvWindow = s.acktRecvWindow := rfl
@[simp] theorem writeFrm_ackf (i : Nat) (v : Byte) (s : State) : (writeFrm i v s).ackf = s.ackf := rfl
@[simp] theorem writeFrm_payByte (i : Nat) (v : Byte) (s : State) (k : Nat) : (writeFrm i v s).payByte k = s.payByte k := rfl
@[simp] theorem writeFrm_slot (i : Nat) (v : Byte) (s : State) (i : Nat) : (writeFrm i v s).slot i = s.slot i := rfl
@[simp] theorem writeFrm_slotByte (i : Nat) (v : Byte) (s : State) (i k : Nat) : (writeFrm i v s).slotByte i k = s.slotByte i k := rfl

/-! ### `handBack` (R79) -/

@[simp] theorem handBack_cfg (v : Nat) (s : State) : (handBack v s).cfg = s.cfg := rfl
@[simp] theorem handBack_now (v : Nat) (s : State) : (handBack v s).now = s.now := rfl
@[simp] theorem handBack_script (v : Nat) (s : State) : (handBack v s).script = s.script := rfl
@[simp] theorem handBack_hostReads (v : Nat) (s : State) : (handBack v s).hostReads = v :: s.hostReads := rfl
@[simp] theorem handBack_ramDraw (v : Nat) (s : State) : (handBack v s).ramDraw = s.ramDraw := rfl
@[simp] theorem handBack_seg (v : Nat) (s : State) : (handBack v s).seg = s.seg := rfl
@[simp] theorem handBack_segPlen (v : Nat) (s : State) : (handBack v s).segPlen = s.segPlen := rfl
@[simp] theorem handBack_pay (v : Nat) (s : State) : (handBack v s).pay = s.pay := rfl
@[simp] theorem handBack_frm (v : Nat) (s : State) : (handBack v s).frm = s.frm := rfl
@[simp] theorem handBack_flen (v : Nat) (s : State) : (handBack v s).flen = s.flen := rfl
@[simp] theorem handBack_csumCalc (v : Nat) (s : State) : (handBack v s).csumCalc = s.csumCalc := rfl
@[simp] theorem handBack_ckok (v : Nat) (s : State) : (handBack v s).ckok = s.ckok := rfl
@[simp] theorem handBack_cc (v : Nat) (s : State) : (handBack v s).cc = s.cc := rfl
@[simp] theorem handBack_rxres (v : Nat) (s : State) : (handBack v s).rxres = s.rxres := rfl
@[simp] theorem handBack_tpoll (v : Nat) (s : State) : (handBack v s).tpoll = s.tpoll := rfl
@[simp] theorem handBack_busy (v : Nat) (s : State) : (handBack v s).busy = s.busy := rfl
@[simp] theorem handBack_esr (v : Nat) (s : State) : (handBack v s).esr = s.esr := rfl
@[simp] theorem handBack_tstate (v : Nat) (s : State) : (handBack v s).tstate = s.tstate := rfl
@[simp] theorem handBack_deadline (v : Nat) (s : State) : (handBack v s).deadline = s.deadline := rfl
@[simp] theorem handBack_tdur (v : Nat) (s : State) : (handBack v s).tdur = s.tdur := rfl
@[simp] theorem handBack_tdurv (v : Nat) (s : State) : (handBack v s).tdurv = s.tdurv := rfl
@[simp] theorem handBack_rstate (v : Nat) (s : State) : (handBack v s).rstate = s.rstate := rfl
@[simp] theorem handBack_expected (v : Nat) (s : State) : (handBack v s).expected = s.expected := rfl
@[simp] theorem handBack_slots (v : Nat) (s : State) : (handBack v s).slots = s.slots := rfl
@[simp] theorem handBack_out (v : Nat) (s : State) : (handBack v s).out = s.out := rfl
@[simp] theorem handBack_outlen (v : Nat) (s : State) : (handBack v s).outlen = s.outlen := rfl
@[simp] theorem handBack_acktSrcPort (v : Nat) (s : State) : (handBack v s).acktSrcPort = s.acktSrcPort := rfl
@[simp] theorem handBack_acktDstPort (v : Nat) (s : State) : (handBack v s).acktDstPort = s.acktDstPort := rfl
@[simp] theorem handBack_acktSeqNum (v : Nat) (s : State) : (handBack v s).acktSeqNum = s.acktSeqNum := rfl
@[simp] theorem handBack_acktHdrLen (v : Nat) (s : State) : (handBack v s).acktHdrLen = s.acktHdrLen := rfl
@[simp] theorem handBack_acktRecvWindow (v : Nat) (s : State) : (handBack v s).acktRecvWindow = s.acktRecvWindow := rfl
@[simp] theorem handBack_ackf (v : Nat) (s : State) : (handBack v s).ackf = s.ackf := rfl
@[simp] theorem handBack_payByte (v : Nat) (s : State) (k : Nat) : (handBack v s).payByte k = s.payByte k := rfl
@[simp] theorem handBack_frmByte (v : Nat) (s : State) (k : Nat) : (handBack v s).frmByte k = s.frmByte k := rfl
@[simp] theorem handBack_slot (v : Nat) (s : State) (i : Nat) : (handBack v s).slot i = s.slot i := rfl
@[simp] theorem handBack_slotByte (v : Nat) (s : State) (i k : Nat) : (handBack v s).slotByte i k = s.slotByte i k := rfl

/-! ### `evalExpiry` (R171) -/

@[simp] theorem evalExpiry_cfg (s : State) : (evalExpiry s).cfg = s.cfg := by rw [evalExpiry]; split <;> rfl
@[simp] theorem evalExpiry_now (s : State) : (evalExpiry s).now = s.now := by rw [evalExpiry]; split <;> rfl
@[simp] theorem evalExpiry_script (s : State) : (evalExpiry s).script = s.script := by rw [evalExpiry]; split <;> rfl
@[simp] theorem evalExpiry_hostReads (s : State) : (evalExpiry s).hostReads = s.hostReads := by rw [evalExpiry]; split <;> rfl
@[simp] theorem evalExpiry_ramDraw (s : State) : (evalExpiry s).ramDraw = s.ramDraw := by rw [evalExpiry]; split <;> rfl
@[simp] theorem evalExpiry_seg (s : State) : (evalExpiry s).seg = s.seg := by rw [evalExpiry]; split <;> rfl
@[simp] theorem evalExpiry_segPlen (s : State) : (evalExpiry s).segPlen = s.segPlen := by rw [evalExpiry]; split <;> rfl
@[simp] theorem evalExpiry_pay (s : State) : (evalExpiry s).pay = s.pay := by rw [evalExpiry]; split <;> rfl
@[simp] theorem evalExpiry_frm (s : State) : (evalExpiry s).frm = s.frm := by rw [evalExpiry]; split <;> rfl
@[simp] theorem evalExpiry_flen (s : State) : (evalExpiry s).flen = s.flen := by rw [evalExpiry]; split <;> rfl
@[simp] theorem evalExpiry_csumCalc (s : State) : (evalExpiry s).csumCalc = s.csumCalc := by rw [evalExpiry]; split <;> rfl
@[simp] theorem evalExpiry_ckok (s : State) : (evalExpiry s).ckok = s.ckok := by rw [evalExpiry]; split <;> rfl
@[simp] theorem evalExpiry_cc (s : State) : (evalExpiry s).cc = s.cc := by rw [evalExpiry]; split <;> rfl
@[simp] theorem evalExpiry_rxres (s : State) : (evalExpiry s).rxres = s.rxres := by rw [evalExpiry]; split <;> rfl
@[simp] theorem evalExpiry_tpoll (s : State) : (evalExpiry s).tpoll = s.tpoll := by rw [evalExpiry]; split <;> rfl
@[simp] theorem evalExpiry_busy (s : State) : (evalExpiry s).busy = s.busy := by rw [evalExpiry]; split <;> rfl
@[simp] theorem evalExpiry_esr (s : State) : (evalExpiry s).esr = s.esr := by rw [evalExpiry]; split <;> rfl
@[simp] theorem evalExpiry_tstate (s : State) :
    (evalExpiry s).tstate = if s.tstate = .running ∧ s.deadline ≤ s.now then .expired else s.tstate := by
  rw [evalExpiry]; split <;> rfl
@[simp] theorem evalExpiry_deadline (s : State) : (evalExpiry s).deadline = s.deadline := by rw [evalExpiry]; split <;> rfl
@[simp] theorem evalExpiry_tdur (s : State) : (evalExpiry s).tdur = s.tdur := by rw [evalExpiry]; split <;> rfl
@[simp] theorem evalExpiry_tdurv (s : State) : (evalExpiry s).tdurv = s.tdurv := by rw [evalExpiry]; split <;> rfl
@[simp] theorem evalExpiry_rstate (s : State) : (evalExpiry s).rstate = s.rstate := by rw [evalExpiry]; split <;> rfl
@[simp] theorem evalExpiry_expected (s : State) : (evalExpiry s).expected = s.expected := by rw [evalExpiry]; split <;> rfl
@[simp] theorem evalExpiry_slots (s : State) : (evalExpiry s).slots = s.slots := by rw [evalExpiry]; split <;> rfl
@[simp] theorem evalExpiry_out (s : State) : (evalExpiry s).out = s.out := by rw [evalExpiry]; split <;> rfl
@[simp] theorem evalExpiry_outlen (s : State) : (evalExpiry s).outlen = s.outlen := by rw [evalExpiry]; split <;> rfl
@[simp] theorem evalExpiry_acktSrcPort (s : State) : (evalExpiry s).acktSrcPort = s.acktSrcPort := by rw [evalExpiry]; split <;> rfl
@[simp] theorem evalExpiry_acktDstPort (s : State) : (evalExpiry s).acktDstPort = s.acktDstPort := by rw [evalExpiry]; split <;> rfl
@[simp] theorem evalExpiry_acktSeqNum (s : State) : (evalExpiry s).acktSeqNum = s.acktSeqNum := by rw [evalExpiry]; split <;> rfl
@[simp] theorem evalExpiry_acktHdrLen (s : State) : (evalExpiry s).acktHdrLen = s.acktHdrLen := by rw [evalExpiry]; split <;> rfl
@[simp] theorem evalExpiry_acktRecvWindow (s : State) : (evalExpiry s).acktRecvWindow = s.acktRecvWindow := by rw [evalExpiry]; split <;> rfl
@[simp] theorem evalExpiry_ackf (s : State) : (evalExpiry s).ackf = s.ackf := by rw [evalExpiry]; split <;> rfl

/-! ### `armTimer` (R172, R174) -/

@[simp] theorem armTimer_cfg (d : Word) (s : State) : (armTimer d s).cfg = s.cfg := by simp [armTimer]
@[simp] theorem armTimer_now (d : Word) (s : State) : (armTimer d s).now = s.now := by simp [armTimer]
@[simp] theorem armTimer_script (d : Word) (s : State) : (armTimer d s).script = s.script := by simp [armTimer]
@[simp] theorem armTimer_hostReads (d : Word) (s : State) : (armTimer d s).hostReads = s.hostReads := by simp [armTimer]
@[simp] theorem armTimer_ramDraw (d : Word) (s : State) : (armTimer d s).ramDraw = s.ramDraw := by simp [armTimer]
@[simp] theorem armTimer_seg (d : Word) (s : State) : (armTimer d s).seg = s.seg := by simp [armTimer]
@[simp] theorem armTimer_segPlen (d : Word) (s : State) : (armTimer d s).segPlen = s.segPlen := by simp [armTimer]
@[simp] theorem armTimer_pay (d : Word) (s : State) : (armTimer d s).pay = s.pay := by simp [armTimer]
@[simp] theorem armTimer_frm (d : Word) (s : State) : (armTimer d s).frm = s.frm := by simp [armTimer]
@[simp] theorem armTimer_flen (d : Word) (s : State) : (armTimer d s).flen = s.flen := by simp [armTimer]
@[simp] theorem armTimer_csumCalc (d : Word) (s : State) : (armTimer d s).csumCalc = s.csumCalc := by simp [armTimer]
@[simp] theorem armTimer_ckok (d : Word) (s : State) : (armTimer d s).ckok = s.ckok := by simp [armTimer]
@[simp] theorem armTimer_cc (d : Word) (s : State) : (armTimer d s).cc = s.cc := by simp [armTimer]
@[simp] theorem armTimer_rxres (d : Word) (s : State) : (armTimer d s).rxres = s.rxres := by simp [armTimer]
@[simp] theorem armTimer_tpoll (d : Word) (s : State) : (armTimer d s).tpoll = s.tpoll := by simp [armTimer]
@[simp] theorem armTimer_busy (d : Word) (s : State) : (armTimer d s).busy = s.busy := by simp [armTimer]
@[simp] theorem armTimer_esr (d : Word) (s : State) : (armTimer d s).esr = s.esr := by simp [armTimer]
@[simp] theorem armTimer_tstate (d : Word) (s : State) :
    (armTimer d s).tstate = if s.now + zext64 d ≤ s.now then .expired else .running := by
  simp [armTimer]
@[simp] theorem armTimer_deadline (d : Word) (s : State) : (armTimer d s).deadline = s.now + zext64 d := by
  simp [armTimer]
@[simp] theorem armTimer_tdur (d : Word) (s : State) : (armTimer d s).tdur = s.tdur := by simp [armTimer]
@[simp] theorem armTimer_tdurv (d : Word) (s : State) : (armTimer d s).tdurv = s.tdurv := by simp [armTimer]
@[simp] theorem armTimer_rstate (d : Word) (s : State) : (armTimer d s).rstate = s.rstate := by simp [armTimer]
@[simp] theorem armTimer_expected (d : Word) (s : State) : (armTimer d s).expected = s.expected := by simp [armTimer]
@[simp] theorem armTimer_slots (d : Word) (s : State) : (armTimer d s).slots = s.slots := by simp [armTimer]
@[simp] theorem armTimer_out (d : Word) (s : State) : (armTimer d s).out = s.out := by simp [armTimer]
@[simp] theorem armTimer_outlen (d : Word) (s : State) : (armTimer d s).outlen = s.outlen := by simp [armTimer]
@[simp] theorem armTimer_acktSrcPort (d : Word) (s : State) : (armTimer d s).acktSrcPort = s.acktSrcPort := by simp [armTimer]
@[simp] theorem armTimer_acktDstPort (d : Word) (s : State) : (armTimer d s).acktDstPort = s.acktDstPort := by simp [armTimer]
@[simp] theorem armTimer_acktSeqNum (d : Word) (s : State) : (armTimer d s).acktSeqNum = s.acktSeqNum := by simp [armTimer]
@[simp] theorem armTimer_acktHdrLen (d : Word) (s : State) : (armTimer d s).acktHdrLen = s.acktHdrLen := by simp [armTimer]
@[simp] theorem armTimer_acktRecvWindow (d : Word) (s : State) : (armTimer d s).acktRecvWindow = s.acktRecvWindow := by simp [armTimer]
@[simp] theorem armTimer_ackf (d : Word) (s : State) : (armTimer d s).ackf = s.ackf := by simp [armTimer]

/-! ### Two states are equal when their fields are -/

/-- Equality of states, field by field. -/
theorem State.ext_fields {s t : State} 
    (h_cfg : s.cfg = t.cfg)
    (h_now : s.now = t.now)
    (h_script : s.script = t.script)
    (h_hostReads : s.hostReads = t.hostReads)
    (h_ramDraw : s.ramDraw = t.ramDraw)
    (h_seg : s.seg = t.seg)
    (h_segPlen : s.segPlen = t.segPlen)
    (h_pay : s.pay = t.pay)
    (h_frm : s.frm = t.frm)
    (h_flen : s.flen = t.flen)
    (h_csumCalc : s.csumCalc = t.csumCalc)
    (h_ckok : s.ckok = t.ckok)
    (h_cc : s.cc = t.cc)
    (h_rxres : s.rxres = t.rxres)
    (h_tpoll : s.tpoll = t.tpoll)
    (h_busy : s.busy = t.busy)
    (h_esr : s.esr = t.esr)
    (h_tstate : s.tstate = t.tstate)
    (h_deadline : s.deadline = t.deadline)
    (h_tdur : s.tdur = t.tdur)
    (h_tdurv : s.tdurv = t.tdurv)
    (h_rstate : s.rstate = t.rstate)
    (h_expected : s.expected = t.expected)
    (h_slots : s.slots = t.slots)
    (h_out : s.out = t.out)
    (h_outlen : s.outlen = t.outlen)
    (h_acktSrcPort : s.acktSrcPort = t.acktSrcPort)
    (h_acktDstPort : s.acktDstPort = t.acktDstPort)
    (h_acktSeqNum : s.acktSeqNum = t.acktSeqNum)
    (h_acktHdrLen : s.acktHdrLen = t.acktHdrLen)
    (h_acktRecvWindow : s.acktRecvWindow = t.acktRecvWindow)
    (h_ackf : s.ackf = t.ackf) : s = t := by
  cases s
  cases t
  simp_all

end Sys2Proof.Machine
end

