-- ==== Sys2Proof/Laws/Framer.lean ====
section
/-! SUPPORT. What encoding stores in `FRM` and what decoding stores in `SEG` and `PAY`, byte by byte. -/

namespace Sys2Proof.Machine

theorem payBytes_length (s : State) (n : Nat) : (s.payBytes n).length = n := by simp [State.payBytes]

theorem frmBytes_length (s : State) (a n : Nat) : (s.frmBytes a n).length = n := by simp [State.frmBytes]

theorem segFrame_length (s : State) : s.segFrame.length = 18 + s.segPlen.toNat := by
  simp [State.segFrame, payBytes_length, hdrBytes]

theorem segFrame_header (s : State) {k : Nat} (hk : k < 18) : s.segFrame.getD k 0 = s.seg.bytes.getD k 0 := by
  simp only [List.getD_eq_getElem?_getD, State.segFrame]
  rw [List.getElem?_append_left (by simpa [hdrBytes] using hk)]

theorem segFrame_payload (s : State) {k : Nat} (hk : k < s.segPlen.toNat) : s.segFrame.getD (18 + k) 0 = s.payByte k := by
  simp only [List.getD_eq_getElem?_getD, State.segFrame]
  rw [List.getElem?_append_right (by simp [hdrBytes])]
  simp [hdrBytes, State.payBytes, hk]

/-- The length test of the model is the spec's (R156). -/
theorem flenLegal_iff (s : State) : s.flenLegal = true ↔ s.rxLegal := by
  simp only [State.flenLegal, Bool.and_eq_true, decide_eq_true_eq]
  rfl

theorem flenLegal_false (s : State) : s.flenLegal = false ↔ ¬ s.rxLegal := by
  rw [← flenLegal_iff, Bool.not_eq_true]

/-- The length test reads `FLEN` and `FRAME_SIZE` only. -/
theorem rxLegal_congr {s t : State} (hf : t.flen = s.flen) (hc : t.cfg = s.cfg) : t.rxLegal ↔ s.rxLegal := by
  rw [State.rxLegal, State.rxLegal, hf, hc]

@[simp] theorem completed_rxLegal (s : State) : (completed s).rxLegal ↔ s.rxLegal :=
  rxLegal_congr (completed_flen s) (completed_cfg s)

theorem framePlen_lt (s : State) : s.framePlen < 2 ^ 16 := by
  have := s.flen.isLt
  rw [State.framePlen]
  omega

theorem rxLegal_mss {s : State} (h : s.rxLegal) : s.framePlen ≤ s.cfg.mss := by
  have := h.2
  rw [State.framePlen, Config.mss]
  omega

/-- `SEG_PLEN` after decoding (R156). -/
theorem decodeFrame_segPlen_toNat (s : State) : (decodeFrame s).segPlen.toNat = s.flen.toNat - 18 := by
  have := framePlen_lt s
  rw [decodeFrame_segPlen, BitVec.toNat_ofNat, Nat.mod_eq_of_lt this]
  rfl

/-- `PAY` after decoding: `FRM[18..FLEN)`, and the old bytes beyond (R153, R156). -/
theorem decodeFrame_payByte (s : State) (k : Nat) :
    (decodeFrame s).payByte k = if k < s.flen.toNat - 18 then s.frmByte (18 + k) else s.payByte k := by
  rw [State.payByte, decodeFrame_pay, decodeFrame_ramDraw, ramByte_writeBytes, frmBytes_length]
  by_cases h : k < s.flen.toNat - 18
  · rw [if_pos h, if_pos (by simp only [State.framePlen, hdrBytes]; omega)]
    simp only [List.getD_eq_getElem?_getD, State.frmBytes]
    rw [List.getElem?_map, List.getElem?_range (by simp only [State.framePlen, hdrBytes]; omega)]
    rfl
  · rw [if_neg h, if_neg (by simp only [State.framePlen, hdrBytes]; omega), State.payByte]

/-- `SEG` after decoding (R156). -/
theorem decodeFrame_rxHeader (s : State) : (decodeFrame s).seg = s.rxHeader := rfl

/-- The checksum that `RSM.RX` and `FRM.DEC` with `CSUM.CHK` compute over a decoded frame (R196). -/
theorem decodeFrame_segChecksum (s : State) : (decodeFrame s).segChecksum = s.rxChecksum := by
  rw [segChecksum_eq, decodeFrame_rxHeader, decodeFrame_segPlen_toNat, State.rxChecksum]
  apply complementSum_congr
  intro k hk
  rw [decodeFrame_payByte, if_pos hk]

/-- `FRM` after encoding: the frame, then the old bytes (R151, R153). -/
theorem encodeFrame_frmByte (s : State) (k : Nat) :
    (encodeFrame s).frmByte k = if k < 18 + s.segPlen.toNat then s.segFrame.getD k 0 else s.frmByte k := by
  rw [State.frmByte, encodeFrame_frm, encodeFrame_ramDraw, ramByte_writeBytes, segFrame_length, State.frmByte]
  simp

theorem encodeFrame_header (s : State) {k : Nat} (hk : k < 18) : (encodeFrame s).frmByte k = s.seg.bytes.getD k 0 := by
  rw [encodeFrame_frmByte, if_pos (by omega), segFrame_header s hk]

theorem encodeFrame_payload (s : State) {k : Nat} (hk : k < s.segPlen.toNat) :
    (encodeFrame s).frmByte (18 + k) = s.payByte k := by
  rw [encodeFrame_frmByte, if_pos (by omega), segFrame_payload s hk]

/-- `FLEN` after encoding a payload that a frame can hold (R151). -/
theorem encodeFrame_flen_toNat {s : State} (hc : s.cfg.ok = true) (h : s.segPlen.toNat ≤ s.cfg.mss) :
    (encodeFrame s).flen.toNat = 18 + s.segPlen.toNat := by
  have := Config.ok_bounds hc
  rw [encodeFrame_flen, BitVec.toNat_ofNat, hdrBytes]
  omega

/-- An encoded frame is legal (R110, R151). -/
theorem encodeFrame_rxLegal {s : State} (hc : s.cfg.ok = true) (h : s.segPlen.toNat ≤ s.cfg.mss) : (encodeFrame s).rxLegal := by
  have := Config.ok_bounds hc
  have := encodeFrame_flen_toNat hc h
  refine ⟨by omega, ?_⟩
  rw [encodeFrame_cfg]
  omega

end Sys2Proof.Machine
end

