-- ==== Sys2Proof/Laws/Exec.lean ====
section
/-! SUPPORT. Every command, once: the state it answers with, and when. -/

namespace Sys2Proof.Machine

@[simp] theorem exec_sysNop (s : State) : exec .sysNop s = .next (completed s) := rfl

@[simp] theorem exec_sysReset (s : State) : exec .sysReset s = .next (completed (freeAll (resetRegisters s))) := rfl

theorem exec_csumGen {s : State} (h : s.segPlen.toNat ≤ s.cfg.mss) :
    exec .csumGen s = .next (completed (generateChecksum s)) := by
  simp only [exec, execCsumGen, if_neg (Nat.not_lt.2 h), done]

theorem exec_csumGen_error {s : State} (h : s.cfg.mss < s.segPlen.toNat) :
    exec .csumGen s = .next (raised .encodingError s) := by
  simp only [exec, execCsumGen, if_pos h, raise]

theorem exec_csumChk {s : State} (h : s.segPlen.toNat ≤ s.cfg.mss) :
    exec .csumChk s = .next (completed (checkSegment s)) := by
  simp only [exec, execCsumChk, if_neg (Nat.not_lt.2 h), done]

theorem exec_csumChk_error {s : State} (h : s.cfg.mss < s.segPlen.toNat) :
    exec .csumChk s = .next (raised .encodingError s) := by
  simp only [exec, execCsumChk, if_pos h, raise]

theorem exec_frmEnc {s : State} (h : s.segPlen.toNat ≤ s.cfg.mss) :
    exec .frmEnc s = .next (completed (encodeFrame s)) := by
  simp only [exec, execFrmEnc, if_neg (Nat.not_lt.2 h), done]

theorem exec_frmEnc_error {s : State} (h : s.cfg.mss < s.segPlen.toNat) :
    exec .frmEnc s = .next (raised .encodingError s) := by
  simp only [exec, execFrmEnc, if_pos h, raise]

theorem exec_frmDec {s : State} (h : s.rxLegal) : exec .frmDec s = .next (completed (clearCkok (decodeFrame s))) := by
  simp only [exec, execFrmDec, (flenLegal_iff s).2 h, Bool.true_eq_false, if_false, done]

theorem exec_frmDec_error {s : State} (h : ¬ s.rxLegal) : exec .frmDec s = .next (raised .decodingError s) := by
  simp only [exec, execFrmDec, (flenLegal_false s).2 h, if_true, raise]

@[simp] theorem exec_tmrStart (d : Word) (s : State) :
    exec (.tmrStart d) s = .next (completed (armTimer d (recordDuration d s))) := rfl

theorem exec_tmrRestart {s : State} (h : s.tdurv = true) : exec .tmrRestart s = .next (completed (armTimer s.tdur s)) := by
  simp only [exec, execTmrRestart, h, Bool.true_eq_false, if_false, done]

theorem exec_tmrRestart_error {s : State} (h : s.tdurv = false) : exec .tmrRestart s = .next (raised .tmrNoDuration s) := by
  simp only [exec, execTmrRestart, h, if_true, raise]

@[simp] theorem exec_tmrStop (s : State) : exec .tmrStop s = .next (completed (disarmTimer s)) := rfl

@[simp] theorem exec_tmrPoll (s : State) : exec .tmrPoll s = .next (completed (recordPoll s)) := rfl

@[simp] theorem exec_rsmInit (x : Word) (s : State) : exec (.rsmInit x) s = .next (completed (openStream x (freeAll s))) := rfl

theorem exec_rsmRx {s : State} (h : s.rstate ≠ .idle) :
    exec .rsmRx s = .next (completed (finishRx (classifyAndApply s))) := by
  simp only [exec, execRsmRx, if_neg h, done]

theorem exec_rsmRx_error {s : State} (h : s.rstate = .idle) : exec .rsmRx s = .next (raised .rsmInactive s) := by
  simp only [exec, execRsmRx, if_pos h, raise]

/-- What a command leaves: its error's record, or its effect with `CC` at `OK`. -/
theorem exec_cases (i : Instr) (s : State) :
    (∃ c, c ≠ .ok ∧ exec i s = .next (raised c s)) ∨ ∃ t, exec i s = .next (completed t) := by
  cases i <;> simp only [exec, execSysNop, execCsumGen, execCsumChk, execFrmEnc, execFrmDec, execTmrStart, execTmrRestart,
    execTmrStop, execTmrPoll, execRsmInit, execRsmRx, execSysReset]
  all_goals (try split)
  all_goals first
    | exact .inr ⟨_, rfl⟩
    | exact .inl ⟨_, by decide, rfl⟩

end Sys2Proof.Machine
end

