-- ==== Sys2Proof/Laws/PerInstr.lean ====
section
/-! SUPPORT. One family of facts for every command: its word has the row's match under the row's mask (R103), and the two
fields of its word are its opcode and its operand (R100, R101). -/

namespace Sys2Proof.Laws.Row

/-- The word of a command, its two fields, and its row of R103. -/
def Statement (i : Instr) : Prop :=
  encode i &&& i.rowMask = i.rowMatch ∧ opcodeField (encode i) = i.opcode ∧ immField (encode i) = i.imm

theorem sysNop : Statement .sysNop := by
  unfold Statement
  decide

theorem csumGen : Statement .csumGen := by
  unfold Statement
  decide

theorem csumChk : Statement .csumChk := by
  unfold Statement
  decide

theorem frmEnc : Statement .frmEnc := by
  unfold Statement
  decide

theorem frmDec : Statement .frmDec := by
  unfold Statement
  decide

/-- The mask of a format `I` row keeps the opcode and drops the operand (R103). -/
theorem masked_word (op : Byte) (d : Word) : cmdWord op d &&& 0xFF00000000 = cmdWord op 0 := by
  apply BitVec.eq_of_getLsbD_eq
  intro k hk
  simp only [cmdWord, BitVec.getLsbD_and, BitVec.getLsbD_append]
  by_cases h : k < 32
  · have : (0xFF00000000#40).getLsbD k = false := by interval_cases k <;> rfl
    simp [h, this]
  · have : (0xFF00000000#40).getLsbD k = true := by interval_cases k <;> rfl
    simp [h, this]

theorem tmrStart (d : Word) : Statement (.tmrStart d) :=
  ⟨masked_word 0x20 d, opcodeField_cmdWord _ _, immField_cmdWord _ _⟩

theorem tmrRestart : Statement .tmrRestart := by
  unfold Statement
  decide

theorem tmrStop : Statement .tmrStop := by
  unfold Statement
  decide

theorem tmrPoll : Statement .tmrPoll := by
  unfold Statement
  decide

theorem rsmInit (x : Word) : Statement (.rsmInit x) :=
  ⟨masked_word 0x30 x, opcodeField_cmdWord _ _, immField_cmdWord _ _⟩

theorem rsmRx : Statement .rsmRx := by
  unfold Statement
  decide

theorem sysReset : Statement .sysReset := by
  unfold Statement
  decide

end Sys2Proof.Laws.Row
end

