-- ==== Sys2Proof/Laws/Reassembly.lean ====
section
/-! SUPPORT. `RSM.RX`: what the merging loop and the outcome procedure leave, the loop's rounds, and which outcome comes when. -/

namespace Sys2Proof.Machine

/-! ### Frames -/

/-- Merging writes the stream and the slot file only (R203). -/
theorem merge_frame (k : Nat) (fin : Bool) (s : State) :
    (merge k fin s).2 = { s with
      out := (merge k fin s).2.out, outlen := (merge k fin s).2.outlen
      expected := (merge k fin s).2.expected, slots := (merge k fin s).2.slots } := by
  induction k generalizing fin s with
  | zero => rfl
  | succ k ih =>
    simp only [merge]
    split
    · rfl
    · split
      · rfl
      · exact ih _ _

theorem merge_slots_length (k : Nat) (fin : Bool) (s : State) : (merge k fin s).2.slots.length = s.slots.length := by
  induction k generalizing fin s with
  | zero => rfl
  | succ k ih =>
    simp only [merge]
    split
    · rfl
    · split
      · rfl
      · rw [ih]
        simp [mergeSlot]

@[simp] theorem merge_cfg (k : Nat) (fin : Bool) (s : State) : (merge k fin s).2.cfg = s.cfg := by
  rw [merge_frame]
@[simp] theorem merge_now (k : Nat) (fin : Bool) (s : State) : (merge k fin s).2.now = s.now := by
  rw [merge_frame]
@[simp] theorem merge_script (k : Nat) (fin : Bool) (s : State) : (merge k fin s).2.script = s.script := by
  rw [merge_frame]
@[simp] theorem merge_hostReads (k : Nat) (fin : Bool) (s : State) : (merge k fin s).2.hostReads = s.hostReads := by
  rw [merge_frame]
@[simp] theorem merge_ramDraw (k : Nat) (fin : Bool) (s : State) : (merge k fin s).2.ramDraw = s.ramDraw := by
  rw [merge_frame]
@[simp] theorem merge_seg (k : Nat) (fin : Bool) (s : State) : (merge k fin s).2.seg = s.seg := by
  rw [merge_frame]
@[simp] theorem merge_segPlen (k : Nat) (fin : Bool) (s : State) : (merge k fin s).2.segPlen = s.segPlen := by
  rw [merge_frame]
@[simp] theorem merge_pay (k : Nat) (fin : Bool) (s : State) : (merge k fin s).2.pay = s.pay := by
  rw [merge_frame]
@[simp] theorem merge_frm (k : Nat) (fin : Bool) (s : State) : (merge k fin s).2.frm = s.frm := by
  rw [merge_frame]
@[simp] theorem merge_flen (k : Nat) (fin : Bool) (s : State) : (merge k fin s).2.flen = s.flen := by
  rw [merge_frame]
@[simp] theorem merge_csumCalc (k : Nat) (fin : Bool) (s : State) : (merge k fin s).2.csumCalc = s.csumCalc := by
  rw [merge_frame]
@[simp] theorem merge_ckok (k : Nat) (fin : Bool) (s : State) : (merge k fin s).2.ckok = s.ckok := by
  rw [merge_frame]
@[simp] theorem merge_cc (k : Nat) (fin : Bool) (s : State) : (merge k fin s).2.cc = s.cc := by
  rw [merge_frame]
@[simp] theorem merge_rxres (k : Nat) (fin : Bool) (s : State) : (merge k fin s).2.rxres = s.rxres := by
  rw [merge_frame]
@[simp] theorem merge_tpoll (k : Nat) (fin : Bool) (s : State) : (merge k fin s).2.tpoll = s.tpoll := by
  rw [merge_frame]
@[simp] theorem merge_busy (k : Nat) (fin : Bool) (s : State) : (merge k fin s).2.busy = s.busy := by
  rw [merge_frame]
@[simp] theorem merge_esr (k : Nat) (fin : Bool) (s : State) : (merge k fin s).2.esr = s.esr := by
  rw [merge_frame]
@[simp] theorem merge_tstate (k : Nat) (fin : Bool) (s : State) : (merge k fin s).2.tstate = s.tstate := by
  rw [merge_frame]
@[simp] theorem merge_deadline (k : Nat) (fin : Bool) (s : State) : (merge k fin s).2.deadline = s.deadline := by
  rw [merge_frame]
@[simp] theorem merge_tdur (k : Nat) (fin : Bool) (s : State) : (merge k fin s).2.tdur = s.tdur := by
  rw [merge_frame]
@[simp] theorem merge_tdurv (k : Nat) (fin : Bool) (s : State) : (merge k fin s).2.tdurv = s.tdurv := by
  rw [merge_frame]
@[simp] theorem merge_rstate (k : Nat) (fin : Bool) (s : State) : (merge k fin s).2.rstate = s.rstate := by
  rw [merge_frame]
@[simp] theorem merge_acktSrcPort (k : Nat) (fin : Bool) (s : State) : (merge k fin s).2.acktSrcPort = s.acktSrcPort := by
  rw [merge_frame]
@[simp] theorem merge_acktDstPort (k : Nat) (fin : Bool) (s : State) : (merge k fin s).2.acktDstPort = s.acktDstPort := by
  rw [merge_frame]
@[simp] theorem merge_acktSeqNum (k : Nat) (fin : Bool) (s : State) : (merge k fin s).2.acktSeqNum = s.acktSeqNum := by
  rw [merge_frame]
@[simp] theorem merge_acktHdrLen (k : Nat) (fin : Bool) (s : State) : (merge k fin s).2.acktHdrLen = s.acktHdrLen := by
  rw [merge_frame]
@[simp] theorem merge_acktRecvWindow (k : Nat) (fin : Bool) (s : State) : (merge k fin s).2.acktRecvWindow = s.acktRecvWindow := by
  rw [merge_frame]
@[simp] theorem merge_ackf (k : Nat) (fin : Bool) (s : State) : (merge k fin s).2.ackf = s.ackf := by
  rw [merge_frame]

/-- A valid segment in an open stream writes the stream, `RSTATE` and the slot file only (R195, R201 to R206). -/
theorem applySegment_frame (s : State) :
    (applySegment s).2 = { s with
      rstate := (applySegment s).2.rstate, out := (applySegment s).2.out, outlen := (applySegment s).2.outlen
      expected := (applySegment s).2.expected, slots := (applySegment s).2.slots } := by
  simp only [applySegment]
  split
  · rfl
  · split
    · simp only [accept]
      split
      · apply State.ext_fields <;> simp
      · apply State.ext_fields <;> simp
    · simp only [bufferSegment]
      split
      · rfl
      · split <;> rfl

theorem applySegment_slots_length (s : State) : (applySegment s).2.slots.length = s.slots.length := by
  simp only [applySegment]
  split
  · rfl
  · split
    · simp only [accept]
      split <;> simp [merge_slots_length]
    · simp only [bufferSegment]
      split
      · rfl
      · split <;> simp

@[simp] theorem applySegment_cfg (s : State) : (applySegment s).2.cfg = s.cfg := by
  rw [applySegment_frame]
@[simp] theorem applySegment_now (s : State) : (applySegment s).2.now = s.now := by
  rw [applySegment_frame]
@[simp] theorem applySegment_script (s : State) : (applySegment s).2.script = s.script := by
  rw [applySegment_frame]
@[simp] theorem applySegment_hostReads (s : State) : (applySegment s).2.hostReads = s.hostReads := by
  rw [applySegment_frame]
@[simp] theorem applySegment_ramDraw (s : State) : (applySegment s).2.ramDraw = s.ramDraw := by
  rw [applySegment_frame]
@[simp] theorem applySegment_seg (s : State) : (applySegment s).2.seg = s.seg := by
  rw [applySegment_frame]
@[simp] theorem applySegment_segPlen (s : State) : (applySegment s).2.segPlen = s.segPlen := by
  rw [applySegment_frame]
@[simp] theorem applySegment_pay (s : State) : (applySegment s).2.pay = s.pay := by
  rw [applySegment_frame]
@[simp] theorem applySegment_frm (s : State) : (applySegment s).2.frm = s.frm := by
  rw [applySegment_frame]
@[simp] theorem applySegment_flen (s : State) : (applySegment s).2.flen = s.flen := by
  rw [applySegment_frame]
@[simp] theorem applySegment_csumCalc (s : State) : (applySegment s).2.csumCalc = s.csumCalc := by
  rw [applySegment_frame]
@[simp] theorem applySegment_ckok (s : State) : (applySegment s).2.ckok = s.ckok := by
  rw [applySegment_frame]
@[simp] theorem applySegment_cc (s : State) : (applySegment s).2.cc = s.cc := by
  rw [applySegment_frame]
@[simp] theorem applySegment_rxres (s : State) : (applySegment s).2.rxres = s.rxres := by
  rw [applySegment_frame]
@[simp] theorem applySegment_tpoll (s : State) : (applySegment s).2.tpoll = s.tpoll := by
  rw [applySegment_frame]
@[simp] theorem applySegment_busy (s : State) : (applySegment s).2.busy = s.busy := by
  rw [applySegment_frame]
@[simp] theorem applySegment_esr (s : State) : (applySegment s).2.esr = s.esr := by
  rw [applySegment_frame]
@[simp] theorem applySegment_tstate (s : State) : (applySegment s).2.tstate = s.tstate := by
  rw [applySegment_frame]
@[simp] theorem applySegment_deadline (s : State) : (applySegment s).2.deadline = s.deadline := by
  rw [applySegment_frame]
@[simp] theorem applySegment_tdur (s : State) : (applySegment s).2.tdur = s.tdur := by
  rw [applySegment_frame]
@[simp] theorem applySegment_tdurv (s : State) : (applySegment s).2.tdurv = s.tdurv := by
  rw [applySegment_frame]
@[simp] theorem applySegment_acktSrcPort (s : State) : (applySegment s).2.acktSrcPort = s.acktSrcPort := by
  rw [applySegment_frame]
@[simp] theorem applySegment_acktDstPort (s : State) : (applySegment s).2.acktDstPort = s.acktDstPort := by
  rw [applySegment_frame]
@[simp] theorem applySegment_acktSeqNum (s : State) : (applySegment s).2.acktSeqNum = s.acktSeqNum := by
  rw [applySegment_frame]
@[simp] theorem applySegment_acktHdrLen (s : State) : (applySegment s).2.acktHdrLen = s.acktHdrLen := by
  rw [applySegment_frame]
@[simp] theorem applySegment_acktRecvWindow (s : State) : (applySegment s).2.acktRecvWindow = s.acktRecvWindow := by
  rw [applySegment_frame]
@[simp] theorem applySegment_ackf (s : State) : (applySegment s).2.ackf = s.ackf := by
  rw [applySegment_frame]

@[simp] theorem classifyAndApply_cfg (s : State) : (classifyAndApply s).2.cfg = s.cfg := by
  simp only [classifyAndApply]; split <;> (try split) <;> (try split) <;> simp
@[simp] theorem classifyAndApply_now (s : State) : (classifyAndApply s).2.now = s.now := by
  simp only [classifyAndApply]; split <;> (try split) <;> (try split) <;> simp
@[simp] theorem classifyAndApply_script (s : State) : (classifyAndApply s).2.script = s.script := by
  simp only [classifyAndApply]; split <;> (try split) <;> (try split) <;> simp
@[simp] theorem classifyAndApply_hostReads (s : State) : (classifyAndApply s).2.hostReads = s.hostReads := by
  simp only [classifyAndApply]; split <;> (try split) <;> (try split) <;> simp
@[simp] theorem classifyAndApply_ramDraw (s : State) : (classifyAndApply s).2.ramDraw = s.ramDraw := by
  simp only [classifyAndApply]; split <;> (try split) <;> (try split) <;> simp
@[simp] theorem classifyAndApply_frm (s : State) : (classifyAndApply s).2.frm = s.frm := by
  simp only [classifyAndApply]; split <;> (try split) <;> (try split) <;> simp
@[simp] theorem classifyAndApply_flen (s : State) : (classifyAndApply s).2.flen = s.flen := by
  simp only [classifyAndApply]; split <;> (try split) <;> (try split) <;> simp
@[simp] theorem classifyAndApply_cc (s : State) : (classifyAndApply s).2.cc = s.cc := by
  simp only [classifyAndApply]; split <;> (try split) <;> (try split) <;> simp
@[simp] theorem classifyAndApply_rxres (s : State) : (classifyAndApply s).2.rxres = s.rxres := by
  simp only [classifyAndApply]; split <;> (try split) <;> (try split) <;> simp
@[simp] theorem classifyAndApply_tpoll (s : State) : (classifyAndApply s).2.tpoll = s.tpoll := by
  simp only [classifyAndApply]; split <;> (try split) <;> (try split) <;> simp
@[simp] theorem classifyAndApply_busy (s : State) : (classifyAndApply s).2.busy = s.busy := by
  simp only [classifyAndApply]; split <;> (try split) <;> (try split) <;> simp
@[simp] theorem classifyAndApply_esr (s : State) : (classifyAndApply s).2.esr = s.esr := by
  simp only [classifyAndApply]; split <;> (try split) <;> (try split) <;> simp
@[simp] theorem classifyAndApply_tstate (s : State) : (classifyAndApply s).2.tstate = s.tstate := by
  simp only [classifyAndApply]; split <;> (try split) <;> (try split) <;> simp
@[simp] theorem classifyAndApply_deadline (s : State) : (classifyAndApply s).2.deadline = s.deadline := by
  simp only [classifyAndApply]; split <;> (try split) <;> (try split) <;> simp
@[simp] theorem classifyAndApply_tdur (s : State) : (classifyAndApply s).2.tdur = s.tdur := by
  simp only [classifyAndApply]; split <;> (try split) <;> (try split) <;> simp
@[simp] theorem classifyAndApply_tdurv (s : State) : (classifyAndApply s).2.tdurv = s.tdurv := by
  simp only [classifyAndApply]; split <;> (try split) <;> (try split) <;> simp
@[simp] theorem classifyAndApply_acktSrcPort (s : State) : (classifyAndApply s).2.acktSrcPort = s.acktSrcPort := by
  simp only [classifyAndApply]; split <;> (try split) <;> (try split) <;> simp
@[simp] theorem classifyAndApply_acktDstPort (s : State) : (classifyAndApply s).2.acktDstPort = s.acktDstPort := by
  simp only [classifyAndApply]; split <;> (try split) <;> (try split) <;> simp
@[simp] theorem classifyAndApply_acktSeqNum (s : State) : (classifyAndApply s).2.acktSeqNum = s.acktSeqNum := by
  simp only [classifyAndApply]; split <;> (try split) <;> (try split) <;> simp
@[simp] theorem classifyAndApply_acktHdrLen (s : State) : (classifyAndApply s).2.acktHdrLen = s.acktHdrLen := by
  simp only [classifyAndApply]; split <;> (try split) <;> (try split) <;> simp
@[simp] theorem classifyAndApply_acktRecvWindow (s : State) : (classifyAndApply s).2.acktRecvWindow = s.acktRecvWindow := by
  simp only [classifyAndApply]; split <;> (try split) <;> (try split) <;> simp
@[simp] theorem classifyAndApply_ackf (s : State) : (classifyAndApply s).2.ackf = s.ackf := by
  simp only [classifyAndApply]; split <;> (try split) <;> (try split) <;> simp

theorem classifyAndApply_slots_length (s : State) : (classifyAndApply s).2.slots.length = s.slots.length := by
  simp only [classifyAndApply]; split <;> (try split) <;> (try split) <;> simp [applySegment_slots_length]

/-! ### The end of `RSM.RX` (R195) -/

@[simp] theorem finishRx_cfg (r : RxResult × State) : (finishRx r).cfg = r.2.cfg := rfl
@[simp] theorem finishRx_now (r : RxResult × State) : (finishRx r).now = r.2.now := rfl
@[simp] theorem finishRx_script (r : RxResult × State) : (finishRx r).script = r.2.script := rfl
@[simp] theorem finishRx_hostReads (r : RxResult × State) : (finishRx r).hostReads = r.2.hostReads := rfl
@[simp] theorem finishRx_ramDraw (r : RxResult × State) : (finishRx r).ramDraw = r.2.ramDraw := rfl
@[simp] theorem finishRx_seg (r : RxResult × State) : (finishRx r).seg = r.2.seg := rfl
@[simp] theorem finishRx_segPlen (r : RxResult × State) : (finishRx r).segPlen = r.2.segPlen := rfl
@[simp] theorem finishRx_pay (r : RxResult × State) : (finishRx r).pay = r.2.pay := rfl
@[simp] theorem finishRx_frm (r : RxResult × State) : (finishRx r).frm = r.2.frm := rfl
@[simp] theorem finishRx_flen (r : RxResult × State) : (finishRx r).flen = r.2.flen := rfl
@[simp] theorem finishRx_csumCalc (r : RxResult × State) : (finishRx r).csumCalc = r.2.csumCalc := rfl
@[simp] theorem finishRx_ckok (r : RxResult × State) : (finishRx r).ckok = r.2.ckok := rfl
@[simp] theorem finishRx_cc (r : RxResult × State) : (finishRx r).cc = r.2.cc := rfl
@[simp] theorem finishRx_rxres (r : RxResult × State) : (finishRx r).rxres = r.1 := rfl
@[simp] theorem finishRx_tpoll (r : RxResult × State) : (finishRx r).tpoll = r.2.tpoll := rfl
@[simp] theorem finishRx_busy (r : RxResult × State) : (finishRx r).busy = r.2.busy := rfl
@[simp] theorem finishRx_esr (r : RxResult × State) : (finishRx r).esr = r.2.esr ||| r.1.esrMask := rfl
@[simp] theorem finishRx_tstate (r : RxResult × State) : (finishRx r).tstate = r.2.tstate := rfl
@[simp] theorem finishRx_deadline (r : RxResult × State) : (finishRx r).deadline = r.2.deadline := rfl
@[simp] theorem finishRx_tdur (r : RxResult × State) : (finishRx r).tdur = r.2.tdur := rfl
@[simp] theorem finishRx_tdurv (r : RxResult × State) : (finishRx r).tdurv = r.2.tdurv := rfl
@[simp] theorem finishRx_rstate (r : RxResult × State) : (finishRx r).rstate = r.2.rstate := rfl
@[simp] theorem finishRx_expected (r : RxResult × State) : (finishRx r).expected = r.2.expected := rfl
@[simp] theorem finishRx_slots (r : RxResult × State) : (finishRx r).slots = r.2.slots := rfl
@[simp] theorem finishRx_out (r : RxResult × State) : (finishRx r).out = r.2.out := rfl
@[simp] theorem finishRx_outlen (r : RxResult × State) : (finishRx r).outlen = r.2.outlen := rfl
@[simp] theorem finishRx_acktSrcPort (r : RxResult × State) : (finishRx r).acktSrcPort = r.2.acktSrcPort := rfl
@[simp] theorem finishRx_acktDstPort (r : RxResult × State) : (finishRx r).acktDstPort = r.2.acktDstPort := rfl
@[simp] theorem finishRx_acktSeqNum (r : RxResult × State) : (finishRx r).acktSeqNum = r.2.acktSeqNum := rfl
@[simp] theorem finishRx_acktHdrLen (r : RxResult × State) : (finishRx r).acktHdrLen = r.2.acktHdrLen := rfl
@[simp] theorem finishRx_acktRecvWindow (r : RxResult × State) : (finishRx r).acktRecvWindow = r.2.acktRecvWindow := rfl
@[simp] theorem finishRx_ackf (r : RxResult × State) : (finishRx r).ackf = r.2.ackFrame := rfl
@[simp] theorem finishRx_payByte (r : RxResult × State) (k : Nat) : (finishRx r).payByte k = r.2.payByte k := rfl
@[simp] theorem finishRx_slot (r : RxResult × State) (i : Nat) : (finishRx r).slot i = r.2.slot i := rfl
@[simp] theorem finishRx_slotByte (r : RxResult × State) (i k : Nat) : (finishRx r).slotByte i k = r.2.slotByte i k := rfl

/-! ### Slots -/

/-- The slot list holds an entry exactly at the offset where the match finds one (R203, R205). -/
theorem pendingAt_none (off : Word) (slots : List Slot) :
    pendingAt off slots = none ↔ ¬ ∃ t ∈ slots, t.v = true ∧ t.off = off := by
  simp only [pendingAt, List.findIdx?_eq_none_iff, Bool.and_eq_false_iff, eq32]
  constructor
  · rintro h ⟨t, ht, hv, rfl⟩
    rcases h t ht with h | h
    · rw [hv] at h
      cases h
    · simp at h
  · intro h t ht
    by_cases hv : t.v = true
    · right
      rw [beq_eq_false_iff_ne]
      exact fun ho => h ⟨t, ht, hv, ho⟩
    · left
      simpa using hv

/-- A match is a valid slot at the offset (R203). -/
theorem pendingAt_some {off : Word} {slots : List Slot} {i : Nat} (h : pendingAt off slots = some i) :
    ∃ u, slots[i]? = some u ∧ u.v = true ∧ u.off = off := by
  rw [pendingAt, List.findIdx?_eq_some_iff_getElem] at h
  obtain ⟨hi, hp, _⟩ := h
  simp only [Bool.and_eq_true, eq32_iff] at hp
  exact ⟨_, List.getElem?_eq_getElem hi, hp.1, hp.2⟩

/-- No slot is free exactly when none is found (R205). -/
theorem firstFree_none (slots : List Slot) : firstFree slots = none ↔ ¬ ∃ t ∈ slots, t.v = false := by
  simp only [firstFree, List.findIdx?_eq_none_iff, Bool.not_eq_false']
  constructor
  · rintro h ⟨t, ht, hv⟩
    rw [h t ht] at hv
    cases hv
  · intro h t ht
    by_contra hv
    exact h ⟨t, ht, by simpa using hv⟩

/-- The slot found is free, and every slot before it is valid (R205). -/
theorem firstFree_some {slots : List Slot} {i : Nat} :
    firstFree slots = some i ↔
      ∃ u, slots[i]? = some u ∧ u.v = false ∧ ∀ (j : Nat) (w : Slot), j < i → slots[j]? = some w → w.v = true := by
  rw [firstFree, List.findIdx?_eq_some_iff_getElem]
  constructor
  · rintro ⟨hi, hp, hl⟩
    refine ⟨_, List.getElem?_eq_getElem hi, by simpa using hp, ?_⟩
    intro j w hj hw
    obtain ⟨hj', rfl⟩ := List.getElem?_eq_some_iff.1 hw
    simpa using hl j hj
  · rintro ⟨u, hu, hv, hl⟩
    obtain ⟨hi, rfl⟩ := List.getElem?_eq_some_iff.1 hu
    refine ⟨hi, by simpa using hv, ?_⟩
    intro j hj
    simpa using hl j _ hj (List.getElem?_eq_getElem (by omega))

theorem slot_of_getElem? {s : State} {i : Nat} {u : Slot} (h : s.slots[i]? = some u) : s.slot i = u := by
  rw [State.slot, List.getD_eq_getElem?_getD, h, Option.getD_some]

/-- `SLOT[i].DATA` depends on the slot's own memory only. -/
theorem slotByte_congr {s t : State} {i : Nat} (hd : t.ramDraw = s.ramDraw) (h : (t.slot i).data = (s.slot i).data) (k : Nat) :
    t.slotByte i k = s.slotByte i k := by
  rw [State.slotByte, State.slotByte, hd, h]

theorem slot_set (l : List Slot) (i j : Nat) (u : Slot) (s t : State) (hs : s.slots = l) (ht : t.slots = l.set i u) :
    t.slot j = if i = j ∧ i < l.length then u else s.slot j := by
  rw [State.slot, State.slot, hs, ht, List.getD_eq_getElem?_getD, List.getD_eq_getElem?_getD, List.getElem?_set]
  by_cases h : i = j
  · subst h
    by_cases hi : i < l.length
    · simp [hi]
    · simp [hi]
  · simp [h]

/-! ### The outcome (R195, R238) -/

/-- The decoded and checked segment that `RSM.RX` goes on with (R196). -/
theorem rxSegment_seg (s : State) : (checkSegment (decodeFrame s)).seg = s.rxHeader := by
  rw [checkSegment_seg, decodeFrame_rxHeader]

theorem rxSegment_segPlen_toNat (s : State) : (checkSegment (decodeFrame s)).segPlen.toNat = s.flen.toNat - 18 := by
  rw [checkSegment_segPlen, decodeFrame_segPlen_toNat]

theorem rxSegment_payByte (s : State) (k : Nat) :
    (checkSegment (decodeFrame s)).payByte k = if k < s.flen.toNat - 18 then s.frmByte (18 + k) else s.payByte k := by
  rw [checkSegment_payByte, decodeFrame_payByte]

theorem rxSegment_csumCalc (s : State) : (checkSegment (decodeFrame s)).csumCalc = s.rxChecksum := by
  rw [checkSegment_csumCalc, decodeFrame_segChecksum]

theorem rxSegment_ckok (s : State) :
    (checkSegment (decodeFrame s)).ckok = decide (s.rxHeader.checksum = s.rxChecksum) := by
  rw [checkSegment_ckok, decodeFrame_segChecksum, decodeFrame_rxHeader]
  rfl

/-- The payload of the received segment (R113). -/
theorem rxSegment_payBytes (s : State) :
    (checkSegment (decodeFrame s)).payBytes (s.flen.toNat - 18) =
      (List.range (s.flen.toNat - 18)).map (fun k => s.frmByte (18 + k)) := by
  rw [State.payBytes]
  apply List.map_congr_left
  intro k hk
  rw [rxSegment_payByte, if_pos (List.mem_range.1 hk)]

/-- The FIN flag of the received segment (R112). -/
theorem rxSegment_segFin (s : State) :
    (checkSegment (decodeFrame s)).segFin = decide (s.rxHeader.flags &&& s.cfg.flagFin ≠ 0) := by
  rw [State.segFin, rxSegment_seg, checkSegment_cfg, decodeFrame_cfg]
  rw [Bool.eq_iff_iff]
  simp

theorem classify_badFrame {s : State} (h : ¬ s.rxLegal) : classifyAndApply s = (.badFrame, s) := by
  simp only [classifyAndApply, (flenLegal_false s).2 h, if_true]

theorem classify_badCsum {s : State} (h : s.rxLegal) (hc : s.rxHeader.checksum ≠ s.rxChecksum) :
    classifyAndApply s = (.badCsum, checkSegment (decodeFrame s)) := by
  have : (checkSegment (decodeFrame s)).ckok = false := by rw [rxSegment_ckok]; exact decide_eq_false hc
  simp only [classifyAndApply, (flenLegal_iff s).2 h, Bool.true_eq_false, if_false, this, if_true]

theorem classify_afterDone {s : State} (h : s.rxValid) (hd : s.rstate = .done) :
    classifyAndApply s = (.afterDone, checkSegment (decodeFrame s)) := by
  have : (checkSegment (decodeFrame s)).ckok = true := by rw [rxSegment_ckok]; exact decide_eq_true h.2
  simp only [classifyAndApply, (flenLegal_iff s).2 h.1, Bool.true_eq_false, if_false, this]
  rw [if_pos (by rw [checkSegment_rstate, decodeFrame_rstate, hd])]

theorem classify_apply {s : State} (h : s.rxValid) (hd : s.rstate ≠ .done) :
    classifyAndApply s = applySegment (checkSegment (decodeFrame s)) := by
  have : (checkSegment (decodeFrame s)).ckok = true := by rw [rxSegment_ckok]; exact decide_eq_true h.2
  simp only [classifyAndApply, (flenLegal_iff s).2 h.1, Bool.true_eq_false, if_false, this]
  rw [if_neg (by rw [checkSegment_rstate, decodeFrame_rstate]; exact hd)]

theorem apply_stale {s : State} (h : lt32 s.seg.seqNum s.expected = true) : applySegment s = (.stale, s) := by
  simp only [applySegment, h, if_true]

theorem apply_inOrder {s : State} (h : s.seg.seqNum = s.expected) : applySegment s = accept s.segPlen.toNat s.segFin s := by
  simp only [applySegment, h, lt32_self, (eq32_iff _ _).2 rfl, Bool.false_eq_true, if_false, if_true]

theorem apply_outOfOrder {s : State} (h : gt32 s.seg.seqNum s.expected = true) :
    applySegment s = bufferSegment s.seg.seqNum s.segPlen.toNat s.segFin s := by
  obtain ⟨h1, h2⟩ := (gt32_iff _ _).1 h
  have h3 : eq32 s.seg.seqNum s.expected = false := by
    rw [Bool.eq_false_iff, Ne, eq32_iff]
    exact h2
  simp only [applySegment, h1, h3, Bool.false_eq_true, if_false]

theorem buffer_dup {s : State} {off : Word} (n : Nat) (fin : Bool) (h : s.pending off) :
    bufferSegment off n fin s = (.dupPending, s) := by
  simp only [bufferSegment]
  split
  · rfl
  · rename_i hn
    exact absurd h ((pendingAt_none _ _).1 hn)

theorem buffer_noSlot {s : State} {off : Word} (n : Nat) (fin : Bool) (h : ¬ s.pending off) (hf : ¬ s.hasFreeSlot) :
    bufferSegment off n fin s = (.noSlot, s) := by
  simp only [bufferSegment, (pendingAt_none _ _).2 h, (firstFree_none _).2 hf]

theorem buffer_store {s : State} {off : Word} {i : Nat} (n : Nat) (fin : Bool) (h : ¬ s.pending off)
    (hf : firstFree s.slots = some i) : bufferSegment off n fin s = (.buffered, storeSlot i off n fin s) := by
  simp only [bufferSegment, (pendingAt_none _ _).2 h, hf]

/-! ### The merging loop (R203) -/

/-- A FIN ends the loop. -/
theorem merge_fin (k : Nat) (s : State) : merge k true s = (true, s) := by
  cases k <;> rfl

theorem merge_gap (k : Nat) {s : State} (h : ¬ s.pending s.expected) : merge k false s = (false, s) := by
  cases k with
  | zero => rfl
  | succ k => simp only [merge, Bool.false_eq_true, if_false, (pendingAt_none _ _).2 h]

theorem merge_round (k : Nat) {s : State} {i : Nat} (h : pendingAt s.expected s.slots = some i) :
    merge (k + 1) false s = merge k (s.slot i).fin (mergeSlot i s) := by
  simp only [merge, Bool.false_eq_true, if_false, h]

/-- Clearing one element that a test accepts lowers its count by one. -/
theorem countP_set_add_one {α : Type} (p : α → Bool) (l : List α) (i : Nat) (a b : α) (h : l[i]? = some b) (hb : p b = true)
    (ha : p a = false) : (l.set i a).countP p + 1 = l.countP p := by
  induction l generalizing i with
  | nil => simp at h
  | cons x l ih =>
    cases i with
    | zero =>
      simp only [List.getElem?_cons_zero, Option.some.injEq] at h
      subst h
      simp [hb, ha]
    | succ i =>
      simp only [List.getElem?_cons_succ] at h
      have := ih i h
      simp only [List.set_cons_succ, List.countP_cons]
      omega

/-- A round frees a valid slot, so the loop ends (R203). -/
theorem mergeSlot_pendCnt {s : State} {i : Nat} {u : Slot} (h : s.slots[i]? = some u) (hv : u.v = true) :
    (mergeSlot i s).pendCnt + 1 = s.pendCnt := by
  have e : (mergeSlot i s).slots = s.slots.set i (s.slot i).freed := rfl
  rw [State.pendCnt, State.pendCnt, e]
  exact countP_set_add_one _ _ _ _ u h hv rfl

theorem pendCnt_le_length (s : State) : s.pendCnt ≤ s.slots.length := List.countP_le_length

/-- One round of the loop, as R203 writes it. -/
theorem mergeSlot_eq {s : State} {i : Nat} {u : Slot} (h : s.slots[i]? = some u) :
    mergeSlot i s = { s with
      out := s.out ++ (List.range u.len.toNat).map (s.slotByte i)
      outlen := s.outlen + BitVec.ofNat 64 u.len.toNat
      expected := add32 s.expected u.len.toNat
      slots := s.slots.set i { u with v := false, fin := false, off := 0, len := 0 } } := by
  have e := slot_of_getElem? h
  have e' : ∀ bs, (appendOut bs s).slot i = u := fun bs => e
  apply State.ext_fields <;> simp [mergeSlot, State.slotBytes, e, e', Slot.freed]

/-! ### What merging delivers and keeps (R203, R43) -/

/-- Merging appends bytes and moves `OUTLEN` and `EXPECTED` by their number (R203, R210); as long as no slot holds more than
`mss` bytes, it appends at most that many for each valid slot. -/
theorem merge_stream (k mss : Nat) (fin : Bool) (s : State) :
    ∃ bs : List Byte, (merge k fin s).2.out = s.out ++ bs ∧ (merge k fin s).2.expected = add32 s.expected bs.length ∧
      (merge k fin s).2.outlen = s.outlen + BitVec.ofNat 64 bs.length ∧
      ((∀ t ∈ s.slots, t.v = true → t.len.toNat ≤ mss) → bs.length ≤ s.pendCnt * mss) := by
  induction k generalizing fin s with
  | zero => exact ⟨[], by simp [merge]⟩
  | succ k ih =>
    cases fin with
    | true => exact ⟨[], by simp [merge]⟩
    | false =>
      cases hi : pendingAt s.expected s.slots with
      | none => exact ⟨[], by simp [merge, hi]⟩
      | some i =>
        obtain ⟨u, hu, hv, _⟩ := pendingAt_some hi
        have hslot := slot_of_getElem? hu
        obtain ⟨bs, h1, h2, h3, h4⟩ := ih u.fin (mergeSlot i s)
        have hcount := mergeSlot_pendCnt hu hv
        have hout : (mergeSlot i s).out = s.out ++ s.slotBytes i u.len.toNat := by simp [mergeSlot, hslot]
        have hlen : (s.slotBytes i u.len.toNat).length = u.len.toNat := by simp [State.slotBytes]
        have hexp : (mergeSlot i s).expected = add32 s.expected u.len.toNat := by simp [mergeSlot, hslot, hlen]
        have hol : (mergeSlot i s).outlen = s.outlen + BitVec.ofNat 64 u.len.toNat := by simp [mergeSlot, hslot, hlen]
        rw [merge_round k hi, hslot]
        refine ⟨s.slotBytes i u.len.toNat ++ bs, ?_, ?_, ?_, ?_⟩
        · rw [h1, hout, List.append_assoc]
        · rw [h2, hexp, add32_add32, List.length_append, hlen]
        · rw [h3, hol, List.length_append, hlen, BitVec.ofNat_add, BitVec.add_assoc]
        · intro hm
          have hm' : ∀ t ∈ (mergeSlot i s).slots, t.v = true → t.len.toNat ≤ mss := by
            intro t ht hvt
            have ht : t ∈ s.slots.set i (s.slot i).freed := ht
            rcases List.mem_or_eq_of_mem_set ht with ht | rfl
            · exact hm t ht hvt
            · cases hvt
          have := h4 hm'
          have hu' := hm u (List.mem_of_getElem? hu) hv
          rw [List.length_append, hlen, ← hcount, Nat.add_mul]
          omega

/-- What holds of every slot and of its freed form holds after merging. -/
theorem merge_slots (P : Slot → Prop) (hP : ∀ t, P t → P t.freed) (k : Nat) (fin : Bool) (s : State)
    (h : ∀ t ∈ s.slots, P t) : ∀ t ∈ (merge k fin s).2.slots, P t := by
  induction k generalizing fin s with
  | zero => exact h
  | succ k ih =>
    cases fin with
    | true => rw [merge_fin]; exact h
    | false =>
      cases hi : pendingAt s.expected s.slots with
      | none => rw [merge_gap _ ((pendingAt_none _ _).1 hi)]; exact h
      | some i =>
        obtain ⟨u, hu, _, _⟩ := pendingAt_some hi
        rw [merge_round k hi]
        apply ih
        intro t ht
        have ht : t ∈ s.slots.set i (s.slot i).freed := ht
        rcases List.mem_or_eq_of_mem_set ht with ht | rfl
        · exact h t ht
        · rw [slot_of_getElem? hu]
          exact hP u (h u (List.mem_of_getElem? hu))

/-- A relation between slots that holds whenever one of them is free holds after one is freed. -/
theorem pairwise_set_free {R : Slot → Slot → Prop} (hl : ∀ a b, a.v = false → R a b) (hr : ∀ a b, b.v = false → R a b)
    {l : List Slot} (h : l.Pairwise R) (i : Nat) {u : Slot} (hu : u.v = false) : (l.set i u).Pairwise R := by
  rw [List.pairwise_iff_getElem] at h ⊢
  intro j k hj hk hjk
  simp only [List.length_set] at hj hk
  rw [List.getElem_set, List.getElem_set]
  split
  · exact hl _ _ hu
  · split
    · exact hr _ _ hu
    · exact h j k hj hk hjk

/-- No two valid slots have one `OFF` (R43 (a)). -/
def distinctOffsets (l : List Slot) : Prop := l.Pairwise (fun a b => a.v = true → b.v = true → a.off ≠ b.off)

theorem distinctOffsets_set_free {l : List Slot} (h : distinctOffsets l) (i : Nat) {u : Slot} (hu : u.v = false) :
    distinctOffsets (l.set i u) := by
  refine pairwise_set_free ?_ ?_ h i hu
  · intro a b ha hv
    rw [ha] at hv
    cases hv
  · intro a b hb _ hv
    rw [hb] at hv
    cases hv

theorem merge_distinctOffsets (k : Nat) (fin : Bool) (s : State) (h : distinctOffsets s.slots) :
    distinctOffsets (merge k fin s).2.slots := by
  induction k generalizing fin s with
  | zero => exact h
  | succ k ih =>
    cases fin with
    | true => rw [merge_fin]; exact h
    | false =>
      cases hi : pendingAt s.expected s.slots with
      | none => rw [merge_gap _ ((pendingAt_none _ _).1 hi)]; exact h
      | some i =>
        rw [merge_round k hi]
        exact ih _ _ (distinctOffsets_set_free h i rfl)

/-- When the loop ends without a FIN and its rounds were enough, nothing is left pending at `EXPECTED` (R203). -/
theorem merge_gap_end (k : Nat) (fin : Bool) (s : State) (hk : s.pendCnt ≤ k) (h : (merge k fin s).1 = false) :
    ¬ (merge k fin s).2.pending (merge k fin s).2.expected := by
  induction k generalizing fin s with
  | zero =>
    rintro ⟨t, ht, hv, _⟩
    have hz : s.pendCnt = 0 := by omega
    rw [State.pendCnt, List.countP_eq_zero] at hz
    exact hz t ht hv
  | succ k ih =>
    cases fin with
    | true =>
      rw [merge_fin] at h
      cases h
    | false =>
      cases hi : pendingAt s.expected s.slots with
      | none =>
        rw [merge_gap _ ((pendingAt_none _ _).1 hi)]
        exact (pendingAt_none _ _).1 hi
      | some i =>
        obtain ⟨u, hu, hv, _⟩ := pendingAt_some hi
        have := mergeSlot_pendCnt hu hv
        rw [merge_round k hi] at h ⊢
        exact ih _ _ (by omega) h

/-! ### `SLOT[i].DATA` (R193) -/

theorem mergeSlot_slotByte (i : Nat) (s : State) (j k : Nat) : (mergeSlot i s).slotByte j k = s.slotByte j k := by
  have hs := slot_set s.slots i j (s.slot i).freed s (mergeSlot i s) rfl rfl
  refine slotByte_congr (s := s) (t := mergeSlot i s) rfl ?_ k
  rw [hs]
  split
  · rename_i h
    rw [h.1]
    rfl
  · rfl

/-- Merging leaves every byte of the slot file (R193, R203). -/
theorem merge_slotByte (n : Nat) (fin : Bool) (s : State) (j k : Nat) : (merge n fin s).2.slotByte j k = s.slotByte j k := by
  induction n generalizing fin s with
  | zero => rfl
  | succ n ih =>
    simp only [merge]
    split
    · rfl
    · split
      · rfl
      · rw [ih, mergeSlot_slotByte]

/-- Freeing some slots leaves every byte of the slot file (R193). -/
theorem slotByte_map {s t : State} {f : Slot → Slot} (h : t.slots = s.slots.map f) (hf : ∀ u, (f u).data = u.data)
    (hr : t.ramDraw = s.ramDraw) (j k : Nat) : t.slotByte j k = s.slotByte j k := by
  apply slotByte_congr hr
  rw [State.slot, State.slot, h, List.getD_eq_getElem?_getD, List.getD_eq_getElem?_getD, List.getElem?_map]
  cases hj : s.slots[j]? with
  | none => rfl
  | some u => exact hf u

theorem closeStream_slotByte (s : State) (j k : Nat) : (closeStream s).slotByte j k = s.slotByte j k :=
  slotByte_map (closeStream_slots s) (fun _ => rfl) (closeStream_ramDraw s) j k

theorem collectStale_slotByte (s : State) (j k : Nat) : (collectStale s).slotByte j k = s.slotByte j k := by
  refine slotByte_map (collectStale_slots s) (fun u => ?_) (collectStale_ramDraw s) j k
  split <;> rfl

/-- Accepting leaves every byte of the slot file (R193, R202). -/
theorem accept_slotByte (n : Nat) (fin : Bool) (s : State) (j k : Nat) : (accept n fin s).2.slotByte j k = s.slotByte j k := by
  simp only [accept]
  split
  · rw [closeStream_slotByte, merge_slotByte, appendOut_slotByte]
  · rw [collectStale_slotByte, merge_slotByte, appendOut_slotByte]


/-! ### What `RSM.RX` does to the stream (R202, R203, R210) -/

/-- Accepting appends the payload and what merging delivers, and moves `OUTLEN` and `EXPECTED` by the number of bytes. -/
theorem accept_stream (n mss : Nat) (fin : Bool) (s : State) :
    ∃ bs : List Byte, (accept n fin s).2.out = s.out ++ bs ∧ (accept n fin s).2.expected = add32 s.expected bs.length ∧
      (accept n fin s).2.outlen = s.outlen + BitVec.ofNat 64 bs.length ∧
      (n ≤ mss → (∀ t ∈ s.slots, t.v = true → t.len.toNat ≤ mss) → bs.length ≤ (s.slots.length + 1) * mss) := by
  have hpl : (s.payBytes n).length = n := payBytes_length s n
  have hacc : (accept n fin s).2.out = (merge s.slots.length fin (appendOut (s.payBytes n) s)).2.out ∧
      (accept n fin s).2.expected = (merge s.slots.length fin (appendOut (s.payBytes n) s)).2.expected ∧
      (accept n fin s).2.outlen = (merge s.slots.length fin (appendOut (s.payBytes n) s)).2.outlen := by
    simp only [accept]
    split <;> simp
  obtain ⟨bs, b1, b2, b3, b4⟩ := merge_stream s.slots.length mss fin (appendOut (s.payBytes n) s)
  refine ⟨s.payBytes n ++ bs, ?_, ?_, ?_, fun hn hm => ?_⟩
  · rw [hacc.1, b1, appendOut_out, List.append_assoc]
  · rw [hacc.2.1, b2, appendOut_expected, add32_add32, List.length_append]
  · rw [hacc.2.2, b3, appendOut_outlen, List.length_append, BitVec.ofNat_add, BitVec.add_assoc]
  · have hb := b4 hm
    have hpc : (appendOut (s.payBytes n) s).pendCnt ≤ s.slots.length := pendCnt_le_length _
    have := Nat.mul_le_mul_right mss hpc
    rw [List.length_append, hpl, Nat.add_mul]
    omega

/-- `RSM.RX` appends bytes to the stream, perhaps none, and moves `OUTLEN` and `EXPECTED` by their number. -/
theorem classifyAndApply_stream (s : State) :
    ∃ bs : List Byte, (classifyAndApply s).2.out = s.out ++ bs ∧
      (classifyAndApply s).2.expected = add32 s.expected bs.length ∧
      (classifyAndApply s).2.outlen = s.outlen + BitVec.ofNat 64 bs.length ∧
      ((∀ t ∈ s.slots, t.v = true → t.len.toNat ≤ s.cfg.mss) → bs.length ≤ (s.slots.length + 1) * s.cfg.mss) := by
  have nothing : ∀ (r : RxResult) (u : State), classifyAndApply s = (r, u) → u.out = s.out → u.expected = s.expected →
      u.outlen = s.outlen →
      ∃ bs : List Byte, (classifyAndApply s).2.out = s.out ++ bs ∧
        (classifyAndApply s).2.expected = add32 s.expected bs.length ∧
        (classifyAndApply s).2.outlen = s.outlen + BitVec.ofNat 64 bs.length ∧
        ((∀ t ∈ s.slots, t.v = true → t.len.toNat ≤ s.cfg.mss) → bs.length ≤ (s.slots.length + 1) * s.cfg.mss) := by
    intro r u h h1 h2 h3
    rw [h]
    exact ⟨[], by simp [h1], by simp [h2], by simp [h3], by simp⟩
  by_cases hl : s.rxLegal
  · by_cases hc : s.rxHeader.checksum = s.rxChecksum
    · by_cases hd : s.rstate = .done
      · exact nothing _ _ (classify_afterDone ⟨hl, hc⟩ hd) rfl rfl rfl
      · have hcl := classify_apply ⟨hl, hc⟩ hd
        have hplen := rxSegment_segPlen_toNat s
        have hmss := rxLegal_mss hl
        rw [State.framePlen, hdrBytes] at hmss
        obtain ⟨r, hr⟩ : ∃ r, r = checkSegment (decodeFrame s) := ⟨_, rfl⟩
        have hout : r.out = s.out := by rw [hr]; rfl
        have hexp : r.expected = s.expected := by rw [hr]; rfl
        have hol : r.outlen = s.outlen := by rw [hr]; rfl
        have hslots : r.slots = s.slots := by rw [hr]; rfl
        rw [← hr] at hcl hplen
        by_cases h1 : lt32 r.seg.seqNum r.expected = true
        · exact nothing _ _ (hcl.trans (apply_stale h1)) hout hexp hol
        · by_cases h2 : r.seg.seqNum = r.expected
          · rw [apply_inOrder h2] at hcl
            obtain ⟨bs, g1, g2, g3, g4⟩ := accept_stream r.segPlen.toNat s.cfg.mss r.segFin r
            rw [hcl]
            refine ⟨bs, by rw [g1, hout], by rw [g2, hexp], by rw [g3, hol], ?_⟩
            rw [← hslots]
            exact g4 (by omega)
          · have hgt : gt32 r.seg.seqNum r.expected = true := (gt32_iff _ _).2 ⟨by simpa using h1, h2⟩
            rw [apply_outOfOrder hgt] at hcl
            simp only [bufferSegment] at hcl
            split at hcl
            · exact nothing _ _ hcl hout hexp hol
            · split at hcl
              · exact nothing _ _ hcl hout hexp hol
              · exact nothing _ _ hcl hout hexp hol
    · exact nothing _ _ (classify_badCsum hl hc) rfl rfl rfl
  · exact nothing _ _ (classify_badFrame hl) rfl rfl rfl

end Sys2Proof.Machine
end

