-- ==== Sys2Proof/Laws/Step.lean ====
section
/-! SUPPORT. A step with a known next event, and every event's effect. -/

namespace Sys2Proof.Machine

/-- A step performs the next event on the state with that event taken off the script. -/
theorem step_event {s : State} {e : Event} {rest : List Event} (hc : s.cfg.ok = true) (hs : s.script = e :: rest) :
    step s = perform e (withScript rest s) := by
  simp only [step, hc, nextEvent, hs, Bool.true_eq_false, if_false]

/-- What a step that answers a next state did. -/
theorem step_next {s t : State} (h : step s = .next t) :
    s.cfg.ok = true ∧ ∃ e rest, s.script = e :: rest ∧ perform e (withScript rest s) = .next t := by
  simp only [step] at h
  split at h
  · cases h
  · rename_i hc
    refine ⟨by simpa using hc, ?_⟩
    simp only [nextEvent] at h
    split at h
    · cases h
    · rename_i hs
      exact ⟨_, _, hs, h⟩

/-- An access that the host may make now. -/
theorem hostMayAccess_of_idle {s : State} (h : s.busy = false) (e : Event) : hostMayAccess s e = true := by
  cases e <;> simp [hostMayAccess, h]

theorem perform_writeReg {s : State} (h : s.busy = false) (r : BitVec 12) (v : Nat) :
    perform (.writeReg r v) s = hostWriteReg r.toNat v s := by
  simp only [perform, hostMayAccess_of_idle h, Bool.true_eq_false, if_false]

theorem perform_readReg {s : State} (h : s.busy = false) (r : BitVec 12) :
    perform (.readReg r) s = .next (handBack (hostReadReg s r.toNat) s) := by
  simp only [perform, hostMayAccess_of_idle h, Bool.true_eq_false, if_false]

theorem perform_writeByte {s : State} (h : s.busy = false) (b : BitVec 12) (i : Nat) (v : Byte) :
    perform (.writeByte b i v) s = .next (hostWriteByte s b.toNat i v) := by
  simp only [perform, hostMayAccess_of_idle h, Bool.true_eq_false, if_false]

theorem perform_readByte {s : State} (h : s.busy = false) (b : BitVec 12) (i : Nat) :
    perform (.readByte b i) s = .next (handBack (hostReadByte s b.toNat i).toNat s) := by
  simp only [perform, hostMayAccess_of_idle h, Bool.true_eq_false, if_false]

@[simp] theorem perform_tick (s : State) (n : Nat) : perform (.tick n) s = tick n s := rfl

@[simp] theorem perform_hardwareReset (s : State) : perform .hardwareReset s = .next (hardwareReset s) := rfl

/-- A write of a value of its width to a register other than `CMD` stores it (R82). -/
theorem hostWriteReg_some {s : State} {n v : Nat} {r : Reg} (hr : Reg.ofNumber s.cfg n = some r) (hv : v < 2 ^ r.width)
    (hc : r ≠ .cmd) : hostWriteReg n v s = .next (s.storeReg v r) := by
  simp only [hostWriteReg, hr, if_neg (Nat.not_le.2 hv), if_neg hc]

/-- A write to a reserved number is ignored (R83). -/
theorem hostWriteReg_none {s : State} {n : Nat} (hr : Reg.ofNumber s.cfg n = none) (v : Nat) : hostWriteReg n v s = .next s := by
  simp only [hostWriteReg, hr]

/-- A write of a value wider than the register is refused (R21; assumption 9). -/
theorem hostWriteReg_wide {s : State} {n v : Nat} {r : Reg} (hr : Reg.ofNumber s.cfg n = some r) (hv : 2 ^ r.width ≤ v) :
    hostWriteReg n v s = .refused .valueWiderThanRegister := by
  simp only [hostWriteReg, hr, if_pos hv]

/-- A step whose next event writes a register. -/
theorem step_writeReg {s : State} {r : BitVec 12} {v : Nat} {rest : List Event} (hc : s.cfg.ok = true) (hb : s.busy = false)
    (hs : s.script = .writeReg r v :: rest) : step s = hostWriteReg r.toNat v (withScript rest s) := by
  rw [step_event hc hs, perform_writeReg (s := withScript rest s) hb]

/-- A command word written to `CMD` is executed (R34, R82). -/
theorem hostWriteReg_cmd (w : CmdWord) (s : State) : hostWriteReg 0x0D w.toNat s = issueCommand w s := by
  have hw := w.isLt
  have hr : Reg.ofNumber s.cfg 0x0D = some .cmd := rfl
  have hlt : ¬ 2 ^ Reg.cmd.width ≤ w.toNat := by
    show ¬ 2 ^ 40 ≤ w.toNat
    omega
  simp only [hostWriteReg, hr, if_neg hlt, if_true, BitVec.ofNat_toNat, BitVec.setWidth_eq]

/-- A step whose next event writes a word to `CMD`. -/
theorem step_command {s : State} {w : CmdWord} {rest : List Event} (hc : s.cfg.ok = true) (hb : s.busy = false)
    (hs : s.script = .writeReg 0x00D w.toNat :: rest) : step s = issueCommand w (withScript rest s) := by
  rw [step_event hc hs, perform_writeReg (s := withScript rest s) hb]
  exact hostWriteReg_cmd w _

theorem issueCommand_ok {w : CmdWord} {i : Instr} (h : decode w = .ok i) (s : State) : issueCommand w s = exec i s := by
  simp only [issueCommand, h]

theorem issueCommand_error {w : CmdWord} {e : DecodeError} (h : decode w = .error e) (s : State) :
    issueCommand w s = .next (raised .illegalCmd s) := by
  simp only [issueCommand, h, raise]

/-- A run goes on with the state that its first step answers. -/
theorem run_next {s t : State} (h : step s = .next t) (k : Nat) : Sys2Proof.core.run (k + 1) s = Sys2Proof.core.run k t := by
  have aux : ∀ (M : Host.Core) (a b : M.State), M.step a = .next b → M.run (k + 1) a = M.run k b := by
    intro M a b hab
    simp only [Host.Core.run, hab]
  exact aux Sys2Proof.core s t h

/-- A run that answers a state after `k + 1` steps took a first step. -/
theorem run_succ_next {s u : State} {k : Nat} (h : Sys2Proof.core.run (k + 1) s = .next u) :
    ∃ t : State, step s = .next t ∧ Sys2Proof.core.run k t = .next u := by
  have aux : ∀ (M : Host.Core) (a c : M.State), M.run (k + 1) a = .next c → ∃ b, M.step a = .next b ∧ M.run k b = .next c := by
    intro M a c hac
    simp only [Host.Core.run] at hac
    split at hac
    · rename_i b hb
      exact ⟨b, hb, hac⟩
    · cases hac
    · cases hac
  exact aux Sys2Proof.core s u h

end Sys2Proof.Machine
end

