-- ==== Sys2Proof/Laws/Platform.lean ====
section
/-! SUPPORT. What no command and no event touches: the configuration, the script, and, for commands, the time base. -/

namespace Sys2Proof.Machine

/-- What is not the block's own: the configuration, the time base, the script, the host's record, the draw. -/
structure State.samePlatform (s t : State) : Prop where
  cfg : t.cfg = s.cfg
  now : t.now = s.now
  script : t.script = s.script
  hostReads : t.hostReads = s.hostReads
  ramDraw : t.ramDraw = s.ramDraw

/-- No command touches the platform's part of the state (R15, R39). -/
theorem exec_samePlatform {i : Instr} {s t : State} (h : exec i s = .next t) : s.samePlatform t := by
  have fin : ∀ c, s.samePlatform (raised c s) := fun c => ⟨rfl, rfl, rfl, rfl, rfl⟩
  cases i
  case sysNop => cases h; exact ⟨rfl, rfl, rfl, rfl, rfl⟩
  case csumGen =>
    by_cases hm : s.segPlen.toNat ≤ s.cfg.mss
    · rw [exec_csumGen hm] at h; cases h; exact ⟨rfl, rfl, rfl, rfl, rfl⟩
    · rw [exec_csumGen_error (by omega)] at h; cases h; exact fin _
  case csumChk =>
    by_cases hm : s.segPlen.toNat ≤ s.cfg.mss
    · rw [exec_csumChk hm] at h; cases h; exact ⟨rfl, rfl, rfl, rfl, rfl⟩
    · rw [exec_csumChk_error (by omega)] at h; cases h; exact fin _
  case frmEnc =>
    by_cases hm : s.segPlen.toNat ≤ s.cfg.mss
    · rw [exec_frmEnc hm] at h; cases h; exact ⟨rfl, rfl, rfl, rfl, rfl⟩
    · rw [exec_frmEnc_error (by omega)] at h; cases h; exact fin _
  case frmDec =>
    by_cases hm : s.rxLegal
    · rw [exec_frmDec hm] at h; cases h; exact ⟨rfl, rfl, rfl, rfl, rfl⟩
    · rw [exec_frmDec_error hm] at h; cases h; exact fin _
  case tmrStart d => rw [exec_tmrStart] at h; cases h; constructor <;> simp
  case tmrRestart =>
    cases hm : s.tdurv
    · rw [exec_tmrRestart_error hm] at h; cases h; exact fin _
    · rw [exec_tmrRestart hm] at h; cases h; constructor <;> simp
  case tmrStop => cases h; exact ⟨rfl, rfl, rfl, rfl, rfl⟩
  case tmrPoll => cases h; exact ⟨rfl, rfl, rfl, rfl, rfl⟩
  case rsmInit x => cases h; exact ⟨rfl, rfl, rfl, rfl, rfl⟩
  case rsmRx =>
    by_cases hm : s.rstate = .idle
    · rw [exec_rsmRx_error hm] at h; cases h; exact fin _
    · rw [exec_rsmRx hm] at h; cases h; constructor <;> simp [finishRx]
  case sysReset => cases h; exact ⟨rfl, rfl, rfl, rfl, rfl⟩

/-- A stored register changes nothing of the platform's part. -/
theorem storeReg_samePlatform (s : State) (v : Nat) (r : Reg) : s.samePlatform (s.storeReg v r) := by
  cases r <;> exact ⟨rfl, rfl, rfl, rfl, rfl⟩

theorem issueCommand_samePlatform {w : CmdWord} {s t : State} (h : issueCommand w s = .next t) : s.samePlatform t := by
  simp only [issueCommand] at h
  split at h
  · exact exec_samePlatform h
  · cases h
    exact ⟨rfl, rfl, rfl, rfl, rfl⟩

theorem hostWriteReg_samePlatform {n v : Nat} {s t : State} (h : hostWriteReg n v s = .next t) : s.samePlatform t := by
  simp only [hostWriteReg] at h
  split at h
  · cases h
    exact ⟨rfl, rfl, rfl, rfl, rfl⟩
  · split at h
    · cases h
    · split at h
      · exact issueCommand_samePlatform h
      · cases h
        exact storeReg_samePlatform s v _

theorem hostWriteByte_samePlatform (s : State) (b i : Nat) (v : Byte) : s.samePlatform (hostWriteByte s b i v) := by
  simp only [hostWriteByte]
  split
  · exact ⟨rfl, rfl, rfl, rfl, rfl⟩
  · split <;> exact ⟨rfl, rfl, rfl, rfl, rfl⟩

/-- No event changes the configuration or what is left of the script. -/
theorem perform_cfg_script {e : Event} {s t : State} (h : perform e s = .next t) : t.cfg = s.cfg ∧ t.script = s.script := by
  simp only [perform] at h
  split at h
  · cases h
  · cases e with
    | writeReg r v => exact ⟨(hostWriteReg_samePlatform h).cfg, (hostWriteReg_samePlatform h).script⟩
    | readReg r => cases h; exact ⟨rfl, rfl⟩
    | writeByte b i v =>
      cases h
      exact ⟨(hostWriteByte_samePlatform s b.toNat i v).cfg, (hostWriteByte_samePlatform s b.toNat i v).script⟩
    | readByte b i => cases h; exact ⟨rfl, rfl⟩
    | tick n =>
      simp only [tick] at h
      split at h
      · cases h; simp
      · cases h
    | hardwareReset => cases h; exact ⟨rfl, rfl⟩

/-- A step keeps the configuration and takes one event off the script (R89). -/
theorem step_cfg_script {s t : State} {e : Event} {rest : List Event} (hs : s.script = e :: rest) (h : step s = .next t) :
    t.cfg = s.cfg ∧ t.script = rest := by
  obtain ⟨_, e', rest', hs', hp⟩ := step_next h
  rw [hs] at hs'
  cases hs'
  exact perform_cfg_script hp

end Sys2Proof.Machine
end

