-- ==== Sys2Proof/Laws/Registers.lean ====
section
/-! SUPPORT. Register numbers, and what a stored register or byte reads as. -/

namespace Sys2Proof.Machine

/-- A slot register's number, and that its slot exists (R22). -/
theorem slotReg_some {k n : Nat} {r : Reg} (h : slotReg k n = some r) (hn : 0x40 ≤ n) :
    r.number = n ∧ ∃ i, i < k ∧ (r = .slotCtl i ∨ r = .slotOff i ∨ r = .slotLen i) := by
  simp only [slotReg] at h
  split at h
  · rename_i hk
    split at h
    · cases h
      exact ⟨by simp only [Reg.number]; omega, _, hk, .inl rfl⟩
    · cases h
      exact ⟨by simp only [Reg.number]; omega, _, hk, .inr (.inl rfl)⟩
    · cases h
      exact ⟨by simp only [Reg.number]; omega, _, hk, .inr (.inr rfl)⟩
    · cases h
  · cases h

/-- The register that a number names has that number (R22). -/
theorem Reg.number_of_ofNumber {c : Config} {n : Nat} {r : Reg} (h : Reg.ofNumber c n = some r) : r.number = n := by
  simp only [Reg.ofNumber] at h
  split at h
  all_goals first
    | (cases h; rfl)
    | (split at h
       · rename_i hn
         exact (slotReg_some h hn).1
       · cases h)

/-- A slot register that a number names belongs to a slot that exists (R22). -/
theorem Reg.slot_of_ofNumber {c : Config} {n i : Nat} {r : Reg} (h : Reg.ofNumber c n = some r)
    (hr : r = .slotCtl i ∨ r = .slotOff i ∨ r = .slotLen i) : i < c.pendSlots := by
  simp only [Reg.ofNumber] at h
  split at h
  all_goals first
    | (cases h; simp at hr; done)
    | (split at h
       · rename_i hn
         obtain ⟨_, j, hj, hj'⟩ := slotReg_some h hn
         have : i = j := by
           rcases hr with rfl | rfl | rfl <;> rcases hj' with h | h | h <;> cases h <;> rfl
         exact this ▸ hj
       · cases h)

/-- The numbers from `0x40` on belong to the slots (R22). -/
theorem Reg.ofNumber_high {c : Config} {n : Nat} (h : 0x40 ≤ n) : Reg.ofNumber c n = slotReg c.pendSlots n := by
  simp only [Reg.ofNumber]
  split <;> first | omega | rw [if_pos h]

/-- The three registers of a slot that exists, by number (R22). -/
theorem Reg.ofNumber_slot {c : Config} {i : Nat} (h : i < c.pendSlots) :
    Reg.ofNumber c (0x40 + 4 * i) = some (.slotCtl i) ∧ Reg.ofNumber c (0x41 + 4 * i) = some (.slotOff i) ∧
      Reg.ofNumber c (0x42 + 4 * i) = some (.slotLen i) := by
  have div : ∀ k, k < 3 → (0x40 + k + 4 * i - 0x40) / 4 = i ∧ (0x40 + k + 4 * i - 0x40) % 4 = k := by
    intro k hk
    omega
  obtain ⟨d0, m0⟩ := div 0 (by omega)
  obtain ⟨d1, m1⟩ := div 1 (by omega)
  obtain ⟨d2, m2⟩ := div 2 (by omega)
  refine ⟨?_, ?_, ?_⟩
  · rw [Reg.ofNumber_high (by omega), slotReg, d0, if_pos h, m0]
    rfl
  · rw [Reg.ofNumber_high (by omega), slotReg, d1, if_pos h, m1]
    rfl
  · rw [Reg.ofNumber_high (by omega), slotReg, d2, if_pos h, m2]
    rfl

/-- The reserved numbers (R22, R71). -/
theorem Reg.ofNumber_reserved {c : Config} {n : Nat}
    (h : (0x0E ≤ n ∧ n < 0x10) ∨ (0x13 ≤ n ∧ n < 0x18) ∨ (0x1B ≤ n ∧ n < 0x20) ∨ (0x25 ≤ n ∧ n < 0x40) ∨
      (0x40 ≤ n ∧ n % 4 = 3) ∨ 0x40 + 4 * c.pendSlots ≤ n) : Reg.ofNumber c n = none := by
  by_cases hn : 0x40 ≤ n
  · rw [Reg.ofNumber_high hn]
    by_cases hk : (n - 0x40) / 4 < c.pendSlots
    · have hm : (n - 0x40) % 4 = 3 := by omega
      rw [slotReg, if_pos hk, hm]
      rfl
    · rw [slotReg, if_neg hk]
  · have : n < 0x40 := by omega
    interval_cases n <;> first | rfl | omega

/-- A host write within `PAY` (R84). -/
theorem hostWriteByte_pay {s : State} {i : Nat} (h : i < s.cfg.mss) (v : Byte) : hostWriteByte s 0x00 i v = writePay i v s := by
  rw [hostWriteByte, if_pos ⟨rfl, h⟩]

/-- A host write within `FRM` (R84). -/
theorem hostWriteByte_frm {s : State} {i : Nat} (h : i < s.cfg.frameSize) (v : Byte) :
    hostWriteByte s 0x01 i v = writeFrm i v s := by
  rw [hostWriteByte, if_neg (fun h => absurd h.1 (by decide)), if_pos ⟨rfl, h⟩]

/-- Every other host write to a buffer is ignored (R83). -/
theorem hostWriteByte_ignored {s : State} {b i : Nat} (hp : ¬ (b = 0x00 ∧ i < s.cfg.mss)) (hf : ¬ (b = 0x01 ∧ i < s.cfg.frameSize))
    (v : Byte) : hostWriteByte s b i v = s := by
  have hp' : ¬ (b = payBuf ∧ i < s.cfg.mss) := hp
  have hf' : ¬ (b = frmBuf ∧ i < s.cfg.frameSize) := hf
  rw [hostWriteByte, if_neg hp', if_neg hf']

theorem writePay_payByte (i j : Nat) (v : Byte) (s : State) : (writePay i v s).payByte j = if i = j then v else s.payByte j := by
  rw [State.payByte, writePay_pay, writePay_ramDraw, ramByte_write, State.payByte]

theorem writeFrm_frmByte (i j : Nat) (v : Byte) (s : State) : (writeFrm i v s).frmByte j = if i = j then v else s.frmByte j := by
  rw [State.frmByte, writeFrm_frm, writeFrm_ramDraw, ramByte_write, State.frmByte]

/-- What a host read of a buffer byte depends on (R50, R84). -/
theorem hostReadByte_congr {s t : State} {b i : Nat} (cfg : t.cfg = s.cfg) (pay : b = 0x00 → t.payByte i = s.payByte i)
    (frm : b = 0x01 → t.frmByte i = s.frmByte i) (ackf : b = 0x02 → t.ackf = s.ackf)
    (out : b = 0x03 → t.out = s.out ∧ t.outlen = s.outlen) (slot : ∀ j, t.slotByte j i = s.slotByte j i) :
    hostReadByte t b i = hostReadByte s b i := by
  simp only [hostReadByte, cfg, slot]
  split
  · rename_i h
    rw [pay h]
  · split
    · rename_i h
      rw [frm h]
    · split
      · rename_i h
        rw [ackf h]
      · split
        · rename_i h
          rw [(out h).1, (out h).2]
        · rfl

/-- A byte of `PAY` as the host reads it. -/
theorem hostReadByte_pay (s : State) (i : Nat) : hostReadByte s 0x00 i = if i < s.cfg.mss then s.payByte i else 0 := by
  rw [hostReadByte, if_pos (show 0x00 = payBuf from rfl)]

/-- A byte of `FRM` as the host reads it. -/
theorem hostReadByte_frm (s : State) (i : Nat) : hostReadByte s 0x01 i = if i < s.cfg.frameSize then s.frmByte i else 0 := by
  rw [hostReadByte, if_neg (show 0x01 ≠ payBuf by decide), if_pos (show 0x01 = frmBuf from rfl)]

/-- A byte of `ACKF` as the host reads it. -/
theorem hostReadByte_ackf (s : State) (i : Nat) : hostReadByte s 0x02 i = s.ackf.getD i 0 := by
  rw [hostReadByte, if_neg (show 0x02 ≠ payBuf by decide), if_neg (show 0x02 ≠ frmBuf by decide),
    if_pos (show 0x02 = ackfBuf from rfl)]

/-- A byte of `OUT` as the host reads it. -/
theorem hostReadByte_out (s : State) (i : Nat) : hostReadByte s 0x03 i = if i < s.outlen.toNat then s.out.getD i 0 else 0 := by
  rw [hostReadByte, if_neg (show 0x03 ≠ payBuf by decide), if_neg (show 0x03 ≠ frmBuf by decide),
    if_neg (show 0x03 ≠ ackfBuf by decide), if_pos (show 0x03 = outBuf from rfl)]

/-- A byte of `SLOT[k].DATA` as the host reads it. -/
theorem hostReadByte_slot (s : State) {k : Nat} (i : Nat) (hk : k < s.cfg.pendSlots) :
    hostReadByte s (0x10 + k) i = if i < s.cfg.mss then s.slotByte k i else 0 := by
  have h0 : 0x10 + k ≠ payBuf := by
    simp only [payBuf]
    omega
  have h1 : 0x10 + k ≠ frmBuf := by
    simp only [frmBuf]
    omega
  have h2 : 0x10 + k ≠ ackfBuf := by
    simp only [ackfBuf]
    omega
  have h3 : 0x10 + k ≠ outBuf := by
    simp only [outBuf]
    omega
  have h4 : slotBuf 0 ≤ 0x10 + k ∧ 0x10 + k < slotBuf s.cfg.pendSlots := by
    simp only [slotBuf]
    omega
  have h5 : 0x10 + k - slotBuf 0 = k := by
    simp only [slotBuf]
    omega
  simp only [hostReadByte, if_neg h0, if_neg h1, if_neg h2, if_neg h3, if_pos h4, h5]

/-- A number of no buffer reads as 0 (R72). -/
theorem hostReadByte_none (s : State) {b : Nat} (i : Nat) (h : 0x04 ≤ b ∧ b < 0x10 ∨ 0x10 + s.cfg.pendSlots ≤ b) :
    hostReadByte s b i = 0 := by
  have h0 : b ≠ payBuf := by
    simp only [payBuf]
    omega
  have h1 : b ≠ frmBuf := by
    simp only [frmBuf]
    omega
  have h2 : b ≠ ackfBuf := by
    simp only [ackfBuf]
    omega
  have h3 : b ≠ outBuf := by
    simp only [outBuf]
    omega
  have h4 : ¬ (slotBuf 0 ≤ b ∧ b < slotBuf s.cfg.pendSlots) := by
    simp only [slotBuf]
    omega
  simp only [hostReadByte, if_neg h0, if_neg h1, if_neg h2, if_neg h3, if_neg h4]

end Sys2Proof.Machine
end

