-- ==== Sys2Proof/Laws/Timer.lean ====
section
/-! SUPPORT. Arming the timer below the platform's bound, and the commands that leave the timer alone. -/

namespace Sys2Proof.Machine

/-- Below the platform's bound a deadline is the sum of the two numbers (R39, R172). -/
theorem armTimer_deadline_toNat {s : State} (h : s.now.toNat < timeBound) (d : Word) :
    (armTimer d s).deadline.toNat = s.now.toNat + d.toNat := by
  have := d.isLt
  have hb : s.now.toNat < 2 ^ 64 - 2 ^ 32 := h
  rw [armTimer_deadline, BitVec.toNat_add, zext64_toNat]
  omega

/-- Below the platform's bound an armed timer has expired exactly when the duration is zero (R172). -/
theorem armTimer_tstate_bound {s : State} (h : s.now.toNat < timeBound) (d : Word) :
    (armTimer d s).tstate = if d = 0 then .expired else .running := by
  have e := armTimer_deadline_toNat h d
  rw [armTimer_deadline] at e
  rw [armTimer_tstate]
  have : s.now + zext64 d ≤ s.now ↔ d = 0 := by
    rw [BitVec.le_def, e, ← BitVec.toNat_inj]
    simp
  simp only [this]

/-- The timer's state: `TSTATE`, `DEADLINE`, `TDUR`, `TDURV`, and the time base. -/
structure State.sameTimer (s t : State) : Prop where
  tstate : t.tstate = s.tstate
  deadline : t.deadline = s.deadline
  tdur : t.tdur = s.tdur
  tdurv : t.tdurv = s.tdurv
  now : t.now = s.now

/-- The commands that are no timer command leave the timer. -/
theorem exec_sameTimer {i : Instr} {s t : State} (h : exec i s = .next t) (hi : Instr.actsOnTimer i = false) : s.sameTimer t := by
  have fin : ∀ c, s.sameTimer (raised c s) := fun c => ⟨rfl, rfl, rfl, rfl, rfl⟩
  cases i <;> simp only [Instr.actsOnTimer, Bool.true_eq_false] at hi
  · cases h
    exact ⟨rfl, rfl, rfl, rfl, rfl⟩
  · by_cases hm : s.segPlen.toNat ≤ s.cfg.mss
    · rw [exec_csumGen hm] at h
      cases h
      exact ⟨rfl, rfl, rfl, rfl, rfl⟩
    · rw [exec_csumGen_error (by omega)] at h
      cases h
      exact fin _
  · by_cases hm : s.segPlen.toNat ≤ s.cfg.mss
    · rw [exec_csumChk hm] at h
      cases h
      exact ⟨rfl, rfl, rfl, rfl, rfl⟩
    · rw [exec_csumChk_error (by omega)] at h
      cases h
      exact fin _
  · by_cases hm : s.segPlen.toNat ≤ s.cfg.mss
    · rw [exec_frmEnc hm] at h
      cases h
      exact ⟨rfl, rfl, rfl, rfl, rfl⟩
    · rw [exec_frmEnc_error (by omega)] at h
      cases h
      exact fin _
  · by_cases hm : s.rxLegal
    · rw [exec_frmDec hm] at h
      cases h
      exact ⟨rfl, rfl, rfl, rfl, rfl⟩
    · rw [exec_frmDec_error hm] at h
      cases h
      exact fin _
  · cases h
    exact ⟨rfl, rfl, rfl, rfl, rfl⟩
  · cases h
    exact ⟨rfl, rfl, rfl, rfl, rfl⟩
  · by_cases hm : s.rstate = .idle
    · rw [exec_rsmRx_error hm] at h
      cases h
      exact fin _
    · rw [exec_rsmRx hm] at h
      cases h
      constructor <;> simp [finishRx]

end Sys2Proof.Machine
end

