-- ==== Sys2Proof/Tests/Slice0.lean ====
section
/-! SUPPORT. The model's own tests: words written out from the spec's encoding, the smoke tests of the checks, one or two steps of
every command with results from 95_test_vectors.md (the vector is named at each), and, for every statement with hypotheses, a
concrete state and operands that meet them. -/

namespace Sys2Proof.Tests

open Sys2Proof Sys2Proof.Machine

/-! ### Helpers -/

/-- Something of the next state, where there is one. -/
def after {α : Type} (f : State → α) : Result → Option α
  | .next s => some (f s)
  | .fault _ => none
  | .refused _ => none

/-- Why there is no next state, where the model refuses. -/
def refusal : Result → Option Refusal
  | .next _ => none
  | .fault _ => none
  | .refused r => some r

/-- Reset, with a segment in `SEG` and `PAY`. -/
def segState (h : Header) (p : List Byte) : State :=
  { State.reset with seg := h, segPlen := BitVec.ofNat 16 p.length, pay := Memory.writeBytes [] 0 p }

/-- Reset, with a frame in `FRM`. -/
def frmState (f : List Byte) : State :=
  { State.reset with frm := Memory.writeBytes [] 0 f, flen := BitVec.ofNat 16 f.length }

/-- An open stream at offset `x`, with a frame in `FRM`. -/
def rxState (x : Word) (f : List Byte) : State := { frmState f with rstate := .active, expected := x }

/-- The segment of vector K2. -/
def k2 : Header := ⟨0x1234, 0x5678, 0, 0, 18, 0x02, 0, 0⟩
/-- The header of vector K3. -/
def k3 : Header := ⟨0x1234, 0x5678, 1, 0, 18, 0, 0, 0⟩
/-- Frame F1. -/
def f1 : List Byte := [0, 0, 0, 0, 0, 0, 0, 0, 0, 0, 0, 0, 0, 0, 0, 0, 0xFF, 0xFF]
/-- Frame F3. -/
def f3 : List Byte :=
  [0x12, 0x34, 0x56, 0x78, 0, 0, 0, 1, 0, 0, 0, 0, 0x12, 0, 0, 0, 0xD2, 0xDD, 0x61, 0x62, 0x63]
/-- Frame F13, the worked example of R195. -/
def f13 : List Byte :=
  [0xC0, 0, 0, 0x50, 0, 0, 3, 0xE8, 0, 0, 0, 0, 0x12, 0x01, 0x04, 0, 0x99, 0x16, 0xDE, 0xAD, 0xBE, 0xEF, 0x01]
/-- The frame of sequence Q1 step 1: offset 2, "EF". -/
def q1 : List Byte := [0, 0, 0, 0, 0, 0, 0, 2, 0, 0, 0, 0, 0x12, 0, 0, 0, 0xBA, 0xA5, 0x45, 0x46]
/-- The frame of sequence Q1 step 4: offset `0xFFFFFFFE`, "ABCD". -/
def q1d : List Byte :=
  [0, 0, 0, 0, 0xFF, 0xFF, 0xFF, 0xFE, 0, 0, 0, 0, 0x12, 0, 0, 0, 0x7B, 0x68, 0x41, 0x42, 0x43, 0x44]
/-- The frame of sequence Q1 step 5: offset `0x80000004`, "x". -/
def q1e : List Byte := [0, 0, 0, 0, 0x80, 0, 0, 4, 0, 0, 0, 0, 0x12, 0, 0, 0, 0x07, 0xE9, 0x78]
/-- The frame of sequence Q1 step 6: offset `0x80000003`, "x". -/
def q1f : List Byte := [0, 0, 0, 0, 0x80, 0, 0, 3, 0, 0, 0, 0, 0x12, 0, 0, 0, 0x07, 0xEA, 0x78]
/-- The slot that holds frame `q1` (Q1 after step 1). -/
def q1slot : Slot := { v := true, fin := false, off := 2, len := 2, data := [(0, 0x45), (1, 0x46)] }
/-- A running timer (vector T20). -/
def running : State := { State.reset with now := 7, tstate := .running, deadline := 10, tdur := 10, tdurv := true }

/-! ### Decoding: each row's word written out from the opcode map (R103) -/

theorem test_decode_sys_nop : decode 0x0000000000 = .ok .sysNop := by decide
theorem test_decode_csum_gen : decode 0x0100000000 = .ok .csumGen := by decide
theorem test_decode_csum_chk : decode 0x0200000000 = .ok .csumChk := by decide
theorem test_decode_frm_enc : decode 0x1000000000 = .ok .frmEnc := by decide
theorem test_decode_frm_dec : decode 0x1100000000 = .ok .frmDec := by decide
theorem test_decode_tmr_start : decode 0x20000186A0 = .ok (.tmrStart 100000) := by decide -- Y9
theorem test_decode_tmr_restart : decode 0x2100000000 = .ok .tmrRestart := by decide
theorem test_decode_tmr_stop : decode 0x2200000000 = .ok .tmrStop := by decide
theorem test_decode_tmr_poll : decode 0x2300000000 = .ok .tmrPoll := by decide
theorem test_decode_rsm_init : decode 0x30FFFFFFFF = .ok (.rsmInit 0xFFFFFFFF) := by decide -- Y10
theorem test_decode_rsm_rx : decode 0x3100000000 = .ok .rsmRx := by decide
theorem test_decode_sys_reset : decode 0xFF00000000 = .ok .sysReset := by decide
theorem test_decode_unassigned : decode 0x0500000000 = .error .unassignedOpcode := by decide -- Y1
theorem test_decode_non_zero_operand : decode 0xFF00000001 = .error .nonZeroOperand := by decide -- Y7
theorem test_encode_words : encode (.tmrStart 100) = 0x2000000064 ∧ encode (.rsmInit 1000) = 0x30000003E8 := by decide -- P3, P2
theorem test_table_word : decodeTableWord 40 0x3100000000 = some .rsmRx ∧ decodeTableWord 40 0x0500000000 = none := by decide

/-! ### Smoke tests: each check refuses an ill-formed term -/

theorem smoke_standard_config : Config.standard.ok = true := by decide
theorem smoke_frame_size_low : Config.ok { frameSize := 17 } = false ∧ Config.ok { frameSize := 18 } = true := by decide
theorem smoke_frame_size_high : Config.ok { frameSize := 65536 } = false ∧ Config.ok { frameSize := 65535 } = true := by decide
theorem smoke_pend_slots_low : Config.ok { pendSlots := 0 } = false ∧ Config.ok { pendSlots := 1 } = true := by decide
theorem smoke_pend_slots_high : Config.ok { pendSlots := 256 } = false ∧ Config.ok { pendSlots := 255 } = true := by decide
theorem smoke_fin_mask : Config.ok { flagFin := 0x03 } = false ∧ Config.ok { flagFin := 0 } = false := by decide
theorem smoke_syn_mask : Config.ok { flagSyn := 0x06 } = false := by decide
theorem smoke_ack_mask : Config.ok { flagAck := 0x18 } = false := by decide
theorem smoke_fin_syn_equal : Config.ok { flagFin := 0x02 } = false := by decide
theorem smoke_fin_ack_equal : Config.ok { flagFin := 0x10 } = false := by decide
theorem smoke_syn_ack_equal : Config.ok { flagSyn := 0x10 } = false := by decide
theorem smoke_every_command_is_well_formed : Instr.wf (.tmrStart 0xFFFFFFFF) = true ∧ Instr.wf .rsmRx = true := by decide
theorem smoke_wide_value_refused :
    refusal (step { State.reset with script := [.writeReg 0x004 256] }) = some .valueWiderThanRegister := by decide
theorem smoke_config_refused :
    refusal (step { State.reset with cfg := { frameSize := 17 } }) = some .configOutOfBounds := by decide

/-! ### One step of every command -/

/-- Y3: `SYS.NOP` clears `CC` and leaves `ESR`. -/
theorem test_sys_nop :
    after (fun t => (t.cc, t.esr)) (exec .sysNop { State.reset with cc := .illegalCmd, esr := 2 }) = some (.ok, 2) := by decide
/-- K2. -/
theorem test_csum_gen_k2 :
    after (fun t => (t.seg.checksum, t.csumCalc, t.ckok)) (exec .csumGen (segState k2 [])) = some (0x973F, 0x973F, true) := by
  decide
/-- K3: an odd payload. -/
theorem test_csum_gen_k3 : after (fun t => t.csumCalc) (exec .csumGen (segState k3 [0x61, 0x62, 0x63])) = some 0xD2DD := by decide
/-- K31: one bit of the stored checksum flipped. -/
theorem test_csum_chk_k31 :
    after (fun t => (t.csumCalc, t.ckok, t.cc)) (exec .csumChk (segState { k2 with checksum := 0x973E } [])) =
      some (0x973F, false, .ok) := by decide
/-- K35: `0xFFFF` is not taken for `0x0000`. -/
theorem test_csum_chk_k35 :
    after (fun t => (t.csumCalc, t.ckok)) (exec .csumChk (segState ⟨0xFFFF, 0, 0, 0, 0, 0, 0, 0xFFFF⟩ [])) =
      some (0x0000, false) := by decide
/-- F3. -/
theorem test_frm_enc_f3 :
    after (fun t => (t.flen, t.frmBytes 0 21)) (exec .frmEnc (segState { k3 with checksum := 0xD2DD } [0x61, 0x62, 0x63])) =
      some (21, f3) := by decide
/-- F35, F36: `SEG_PLEN` one beyond `MSS`. -/
theorem test_frm_enc_f35 :
    after (fun t => (t.cc, t.esr, t.flen, t.frm)) (exec .frmEnc { State.reset with segPlen := 1007 }) =
      some (.encodingError, 4, 0, []) := by decide
/-- F3 decoded. -/
theorem test_frm_dec_f3 :
    after (fun t => (t.seg, t.segPlen, t.payBytes 3)) (exec .frmDec (frmState f3)) =
      some ({ k3 with checksum := 0xD2DD }, 3, [0x61, 0x62, 0x63]) := by decide
/-- F30 and F32: `FLEN` out of range on either side. -/
theorem test_frm_dec_f30 :
    after (fun t => (t.cc, t.esr)) (exec .frmDec { State.reset with flen := 17 }) = some (.decodingError, 8) ∧
    after (fun t => (t.cc, t.esr)) (exec .frmDec { State.reset with flen := 1025 }) = some (.decodingError, 8) := by decide
/-- T3. -/
theorem test_tmr_start_t3 :
    after (fun t => (t.tstate, t.deadline, t.tdur, t.tdurv)) (exec (.tmrStart 100) { State.reset with now := 5000 }) =
      some (.running, 5100, 100, true) := by decide
/-- T15: duration 0 expires within the command. -/
theorem test_tmr_start_t15 :
    after (fun t => (t.tstate, t.deadline)) (exec (.tmrStart 0) { State.reset with now := 6150 }) = some (.expired, 6150) := by
  decide
/-- T1: no previous duration. -/
theorem test_tmr_restart_t1 :
    after (fun t => (t.tstate, t.cc, t.esr)) (exec .tmrRestart State.reset) = some (.idle, .tmrNoDuration, 0x10) := by decide
/-- T9: the deadline counts from the restart. -/
theorem test_tmr_restart_t9 :
    after (fun t => (t.tstate, t.deadline))
      (exec .tmrRestart { State.reset with now := 5100, tstate := .expired, deadline := 5100, tdur := 100, tdurv := true }) =
      some (.running, 5200) := by decide
/-- T11. -/
theorem test_tmr_stop_t11 :
    after (fun t => (t.tstate, t.deadline, t.tdur, t.tdurv)) (exec .tmrStop running) = some (.idle, 0, 10, true) := by decide
/-- T5 and T7. -/
theorem test_tmr_poll_t5 :
    after (fun t => t.tpoll) (exec .tmrPoll running) = some false ∧
    after (fun t => (t.tpoll, t.tstate)) (exec .tmrPoll { running with now := 10, tstate := .expired }) = some (true, .expired) := by
  decide
/-- T20 and T21: the expiry is evaluated with the tick. -/
theorem test_tick_t21 :
    after (fun t => (t.tstate, t.now)) (step { running with script := [.tick 0] }) = some (.running, 7) ∧
    after (fun t => (t.tstate, t.now)) (step { running with script := [.tick 1000000] }) = some (.expired, 1000007) := by decide
/-- Q13. -/
theorem test_rsm_init_q13 :
    after (fun t => (t.expected, t.out, t.outlen, t.rstate, t.rxres))
      (exec (.rsmInit 50) { State.reset with rstate := .done, out := [1, 2], outlen := 2, rxres := .acceptedFin }) =
      some (50, [], 0, .active, .none) := by decide
/-- The worked example of R195. -/
theorem test_rsm_rx_r195 :
    after (fun t => (t.out, t.expected, t.rstate, t.rxres)) (exec .rsmRx (rxState 1000 f13)) =
      some ([0xDE, 0xAD, 0xBE, 0xEF, 0x01], 1005, .done, .acceptedFin) ∧
    after (fun t => (t.ckok, t.ackf)) (exec .rsmRx (rxState 1000 f13)) =
      some (true, [0, 0, 0, 0, 0, 0, 0, 0, 0, 0, 3, 0xED, 0x12, 0x10, 0, 0, 0xFB, 0xF0]) := by decide
/-- Q1 step 4: merging over the wrap of the offset. -/
theorem test_rsm_rx_q1 :
    after (fun t => (t.out, t.expected, t.rxres, t.pendCnt))
      (exec .rsmRx { rxState 0xFFFFFFFE q1d with slots := q1slot :: List.replicate 7 Slot.empty }) =
      some ([0x41, 0x42, 0x43, 0x44, 0x45, 0x46], 4, .accepted, 0) := by decide
/-- Y8. -/
theorem test_sys_reset_y8 :
    after (fun t => (t.statusWord, t.esr, t.flen, t.segPlen, t.acktHdrLen))
      (exec .sysReset { State.reset with cc := .illegalCmd, esr := 0x2E, flen := 1025, segPlen := 1007, acktHdrLen := 0 }) =
      some (0, 0, 0, 0, 18) := by decide
/-- Y1: an illegal word. -/
theorem test_illegal_word_y1 :
    after (fun t => (t.statusWord, t.esr)) (step (State.reset.withFetchWord 40 0x0500000000)) = some (0x00000100, 2) := by decide
/-- Y12: `CMD` and two reserved numbers read as 0. -/
theorem test_reads_y12 :
    hostReadReg State.reset 0x0D = 0 ∧ hostReadReg State.reset 0x0E = 0 ∧ hostReadReg State.reset 0x43 = 0 := by decide

/-! ### Witnesses: for every statement with hypotheses, a state and operands that meet them

Where a statement has several clauses there is one witness for each, at a boundary value where its range has one. -/

/-- The state whose next event is the word `w` written to `CMD`. -/
def given (w : Nat) (s : State) : State := { s with script := [.writeReg 0x00D w] }

theorem witness_WordIsARowsCommandExactlyWhenItMatches :
    (0x20FFFFFFFF#40 &&& 0xFF00000000 = 0x2000000000 ∧ (0xFFFFFFFF#32 = (0x20FFFFFFFF#40).extractLsb' 0 32)) ∧
    (0x3000000000#40 &&& 0xFF00000000 = 0x3000000000 ∧ (0#32 = (0x3000000000#40).extractLsb' 0 32)) ∧
    (0xFF00000000#40 &&& Instr.rowMask .sysReset = Instr.rowMatch .sysReset) ∧
    ¬ (0xFF00000001#40 &&& 0xFFFFFFFFFF = 0xFF00000000) := by decide

theorem witness_DecodeAndEncodeAgree :
    Instr.wf (.rsmInit 0xFFFFFFFF) = true ∧ decode 0x2000000000 = .ok (.tmrStart 0) ∧ decode 0x30FFFFFFFF = .ok (.rsmInit 0xFFFFFFFF) := by
  decide

theorem witness_IllegalWordChangesOnlyCcAndItsStickyBit_opcode :
    let s := given 0xFEFFFFFFFF State.reset
    s.cfg.ok = true ∧ s.busy = false ∧ s.script = .writeReg 0x00D (0xFEFFFFFFFF#40).toNat :: [] ∧
      ((0xFEFFFFFFFF#40).extractLsb' 32 8).toNat ∉ [0x00, 0x01, 0x02, 0x10, 0x11, 0x20, 0x21, 0x22, 0x23, 0x30, 0x31, 0xFF] := by
  decide

theorem witness_IllegalWordChangesOnlyCcAndItsStickyBit_operand :
    let s := given 0xFF00000001 State.reset
    s.cfg.ok = true ∧ s.busy = false ∧ s.script = .writeReg 0x00D (0xFF00000001#40).toNat :: [] ∧
      ((0xFF00000001#40).extractLsb' 32 8).toNat ∉ [0x20, 0x30] ∧ (0xFF00000001#40).extractLsb' 0 32 ≠ 0 := by
  decide

theorem witness_StepRunsTheDecodedCommand :
    let s := given 0x30FFFFFFFF State.reset
    s.cfg.ok = true ∧ s.busy = false ∧ s.script = .writeReg 0x00D (0x30FFFFFFFF#40).toNat :: [] ∧
      decode 0x30FFFFFFFF = .ok (.rsmInit 0xFFFFFFFF) := by decide

theorem witness_OffsetsCompareBySerialNumber :
    (0x80000004#32 = add32 4 (2 ^ 31)) ∧
    ((0x7FFFFFFF#32).toNat < (0#32).toNat + 2 ^ 31 ∧ (0#32).toNat < (0x7FFFFFFF#32).toNat + 2 ^ 31) := by decide

theorem witness_FoldingIsArithmeticModulo65535 :
    (0 < 65536 ∧ 1 ≤ 1 ∧ 1 ≤ 0xFFFF ∧ 1 % 0xFFFF = 65536 % 0xFFFF) ∧
    (0 < 65535 ∧ 65535 % 0xFFFF = 0) ∧ (∀ x ∈ [0, 0], x = 0) := by decide

theorem witness_CsumGenStoresTheChecksum :
    (let s := { State.reset with segPlen := 1006 }; s.segPlen.toNat ≤ s.cfg.mss) ∧
    (let s := { State.reset with segPlen := 1007 }; s.cfg.mss < s.segPlen.toNat) := by decide

theorem witness_CsumChkComparesWithTheStoredChecksum :
    (let s := segState { k2 with checksum := 0x973F } []; s.segPlen.toNat ≤ s.cfg.mss ∧
      s.seg.checksum = complementSum s.seg s.payByte s.segPlen.toNat) ∧
    (let s := segState { k2 with checksum := 0x973E } []; s.segPlen.toNat ≤ s.cfg.mss ∧
      s.seg.checksum ≠ complementSum s.seg s.payByte s.segPlen.toNat) ∧
    (let s := { State.reset with segPlen := 1007 }; s.cfg.mss < s.segPlen.toNat) := by decide

theorem witness_ChecksumSpecialValues :
    checksum Header.zero [] = 0xFFFF ∧ checksum ⟨0xFFFF, 0, 0, 0, 0, 0, 0, 0⟩ [] = 0x0000 ∧
    (List.replicate 1006 (0xFF : Byte)).length ≤ 1006 :=
  ⟨by decide, by decide, by rw [List.length_replicate]⟩

theorem witness_AllOnesTestAcceptsOneCaseMore :
    let h : Header := ⟨0xFFFF, 0, 0, 0, 0, 0, 0, 0xFFFF⟩
    sum16 h [] = 0xFFFF ∧ h.checksum = 0xFFFF ∧ h.checksum ≠ checksum h [] := by decide

theorem witness_EveryOneByteChangeIsDetected :
    let s := frmState f3
    let t := frmState (f3.set 20 0xE3)
    (18 ≤ s.flen.toNat ∧ s.flen.toNat ≤ s.cfg.frameSize) ∧ t.cfg = s.cfg ∧ t.flen = s.flen ∧ 20 < s.flen.toNat ∧
      t.frmByte 20 ≠ s.frmByte 20 ∧ (∀ j, j < s.flen.toNat → j ≠ 20 → t.frmByte j = s.frmByte j) ∧
      ((after (exec .csumChk) (exec .frmDec s)).bind (after (fun u => u.ckok))) = some true := by decide

theorem witness_ChecksumBlindSpots :
    let h : Header := k3
    let g : Header := { k3 with hdrLen := 0, flags := 18 }
    ([0x61, 0x62] : List Byte).length % 2 = 0 ∧ ([] : List Byte).length % 2 = 0 ∧
      (0 < (addends h []).sum ∧ 0 < (addends h [0xFF, 0xFF]).sum ∧ (addends h []).sum % 0xFFFF = (addends h [0xFF, 0xFF]).sum % 0xFFFF) ∧
      (g = { h with hdrLen := g.hdrLen, flags := g.flags } ∧ g.hdrLen.toNat + g.flags.toNat = h.hdrLen.toNat + h.flags.toNat) := by
  decide

theorem witness_EndAroundCarryAdderComputesTheChecksum :
    0xFFFF ∈ addends16 ⟨0, 0, 0xFFFFFFFF, 0, 0, 0, 0, 0⟩ [] ∧
    [2, 1, 0, 0, 0, 0, 0, 0, 0].Perm (addends16 ⟨1, 2, 0, 0, 0, 0, 0, 0⟩ []) := by decide

theorem witness_SealThenOpenVerifies :
    let s := { segState k3 [0x61, 0x62, 0x63] with script := Script.sealSegment ++ Script.openFrame }
    s.cfg.ok = true ∧ s.busy = false ∧ s.segPlen.toNat ≤ s.cfg.mss ∧
      s.script = Script.sealSegment ++ Script.openFrame := by decide

theorem witness_FrmEncWritesTheFrame :
    (let s := { State.reset with segPlen := 1006 }; s.cfg.ok = true ∧ s.segPlen.toNat ≤ s.cfg.mss) ∧
    (let s := { State.reset with segPlen := 1007 }; s.cfg.ok = true ∧ s.cfg.mss < s.segPlen.toNat) := by decide

theorem witness_FrmDecReadsTheFrame :
    (let s := { State.reset with flen := 18 }; 18 ≤ s.flen.toNat ∧ s.flen.toNat ≤ s.cfg.frameSize) ∧
    (let s := { State.reset with flen := 1024 }; 18 ≤ s.flen.toNat ∧ s.flen.toNat ≤ s.cfg.frameSize) ∧
    (let s := { State.reset with flen := 17 }; ¬ (18 ≤ s.flen.toNat ∧ s.flen.toNat ≤ s.cfg.frameSize)) ∧
    (let s := { State.reset with flen := 1025 }; ¬ (18 ≤ s.flen.toNat ∧ s.flen.toNat ≤ s.cfg.frameSize)) := by decide

theorem witness_DecodingTheEncodedFrameRestoresTheSegment :
    let s := segState k3 [0x61, 0x62, 0x63]
    s.cfg.ok = true ∧ after (fun t => t.cc) (exec .frmEnc s) = some .ok := by decide

theorem witness_EncodingTheDecodedSegmentRestoresTheFrame :
    after (fun t => t.cc) (exec .frmDec (frmState f3)) = some .ok := by decide

theorem witness_TmrStartArmsTheTimer :
    let s := { State.reset with now := 0xFFFFFFFEFFFFFFFF }
    s.now.toNat < timeBound ∧ s.now.toNat + (0xFFFFFFFF#32).toNat < 2 ^ 64 := by decide

theorem witness_TmrRestartUsesThePreviousDuration :
    (running.now.toNat < timeBound ∧ running.tdurv = true) ∧
    (State.reset.now.toNat < timeBound ∧ State.reset.tdurv = false) := by decide

theorem witness_TimeAdvanceChangesOnlyNowAndExpiry :
    (let s := { running with script := [.tick 0xFFFFFFFEFFFFFFF8] };
      s.cfg.ok = true ∧ s.script = .tick 0xFFFFFFFEFFFFFFF8 :: [] ∧ s.now.toNat + 0xFFFFFFFEFFFFFFF8 < timeBound) ∧
    (let s := { running with script := [.tick 0xFFFFFFFEFFFFFFF9] };
      s.cfg.ok = true ∧ s.script = .tick 0xFFFFFFFEFFFFFFF9 :: [] ∧ timeBound ≤ s.now.toNat + 0xFFFFFFFEFFFFFFF9) ∧
    (running.tstate = .running ∧ running.deadline.toNat ≤ running.now.toNat + 3) ∧
    (running.tstate = .running ∧ ¬ running.deadline.toNat ≤ running.now.toNat + 2) := by decide

theorem witness_ExpiryIsStickyAndExact :
    let evs : List Event := [.tick 99, .writeReg 0x00D 0x2300000000, .tick 1]
    let s := { State.reset with now := 5000, script := Script.cmd (.tmrStart 100) ++ evs }
    s.cfg.ok = true ∧ s.busy = false ∧ s.now.toNat < timeBound ∧ s.script = Script.cmd (.tmrStart 100) ++ evs ∧
      (∀ e ∈ evs, e.leavesTimerArmed = true) ∧
      after (fun t => (t.now, t.tstate)) (Sys2Proof.core.run (evs.length + 1) s) = some (5100, .expired) := by decide

theorem witness_OnlyTimerEventsChangeTheTimer :
    let s := given 0x2300000000 running
    s.script = .writeReg 0x00D 0x2300000000 :: [] ∧ after (fun t => t.cc) (step s) = some .ok ∧
      (Event.writeReg 0x00D 0x2300000000).leavesTimerArmed = true := by decide

theorem witness_RsmRxInIdleIsRefused : State.reset.rstate = .idle := by decide

/-- An open stream with a frame of length 17: `BAD_FRAME` (Q11). -/
def badFrameState : State := { rxState 0 [] with flen := 17 }
/-- An open stream with a frame whose checksum does not match. -/
def badCsumState : State := rxState 0xFFFFFFFE (q1d.set 21 0x00)
/-- Q1 after step 1: one slot holds offset 2. -/
def oneSlotState (f : List Byte) : State := { rxState 0xFFFFFFFE f with slots := q1slot :: List.replicate 7 Slot.empty }
/-- A full slot file of one slot, holding an entry that is not the frame's. -/
def fullState (f : List Byte) : State :=
  { rxState 0xFFFFFFFE f with
    cfg := { pendSlots := 1 }, slots := [{ v := true, fin := false, off := 9, len := 1, data := [(0, 7)] }] }

theorem rxLegal_of {s : State} (h : (decide (18 ≤ s.flen.toNat) && decide (s.flen.toNat ≤ s.cfg.frameSize)) = true) :
    s.rxLegal := by
  simpa [State.rxLegal] using h

theorem rxValid_of {s : State}
    (h : (decide (18 ≤ s.flen.toNat) && decide (s.flen.toNat ≤ s.cfg.frameSize) && s.rxHeader.checksum == s.rxChecksum) = true) :
    s.rxValid := by
  simp only [Bool.and_eq_true, decide_eq_true_eq, beq_iff_eq] at h
  exact ⟨h.1, h.2⟩

theorem not_rxValid_of {s : State} (h : (s.rxHeader.checksum == s.rxChecksum) = false) : ¬ s.rxValid := by
  rintro ⟨_, h'⟩
  simp [h'] at h

theorem pending_of {s : State} {x : Word} (h : s.slots.any (fun t => t.v && t.off == x) = true) : s.pending x := by
  simpa [State.pending] using h

theorem not_pending_of {s : State} {x : Word} (h : s.slots.any (fun t => t.v && t.off == x) = false) : ¬ s.pending x := by
  rintro ⟨t, ht, hv, ho⟩
  have := List.any_eq_false.mp h t ht
  simp [hv, ho] at this

theorem hasFreeSlot_of {s : State} (h : s.slots.any (fun t => !t.v) = true) : s.hasFreeSlot := by
  simpa [State.hasFreeSlot] using h

theorem not_hasFreeSlot_of {s : State} (h : s.slots.any (fun t => !t.v) = false) : ¬ s.hasFreeSlot := by
  rintro ⟨t, ht, hv⟩
  have := List.any_eq_false.mp h t ht
  simp [hv] at this

theorem witness_RsmRxLeavesTheDecodedSegment :
    (let s := { rxState 0 [] with flen := 18 }; s.rstate ≠ .idle ∧ s.rxLegal) ∧
    (let s := { rxState 0 [] with flen := 1024 }; s.rstate ≠ .idle ∧ s.rxLegal) ∧
    (let s := badFrameState; s.rstate ≠ .idle ∧ ¬ s.rxLegal) :=
  ⟨⟨by decide, rxLegal_of (by decide)⟩, ⟨by decide, rxLegal_of (by decide)⟩, by decide, fun h => absurd h.1 (by decide)⟩

theorem witness_RsmRxOutcome_bad_frame : badFrameState.rstate ≠ .idle ∧ ¬ badFrameState.rxLegal :=
  ⟨by decide, fun h => absurd h.1 (by decide)⟩

theorem witness_RsmRxOutcome_bad_csum : badCsumState.rstate ≠ .idle ∧ badCsumState.rxLegal ∧ ¬ badCsumState.rxValid :=
  ⟨by decide, rxLegal_of (by decide), not_rxValid_of (by decide)⟩

theorem witness_RsmRxOutcome_after_done :
    let s := { rxState 0 f3 with rstate := .done }; s.rstate ≠ .idle ∧ s.rxValid ∧ s.rstate = .done :=
  ⟨by decide, rxValid_of (by decide), by decide⟩

/-- Exactly `2^31` ahead (Q1 step 5). -/
theorem witness_RsmRxOutcome_stale :
    let s := rxState 4 q1e; s.rxValid ∧ s.rstate = .active ∧ lt32 s.rxHeader.seqNum s.expected = true :=
  ⟨rxValid_of (by decide), by decide, by decide⟩

theorem witness_RsmRxOutcome_in_order :
    let s := oneSlotState q1d; s.rxValid ∧ s.rstate = .active ∧ s.rxHeader.seqNum = s.expected :=
  ⟨rxValid_of (by decide), by decide, by decide⟩

theorem witness_RsmRxOutcome_dup_pending :
    let s := oneSlotState q1
    s.rxValid ∧ s.rstate = .active ∧ gt32 s.rxHeader.seqNum s.expected = true ∧ s.pending s.rxHeader.seqNum :=
  ⟨rxValid_of (by decide), by decide, by decide, pending_of (by decide)⟩

theorem witness_RsmRxOutcome_no_slot :
    let s := fullState q1
    s.rxValid ∧ s.rstate = .active ∧ gt32 s.rxHeader.seqNum s.expected = true ∧ ¬ s.pending s.rxHeader.seqNum ∧ ¬ s.hasFreeSlot :=
  ⟨rxValid_of (by decide), by decide, by decide, not_pending_of (by decide), not_hasFreeSlot_of (by decide)⟩

/-- `2^31 - 1` ahead (Q1 step 6). -/
theorem witness_RsmRxOutcome_buffered :
    let s := rxState 4 q1f
    s.rxValid ∧ s.rstate = .active ∧ gt32 s.rxHeader.seqNum s.expected = true ∧ ¬ s.pending s.rxHeader.seqNum ∧ s.hasFreeSlot :=
  ⟨rxValid_of (by decide), by decide, by decide, not_pending_of (by decide), hasFreeSlot_of (by decide)⟩

theorem witness_DroppedFrameLeavesTheStream :
    (badCsumState.rstate ≠ .idle ∧ ¬ badCsumState.rxValid) ∧
    (let s := { rxState 0 f3 with rstate := .done }; s.rstate ≠ .idle ∧ s.rstate = .done) ∧
    (let s := rxState 4 q1e; s.rstate ≠ .idle ∧ lt32 s.rxHeader.seqNum s.expected = true) ∧
    (let s := oneSlotState q1; s.rstate ≠ .idle ∧ gt32 s.rxHeader.seqNum s.expected = true ∧ s.pending s.rxHeader.seqNum) ∧
    (let s := fullState q1; s.rstate ≠ .idle ∧ gt32 s.rxHeader.seqNum s.expected = true ∧ ¬ s.hasFreeSlot) :=
  ⟨⟨by decide, not_rxValid_of (by decide)⟩, ⟨by decide, by decide⟩, ⟨by decide, by decide⟩,
    ⟨by decide, by decide, pending_of (by decide)⟩, by decide, by decide, not_hasFreeSlot_of (by decide)⟩

/-- Q1 step 4, where the loop goes one round and ends at a gap; R195's example, where it ends at a FIN. -/
theorem witness_InOrderSegmentIsAcceptedAndMerged :
    (let s := oneSlotState q1d; s.rstate = .active ∧ s.rxValid ∧ s.rxHeader.seqNum = s.expected ∧
      after (fun t => t.rxres) (exec .rsmRx s) = some .accepted) ∧
    (let s := rxState 1000 f13; s.rstate = .active ∧ s.rxValid ∧ s.rxHeader.seqNum = s.expected ∧
      after (fun t => t.rxres) (exec .rsmRx s) = some .acceptedFin) :=
  ⟨⟨by decide, rxValid_of (by decide), by decide, by decide⟩, by decide, rxValid_of (by decide), by decide, by decide⟩

/-- The least free slot is 1: slot 0 holds offset 2. -/
theorem witness_OutOfOrderSegmentTakesTheLeastFreeSlot :
    let s := { oneSlotState q1f with expected := 4 }
    s.rstate = .active ∧ s.rxValid ∧ gt32 s.rxHeader.seqNum s.expected = true ∧ ¬ s.pending s.rxHeader.seqNum ∧
      s.slots[1]? = some Slot.empty ∧ Slot.empty.v = false ∧
      (∀ (j : Nat) (w : Slot), j < 1 → s.slots[j]? = some w → w.v = true) := by
  refine ⟨by decide, rxValid_of (by decide), by decide, not_pending_of (by decide), by decide, by decide, ?_⟩
  intro j w hj hw
  obtain rfl : j = 0 := by omega
  obtain rfl : w = q1slot := by simpa [oneSlotState] using hw.symm
  rfl

theorem witness_AcknowledgementCarriesExpected : (rxState 1000 f13).rstate ≠ .idle := by decide

theorem witness_MergeRunsItsLoopToTheEnd :
    (oneSlotState q1d).slots.Pairwise (fun a b => a.v = true → b.v = true → a.off ≠ b.off) ∧
    (oneSlotState q1d).slots.any (fun t => t.v) = true := by decide

theorem reset_inv : State.reset.Inv :=
  { cfg := by decide, now := by decide, busy := by decide, timer := by decide, esr := by decide, pay := by decide
    frm := by decide, ackf := by decide, outlen := by decide, slotCount := by decide, slot := by decide
    slotsDistinct := by decide, slotsAhead := by decide, slotsClosed := by decide }

/-- A machine in the middle of a stream (Q1 after step 1, with the frame of step 4) keeps the invariant. -/
theorem open_stream_inv : (oneSlotState q1d).Inv :=
  { cfg := by decide, now := by decide, busy := by decide, timer := by decide, esr := by decide, pay := by decide
    frm := by decide, ackf := by decide, outlen := by decide, slotCount := by decide, slot := by decide
    slotsDistinct := by decide, slotsAhead := by decide, slotsClosed := by decide }

theorem witness_ExpectedMovesOnlyOverDeliveredBytes :
    (oneSlotState q1d).Inv ∧ after (fun t => t.outlen) (exec .rsmRx (oneSlotState q1d)) = some 6 :=
  ⟨open_stream_inv, by decide⟩

theorem witness_EveryStepKeepsTheInvariant :
    after (fun t => t.rxres) (step ((oneSlotState q1d).withFetchWord 40 0x3100000000)) = some .accepted ∧
    ((oneSlotState q1d).withFetchWord 40 0x3100000000).Inv :=
  ⟨by decide,
    { cfg := by decide, now := by decide, busy := by decide, timer := by decide, esr := by decide, pay := by decide
      frm := by decide, ackf := by decide, outlen := by decide, slotCount := by decide, slot := by decide
      slotsDistinct := by decide, slotsAhead := by decide, slotsClosed := by decide }⟩

theorem witness_RsmRxLeavesEverythingElse :
    after (fun t => t.rxres) (exec .rsmRx (oneSlotState q1)) = some .dupPending ∧ RxResult.dupPending ≠ .buffered := by decide

theorem witness_HardwareResetGivesTheResetState :
    let s := { running with script := [.hardwareReset] }
    s.cfg.ok = true ∧ s.script = .hardwareReset :: [] := by decide

theorem witness_ResetReadsAsTheRegisterTable :
    (0x23 : Nat) ≠ 0x10 ∧ (0xFFF : Nat) ≠ 0x10 ∧ hostReadReg State.reset 0x23 = 18 := by decide

theorem witness_ErrorsArePrecise : after (fun t => t.cc) (exec .frmDec State.reset) = some .decodingError := by decide

/-- One word and state for every code. -/
theorem witness_CompletionCodesFollowTheTable :
    (after (fun t => t.statusWord) (issueCommand 0x0100000001 State.reset) = some 0x00000100) ∧
    (decode 0x1000000000 = .ok .frmEnc ∧ State.reset.cfg.mss < ({ State.reset with segPlen := 1007 } : State).segPlen.toNat) ∧
    (decode 0x1100000000 = .ok .frmDec ∧ ¬ 18 ≤ ({ State.reset with flen := 17 } : State).flen.toNat) ∧
    (decode 0x2100000000 = .ok .tmrRestart ∧ State.reset.tdurv = false) ∧
    (decode 0x3100000000 = .ok .rsmRx ∧ State.reset.rstate = .idle) := by decide

theorem witness_EsrBitsAreStickyUntilReset :
    let s := given 0x3100000000 { State.reset with esr := 0x0000002E }
    s.script = .writeReg 0x00D 0x3100000000 :: [] ∧ after (fun t => t.esr) (step s) = some 0x0000002E ∧
      Event.writeReg 0x00D 0x3100000000 ≠ .hardwareReset ∧ Event.writeReg 0x00D 0x3100000000 ≠ .writeReg 0x00D 0xFF00000000 := by
  decide

/-- `RSM.RX` with a bad frame length: no field but `RXRES` is written. `TMR.POLL` writes `TPOLL` only. -/
theorem witness_ResultFieldsAreWrittenByTheirCommandsOnly :
    (Instr.tmrPoll ≠ .csumGen ∧ Instr.tmrPoll ≠ .csumChk ∧ Instr.tmrPoll ≠ .frmDec ∧ Instr.tmrPoll ≠ .rsmRx ∧
      Instr.tmrPoll ≠ .sysReset ∧ ∀ x, Instr.tmrPoll ≠ .rsmInit x) ∧
    (Instr.frmDec ≠ .csumGen ∧ Instr.frmDec ≠ .csumChk ∧ Instr.frmDec ≠ .rsmRx ∧ Instr.frmDec ≠ .sysReset ∧
      Instr.frmDec ≠ .tmrPoll) := by
  simp

theorem witness_HostReadRegHandsBackTheValue :
    (let s := { State.reset with script := [.readReg 0x05E] };
      s.cfg.ok = true ∧ s.busy = false ∧ s.slots.length = s.cfg.pendSlots ∧ s.script = .readReg 0x05E :: [] ∧
        Reg.ofNumber s.cfg (0x05E#12).toNat = some (.slotLen 7)) ∧
    (let s := { State.reset with script := [.readReg 0x060] };
      s.cfg.ok = true ∧ s.busy = false ∧ s.slots.length = s.cfg.pendSlots ∧ s.script = .readReg 0x060 :: [] ∧
        Reg.ofNumber s.cfg (0x060#12).toNat = none) ∧
    (let s := { State.reset with script := [.readReg 0x00D] };
      s.cfg.ok = true ∧ s.busy = false ∧ s.slots.length = s.cfg.pendSlots ∧ s.script = .readReg 0x00D :: []) := by decide

theorem witness_HostWriteRegStoresOneRegister :
    let s := { State.reset with script := [.writeReg 0x024 0xFFFF] }
    s.cfg.ok = true ∧ s.busy = false ∧ s.script = .writeReg 0x024 0xFFFF :: [] ∧
      Reg.ofNumber s.cfg (0x024#12).toNat = some .acktRecvWindow ∧ Reg.access .acktRecvWindow = .rw ∧
      0xFFFF < 2 ^ Reg.width .acktRecvWindow := by decide

theorem witness_IgnoredWritesChangeNothing_registers :
    (let s := { State.reset with script := [.writeReg 0xFFF 9] };
      s.cfg.ok = true ∧ s.busy = false ∧ s.script = .writeReg 0xFFF 9 :: [] ∧ Reg.ofNumber s.cfg (0xFFF#12).toNat = none) ∧
    (let s := { State.reset with script := [.writeReg 0x018 9] };
      s.cfg.ok = true ∧ s.busy = false ∧ s.script = .writeReg 0x018 9 :: [] ∧
        Reg.ofNumber s.cfg (0x018#12).toNat = some .expected ∧ Reg.access .expected = .ro ∧ 9 < 2 ^ Reg.width .expected) := by
  decide

theorem witness_IgnoredWritesChangeNothing_bytes :
    let s := { State.reset with script := [.writeByte 0x000 1006 7] }
    s.cfg.ok = true ∧ s.busy = false ∧ s.script = .writeByte 0x000 1006 7 :: [] ∧
      ¬ ((0x000#12) = 0x000 ∧ 1006 < s.cfg.mss) ∧ ¬ ((0x000#12) = 0x001 ∧ 1006 < s.cfg.frameSize) := by decide

theorem witness_HostWriteByteStoresOneByte :
    (let s := { State.reset with script := [.writeByte 0x000 1005 7] };
      s.cfg.ok = true ∧ s.busy = false ∧ s.script = .writeByte 0x000 1005 7 :: [] ∧ 1005 < s.cfg.mss) ∧
    (let s := { State.reset with script := [.writeByte 0x001 1023 7] };
      s.cfg.ok = true ∧ s.busy = false ∧ s.script = .writeByte 0x001 1023 7 :: [] ∧ 1023 < s.cfg.frameSize) := by decide

/-- A read of every buffer at the last index that exists, and at the first that does not. -/
theorem witness_HostReadByteHandsBackTheByte :
    let s (b : BitVec 12) (i : Nat) : State := { State.reset with out := [1, 2], outlen := 2, script := [.readByte b i] }
    ((s 0x000 1005).cfg.ok = true ∧ (s 0x000 1005).busy = false ∧ (s 0x000 1005).ackf.length = 18 ∧
      (s 0x000 1005).outlen.toNat = (s 0x000 1005).out.length ∧ (s 0x000 1005).script = .readByte 0x000 1005 :: []) ∧
    (1005 < (s 0x000 1005).cfg.mss ∧ (s 0x000 1006).cfg.mss ≤ 1006) ∧
    (1023 < (s 0x001 1023).cfg.frameSize ∧ (s 0x001 1024).cfg.frameSize ≤ 1024) ∧
    ((s 0x002 17).ackf[17]? = some 0 ∧ (s 0x003 1).out[1]? = some 2 ∧ (s 0x003 2).out.length ≤ 2) ∧
    ((0x017#12).toNat = 0x10 + 7 ∧ 7 < (s 0x017 1005).cfg.pendSlots ∧ 0x010 + (s 0x018 0).cfg.pendSlots ≤ (0x018#12).toNat) ∧
    (0x004 ≤ (0x00F#12).toNat ∧ (0x00F#12).toNat < 0x010) := by decide

theorem witness_CommandsThatMoveNoDataLeaveEveryBuffer :
    (0xFFF : Nat) ≠ 0x02 ∧ (0x10 : Nat) ≠ 0x03 ∧ (∃ d, Instr.tmrStart 5 = .tmrStart d) := ⟨by decide, by decide, 5, rfl⟩

theorem witness_NoCommandWritesTheTimeBaseOrTheTemplate : Instr.rsmRx ≠ .sysReset ∧ Instr.frmEnc ≠ .rsmRx := by decide

/-- A dutiful event and an undutiful one, each next in the script of a state that keeps the invariant. -/
theorem witness_NothingIsStuckWhenDutiesAreKept :
    (let s := { State.reset with script := [.writeReg 0x004 255] };
      s.Inv ∧ s.script = .writeReg 0x004 255 :: [] ∧ (Event.writeReg 0x004 255).dutiful s = true) ∧
    (let s := { State.reset with script := [.tick timeBound] };
      s.Inv ∧ s.script = .tick timeBound :: [] ∧ (Event.tick timeBound).dutiful s = false) :=
  ⟨⟨{ reset_inv with }, rfl, by decide⟩, { reset_inv with }, rfl, by decide⟩

theorem witness_OutsideTheContractTheModelRefuses :
    (let s := { State.reset with busy := true, script := [.readReg 0x00C] };
      s.cfg.ok = true ∧ s.busy = true ∧ s.script = .readReg 0x00C :: [] ∧ (0x00C#12) ≠ 0x00B) ∧
    (let s := { State.reset with busy := true, script := [.readReg 0x00B] };
      s.cfg.ok = true ∧ s.busy = true ∧ s.script = .readReg 0x00B :: []) ∧
    (let s := { State.reset with cfg := { pendSlots := 0 } }; s.cfg.ok = false) ∧
    (State.reset.cfg.ok = true ∧ State.reset.script = []) := by decide

/-- The last slot, a slot that is filled, and the first number past the slots. -/
theorem witness_HostReadRegHandsBackTheValue_numbers :
    let s := oneSlotState q1
    (7 < s.cfg.pendSlots ∧ s.slots[7]? = some Slot.empty) ∧ (0 < s.cfg.pendSlots ∧ s.slots[0]? = some q1slot) ∧
      (0x40 + 4 * s.cfg.pendSlots ≤ 0x60 ∧ 0x40 ≤ 0x5F ∧ 0x5F % 4 = 3) := by decide

/-- The largest value that each width takes. -/
theorem witness_HostWriteRegStoresOneRegister_numbers :
    (let s := { State.reset with script := [.writeReg 0x000 0xFFFF] };
      s.cfg.ok = true ∧ s.busy = false ∧ s.script = .writeReg 0x000 0xFFFF :: [] ∧ 0xFFFF < 2 ^ 16) ∧
    (let s := { State.reset with script := [.writeReg 0x022 0xFFFFFFFF] };
      s.cfg.ok = true ∧ s.busy = false ∧ s.script = .writeReg 0x022 0xFFFFFFFF :: [] ∧ 0xFFFFFFFF < 2 ^ 32) ∧
    (let s := { State.reset with script := [.writeReg 0x023 0xFF] };
      s.cfg.ok = true ∧ s.busy = false ∧ s.script = .writeReg 0x023 0xFF :: [] ∧ 0xFF < 2 ^ 8) := by decide

theorem witness_IgnoredWritesChangeNothing_numbers :
    (let s := { State.reset with script := [.writeReg 0x011 0xFFFFFFFFFFFFFFFF] };
      s.cfg.ok = true ∧ s.busy = false ∧ s.script = .writeReg 0x011 0xFFFFFFFFFFFFFFFF :: [] ∧ 0xFFFFFFFFFFFFFFFF < 2 ^ 64) ∧
    (let s := { State.reset with script := [.writeReg 0x05E 0xFFFF] };
      s.cfg.ok = true ∧ s.busy = false ∧ s.script = .writeReg 0x05E 0xFFFF :: [] ∧ 7 < s.cfg.pendSlots ∧
        (0x05E#12).toNat = 0x42 + 4 * 7 ∧ 0xFFFF < 2 ^ 16) ∧
    (let s := { State.reset with script := [.writeReg 0x060 5] };
      s.cfg.ok = true ∧ s.busy = false ∧ s.script = .writeReg 0x060 5 :: [] ∧ 0x40 + 4 * s.cfg.pendSlots ≤ (0x060#12).toNat) := by
  decide

theorem witness_OutsideTheContractTheModelRefuses_wide :
    let s := { State.reset with script := [.writeReg 0x00D (2 ^ 40)] }
    s.cfg.ok = true ∧ s.busy = false ∧ s.script = .writeReg 0x00D (2 ^ 40) :: [] ∧ (0x00D#12).toNat = 0x0D ∧ 2 ^ 40 ≤ 2 ^ 40 := by
  decide

/-- Q1 step 4, the stream opened at `0xFFFFFFFE`: `EXPECTED` passes the wrap; and `RSM.INIT`, which opens it elsewhere. -/
theorem witness_EveryStepKeepsTheStreamPosition :
    (let s := given 0x3100000000 (oneSlotState q1d);
      s.script = .writeReg 0x00D 0x3100000000 :: [] ∧ s.expected = add32 0xFFFFFFFE (s.outlen.toNat % 2 ^ 32) ∧
        after (fun t => (t.expected, t.outlen)) (step s) = some (4, 6) ∧
        (Event.writeReg 0x00D 0x3100000000).streamStart 0xFFFFFFFE = 0xFFFFFFFE) ∧
    (let s := given 0x30000003E8 (oneSlotState q1d);
      after (fun t => (t.expected, t.outlen)) (step s) = some (1000, 0) ∧
        (Event.writeReg 0x00D 0x30000003E8).streamStart 0xFFFFFFFE = 1000) := by decide

end Sys2Proof.Tests
end

section
/-! PROOFS. The byte helpers (R10). -/

namespace Sys2Proof.Machine

/-- The byte cut out of a number at bit `k`, as a quotient and a remainder. -/
theorem toNat_extractByte {w : Nat} (v : BitVec w) (k : Nat) :
    (v.extractLsb' k 8).toNat = v.toNat / 2 ^ k % 2 ^ 8 := by
  rw [BitVec.extractLsb'_toNat, Nat.shiftRight_eq_div_pow]

/-- The leading byte of a number of `k + 8` bits is the whole quotient: nothing stands above it. -/
theorem toNat_extractByte_top {k : Nat} (v : BitVec (k + 8)) : (v.extractLsb' k 8).toNat = v.toNat / 2 ^ k := by
  have quotient_lt : v.toNat / 2 ^ k < 2 ^ 8 := Nat.div_lt_of_lt_mul (Nat.pow_add 2 k 8 ▸ v.isLt)
  rw [toNat_extractByte, Nat.mod_eq_of_lt quotient_lt]

theorem toNat_extractByte_zero {w : Nat} (v : BitVec w) : (v.extractLsb' 0 8).toNat = v.toNat % 2 ^ 8 := by
  rw [toNat_extractByte, Nat.pow_zero, Nat.div_one]

/-- Settles O6: the bytes that `be16` and `be32` cut out are the quotients and remainders of R10, and `u16` and `u32` put
them together again. -/
theorem byteHelpersAreBigEndianAndInverse : Obligations.ByteHelpersAreBigEndianAndInverse := by
  unfold Obligations.ByteHelpersAreBigEndianAndInverse
  refine ⟨fun b0 b1 => ⟨u16_toNat b0 b1, be16_u16 b0 b1⟩,
    fun b0 b1 b2 b3 => ⟨u32_toNat b0 b1 b2 b3, be32_u32 b0 b1 b2 b3⟩, fun v => ?be16_bytes, fun v => ?be32_bytes⟩
  case be16_bytes =>
    exact ⟨_, _, rfl, toNat_extractByte_top v, toNat_extractByte_zero v, u16_be16 v⟩
  case be32_bytes =>
    exact ⟨_, _, _, _, rfl, toNat_extractByte_top v, toNat_extractByte v 16, toNat_extractByte v 8,
      toNat_extractByte_zero v, u32_be32 v⟩

end Sys2Proof.Machine
end

section
/-! PROOFS. The host writes that are ignored (R83). -/

namespace Sys2Proof.Machine

/-- The number `n` names a read-only register (R22), and `v` is a value of that register's width (R21). -/
def readOnlyWrite (c : Config) (n v : Nat) : Prop :=
  ∃ reg, Reg.ofNumber c n = some reg ∧ reg.access = .ro ∧ v < 2 ^ reg.width

/-- A read-only register holds nothing of a value stored in it (R83). -/
theorem storeReg_of_readOnly {reg : Reg} (ro : reg.access = .ro) (v : Nat) (s : State) : s.storeReg v reg = s := by
  cases reg
  case csumCalc | status | esr | now | deadline | tdur | expected | outlen | pendcnt | slotCtl | slotOff | slotLen => rfl
  all_goals exact absurd ro (by decide)

/-- A write to a read-only register is ignored (R83). -/
theorem hostWriteReg_readOnly {s : State} {n v : Nat} (h : readOnlyWrite s.cfg n v) : hostWriteReg n v s = .next s := by
  obtain ⟨reg, named, ro, fits⟩ := h
  have notCmd : reg ≠ .cmd := by
    rintro rfl
    exact absurd ro (by decide)
  rw [hostWriteReg_some named fits notCmd, storeReg_of_readOnly ro]

/-- The three numbers of a slot that exists, each with the values that its register's width takes (R22). -/
theorem readOnlyWrite_of_slotNumber {c : Config} {n v i : Nat} (hi : i < c.pendSlots)
    (h : (n = 0x40 + 4 * i ∧ v < 2 ^ 8) ∨ (n = 0x41 + 4 * i ∧ v < 2 ^ 32) ∨ (n = 0x42 + 4 * i ∧ v < 2 ^ 16)) :
    readOnlyWrite c n v := by
  obtain ⟨ctl, off, len⟩ := Reg.ofNumber_slot hi
  obtain ⟨rfl, fits⟩ | ⟨rfl, fits⟩ | ⟨rfl, fits⟩ := h
  · exact ⟨.slotCtl i, ctl, rfl, fits⟩
  · exact ⟨.slotOff i, off, rfl, fits⟩
  · exact ⟨.slotLen i, len, rfl, fits⟩

/-- The read-only numbers of R22, each with the values that its register's width takes. -/
theorem readOnlyWrite_of_number {c : Config} {r : BitVec 12} {v : Nat}
    (h : (r = 0x00A ∧ v < 2 ^ 16) ∨ (r = 0x00B ∧ v < 2 ^ 32) ∨ (r = 0x00C ∧ v < 2 ^ 32) ∨
      (r = 0x010 ∧ v < 2 ^ 64) ∨ (r = 0x011 ∧ v < 2 ^ 64) ∨ (r = 0x012 ∧ v < 2 ^ 32) ∨
      (r = 0x018 ∧ v < 2 ^ 32) ∨ (r = 0x019 ∧ v < 2 ^ 64) ∨ (r = 0x01A ∧ v < 2 ^ 8) ∨
      (∃ i, i < c.pendSlots ∧ ((r.toNat = 0x40 + 4 * i ∧ v < 2 ^ 8) ∨ (r.toNat = 0x41 + 4 * i ∧ v < 2 ^ 32) ∨
        (r.toNat = 0x42 + 4 * i ∧ v < 2 ^ 16)))) :
    readOnlyWrite c r.toNat v := by
  obtain ⟨rfl, fits⟩ | ⟨rfl, fits⟩ | ⟨rfl, fits⟩ | ⟨rfl, fits⟩ | ⟨rfl, fits⟩ | ⟨rfl, fits⟩ | ⟨rfl, fits⟩ | ⟨rfl, fits⟩ |
    ⟨rfl, fits⟩ | ⟨i, hi, slotNumber⟩ := h
  · exact ⟨.csumCalc, rfl, rfl, fits⟩
  · exact ⟨.status, rfl, rfl, fits⟩
  · exact ⟨.esr, rfl, rfl, fits⟩
  · exact ⟨.now, rfl, rfl, fits⟩
  · exact ⟨.deadline, rfl, rfl, fits⟩
  · exact ⟨.tdur, rfl, rfl, fits⟩
  · exact ⟨.expected, rfl, rfl, fits⟩
  · exact ⟨.outlen, rfl, rfl, fits⟩
  · exact ⟨.pendcnt, rfl, rfl, fits⟩
  · exact readOnlyWrite_of_slotNumber hi slotNumber

section
variable {s : State} {rest : List Event} (hc : s.cfg.ok = true) (hb : s.busy = false)
include hc hb

/-- A step whose next event writes a reserved number only takes that event off the script (R83). -/
theorem step_writeReg_reserved {r : BitVec 12} {v : Nat} (hs : s.script = .writeReg r v :: rest)
    (h : Reg.ofNumber s.cfg r.toNat = none) : step s = .next (withScript rest s) := by
  rw [step_writeReg hc hb hs, hostWriteReg_none (s := withScript rest s) h]

/-- A step whose next event writes a read-only register only takes that event off the script (R83). -/
theorem step_writeReg_readOnly {r : BitVec 12} {v : Nat} (hs : s.script = .writeReg r v :: rest)
    (h : readOnlyWrite s.cfg r.toNat v) : step s = .next (withScript rest s) := by
  rw [step_writeReg hc hb hs, hostWriteReg_readOnly (s := withScript rest s) h]

/-- A step whose next event writes a buffer byte. -/
theorem step_writeByte {b : BitVec 12} {i : Nat} {v : Byte} (hs : s.script = .writeByte b i v :: rest) :
    step s = .next (hostWriteByte (withScript rest s) b.toNat i v) := by
  rw [step_event hc hs, perform_writeByte (s := withScript rest s) hb]

/-- A step whose next event writes a byte that is neither `PAY`'s nor `FRM`'s only takes that event off the script (R83). -/
theorem step_writeByte_ignored {b : BitVec 12} {i : Nat} {v : Byte} (hs : s.script = .writeByte b i v :: rest)
    (notPay : ¬ (b = 0x000 ∧ i < s.cfg.mss)) (notFrm : ¬ (b = 0x001 ∧ i < s.cfg.frameSize)) :
    step s = .next (withScript rest s) := by
  have notPay' : ¬ (b.toNat = 0x00 ∧ i < s.cfg.mss) := fun h => notPay ⟨BitVec.eq_of_toNat_eq h.1, h.2⟩
  have notFrm' : ¬ (b.toNat = 0x01 ∧ i < s.cfg.frameSize) := fun h => notFrm ⟨BitVec.eq_of_toNat_eq h.1, h.2⟩
  rw [step_writeByte hc hb hs, hostWriteByte_ignored (s := withScript rest s) notPay' notFrm']

end

/-- Settles O50: a reserved number names no register, a read-only register stores nothing, and a byte write outside `PAY`
and `FRM` stores nothing, so that only the event is gone. -/
theorem ignoredWritesChangeNothing : Obligations.IgnoredWritesChangeNothing := by
  unfold Obligations.IgnoredWritesChangeNothing
  refine ⟨fun s r v rest hc hb hs h => ?noPlace, fun s r v rest hc hb hs h => ?readOnlyNumber,
    fun s r v rest hc hb hs h => ?reservedNumber, fun s b i v rest hc hb hs notPay notFrm => ?byte⟩
  case noPlace =>
    obtain reserved | readOnly := h
    · exact step_writeReg_reserved hc hb hs reserved
    · exact step_writeReg_readOnly hc hb hs readOnly
  case readOnlyNumber =>
    exact step_writeReg_readOnly hc hb hs (readOnlyWrite_of_number h)
  case reservedNumber =>
    exact step_writeReg_reserved hc hb hs (Reg.ofNumber_reserved h)
  case byte =>
    exact step_writeByte_ignored hc hb hs notPay notFrm

end Sys2Proof.Machine
end

section
/-! PROOFS. The special values of the checksum and the all-ones test (R138, R139). -/

namespace Sys2Proof.Machine

/-- A number folds to all ones exactly when it is a non-zero multiple of `0xFFFF` (R12 (b)). -/
theorem fold16_eq_allOnes_iff (n : Nat) : fold16 n = 0xFFFF ↔ ∃ k, 0 < k ∧ n = k * 0xFFFF := by
  rw [fold16_closed]
  constructor
  · intro folded
    refine ⟨n / 0xFFFF, ?_⟩
    split at folded <;> omega
  · rintro ⟨k, positive, rfl⟩
    split <;> omega

/-- Adding a 16-bit number to a sum folds to all ones exactly when it is the complement of the folded sum, or both the folded
sum and it are all ones, the other zero of ones-complement arithmetic. -/
theorem fold16_add_eq_allOnes_iff (n : Nat) {c : Nat} (hc : c < 2 ^ 16) :
    fold16 (n + c) = 0xFFFF ↔ c = 0xFFFF - fold16 n ∨ (fold16 n = 0xFFFF ∧ c = 0xFFFF) := by
  have residue := fold16_mod n
  have bound := fold16_lt n
  have zero := fold16_eq_zero n
  rw [fold16_closed (n + c)]
  split <;> omega

/-- The chunks of a payload add up to zero exactly when every byte is zero (R131). -/
theorem chunks_sum_eq_zero (p : List Byte) : (chunks p).sum = 0 ↔ ∀ b ∈ p, b = 0 := by
  induction p using chunks.induct with
  | case1 => simp [chunks]
  | case2 b =>
    rw [List.forall_mem_singleton, ← BitVec.toNat_inj]
    simp [chunks, u16_toNat]
  | case3 b0 b1 p ih =>
    rw [List.forall_mem_cons, List.forall_mem_cons, ← ih, ← BitVec.toNat_inj, ← BitVec.toNat_inj]
    simp [chunks, u16_toNat, and_assoc]

/-- The addends of a segment add up to zero exactly when every field and every payload byte is zero (R130). -/
theorem addends_sum_eq_zero (h : Header) (p : List Byte) :
    (addends h p).sum = 0 ↔
      (h.srcPort = 0 ∧ h.dstPort = 0 ∧ h.seqNum = 0 ∧ h.ackNum = 0 ∧ h.hdrLen = 0 ∧ h.flags = 0 ∧ h.recvWindow = 0) ∧
        ∀ b ∈ p, b = 0 := by
  simp [addends_sum, chunks_sum_eq_zero, ← BitVec.toNat_inj, and_assoc]

/-- Every chunk is a 16-bit number, so the number of chunks bounds their sum (R131). -/
theorem chunks_sum_le (p : List Byte) : (chunks p).sum ≤ (p.length + 1) / 2 * 0xFFFF := by
  induction p using chunks.induct with
  | case1 => exact Nat.zero_le _
  | case2 b =>
    have := (u16 b 0).isLt
    simp only [chunks, List.sum_singleton, List.length_singleton]
    omega
  | case3 b0 b1 p ih =>
    have := (u16 b0 b1).isLt
    simp only [chunks, List.sum_cons, List.length_cons]
    omega

/-- The sum that the seven fields and the chunks of a payload cannot exceed, at any payload length (R138). -/
theorem addends_sum_le (h : Header) (p : List Byte) :
    (addends h p).sum ≤ 2 * (2 ^ 32 - 1) + 3 * 0xFFFF + 2 * 0xFF + (p.length + 1) / 2 * 0xFFFF := by
  have := chunks_sum_le p
  rw [addends_sum]
  omega

/-- Settles O11: folding gives 0 for the sum 0 only, and all ones for the non-zero multiples of `0xFFFF` only. -/
theorem checksumSpecialValues : Obligations.ChecksumSpecialValues := by
  unfold Obligations.ChecksumSpecialValues
  intro h p
  have complement : (checksum h p).toNat = 0xFFFF - sum16 h p := checksum_toNat h p
  have range : sum16 h p < 2 ^ 16 := fold16_lt _
  refine ⟨by omega, complement, ?allOnes, ?zero, fun short => ?bound⟩
  case allOnes =>
    rw [← addends_sum_eq_zero, ← fold16_eq_zero, ← sum16, ← BitVec.toNat_inj, complement,
      show (0xFFFF : Half).toNat = 0xFFFF from rfl]
    omega
  case zero =>
    rw [← fold16_eq_allOnes_iff, ← sum16, ← BitVec.toNat_inj, complement, show (0x0000 : Half).toNat = 0 from rfl]
    omega
  case bound =>
    have chunkCount : (p.length + 1) / 2 ≤ 503 := by omega
    exact (addends_sum_le h p).trans (by gcongr)

/-- Settles O12: the stored checksum completes the sum to all ones exactly when it is the complement of the folded sum, which
is the checksum, or is all ones beside a sum that is all ones itself. -/
theorem allOnesTestAcceptsOneCaseMore : Obligations.AllOnesTestAcceptsOneCaseMore := by
  unfold Obligations.AllOnesTestAcceptsOneCaseMore
  intro h p
  rw [fold16_add_eq_allOnes_iff _ h.checksum.isLt, ← checksum_toNat, sum16, BitVec.toNat_inj,
    ← BitVec.toNat_inj (y := 0xFFFF)]
  rfl

end Sys2Proof.Machine
end

section
/-! PROOFS. A change of one byte of a frame is detected (R140). -/

namespace Sys2Proof.Machine

/-- The weight with which byte `j` of a frame enters the sum of the addends and the stored checksum (R110, R130, R131). -/
def byteWeight (j : Nat) : Nat :=
  if j = 4 ∨ j = 8 then 2 ^ 24
  else if j = 5 ∨ j = 9 then 2 ^ 16
  else if j = 12 then 1
  else if j % 2 = 0 then 2 ^ 8
  else 1

/-- The sum of the addends and the stored checksum of a frame of `n` bytes, byte by byte. -/
def frameSum (f : Nat → Byte) (n : Nat) : Nat := ∑ j ∈ Finset.range n, byteWeight j * (f j).toNat

/-- A payload byte is the high byte of a chunk at an even index and the low byte at an odd one (R131). -/
theorem byteWeight_payload (k : Nat) : byteWeight (18 + k) = if k % 2 = 0 then 2 ^ 8 else 1 := by
  simp only [byteWeight]
  split_ifs <;> omega

/-- Two values of one byte enter the sum alike modulo `0xFFFF` only if they are equal: modulo `0xFFFF` a weight is 1 or 256. -/
theorem byte_eq_of_weighted_mod_eq {j : Nat} {a b : Byte}
    (h : byteWeight j * a.toNat % 0xFFFF = byteWeight j * b.toNat % 0xFFFF) : a = b := by
  have ha := a.isLt
  have hb := b.isLt
  apply BitVec.eq_of_toNat_eq
  simp only [byteWeight] at h
  split_ifs at h <;> omega

/-- Two bytes further on in the payload the same weights come again. -/
theorem byteWeight_payload_add_two (k : Nat) : byteWeight (18 + (k + 1 + 1)) = byteWeight (18 + k) := by
  simp only [byteWeight_payload, Nat.add_assoc k 1 1, Nat.add_mod_right]

/-- The first chunk of a payload of two bytes or more (R131). -/
theorem chunkValue_first (p : Nat → Byte) (n : Nat) :
    chunkValue p (n + 2) 0 = byteWeight (18 + (0 + 1)) * (p (0 + 1)).toNat + byteWeight (18 + 0) * (p 0).toNat := by
  rw [chunkValue, if_pos (by omega), Nat.add_comm]
  simp [byteWeight]

/-- The later chunks are those of the payload without its first two bytes (R131). -/
theorem chunkValue_later (p : Nat → Byte) (n k : Nat) :
    chunkValue p (n + 2) (k + 1) = chunkValue (fun j => p (j + 1 + 1)) n k := by
  simp [chunkValue, Nat.mul_add, Nat.add_right_comm _ 2 1]

/-- The chunks of a payload of `n` bytes, byte by byte (R131). -/
theorem chunkValue_sum_eq_byteSum (n : Nat) (p : Nat → Byte) :
    ((List.range ((n + 1) / 2)).map (chunkValue p n)).sum =
      ∑ k ∈ Finset.range n, byteWeight (18 + k) * (p k).toNat := by
  induction n using Nat.twoStepInduction generalizing p with
  | zero => rfl
  | one => simp [chunkValue, byteWeight]
  | more n ih _ =>
    rw [show (n + 2 + 1) / 2 = (n + 1) / 2 + 1 by omega, List.range_succ_eq_map, List.map_cons, List.map_map, List.sum_cons,
      Finset.sum_range_succ', Finset.sum_range_succ', Function.comp_def]
    simp only [Nat.succ_eq_add_one, chunkValue_later, ih, byteWeight_payload_add_two, chunkValue_first]
    omega

/-- The seven summed fields and the stored checksum, byte by byte (R110, R130). -/
theorem header_byteSum (f : Nat → Byte) :
    ∑ j ∈ Finset.range 18, byteWeight j * (f j).toNat =
      (u16 (f 0) (f 1)).toNat + (u16 (f 2) (f 3)).toNat + (u32 (f 4) (f 5) (f 6) (f 7)).toNat +
        (u32 (f 8) (f 9) (f 10) (f 11)).toNat + (f 12).toNat + (f 13).toNat + (u16 (f 14) (f 15)).toNat +
        (u16 (f 16) (f 17)).toNat := by
  simp [Finset.sum_range_succ, byteWeight, u16_toNat, u32_toNat]
  omega

/-- The sum of a frame is the sum of its segment's addends and its stored checksum (R110, R130). -/
theorem frameSum_eq_fieldSum (f : Nat → Byte) {n : Nat} (h : 18 ≤ n) :
    frameSum f n = fieldSum (Header.ofBytes f) (fun k => f (18 + k)) (n - 18) + (u16 (f 16) (f 17)).toNat := by
  obtain ⟨payload, rfl⟩ := Nat.exists_eq_add_of_le h
  rw [frameSum, Finset.sum_range_add, header_byteSum, fieldSum, Nat.add_sub_cancel_left, chunkValue_sum_eq_byteSum,
    Header.ofBytes]
  exact Nat.add_right_comm _ _ _

/-- Changing byte `k` of a frame moves its sum by that byte's weighted change. -/
theorem frameSum_one_byte_change {f g : Nat → Byte} {n k : Nat} (hk : k < n) (same : ∀ j, j < n → j ≠ k → g j = f j) :
    frameSum g n + byteWeight k * (f k).toNat = frameSum f n + byteWeight k * (g k).toNat := by
  have others : ∑ j ∈ (Finset.range n).erase k, byteWeight j * (g j).toNat =
      ∑ j ∈ (Finset.range n).erase k, byteWeight j * (f j).toNat := by
    refine Finset.sum_congr rfl fun j hj => ?_
    obtain ⟨hne, hlt⟩ := Finset.mem_erase.1 hj
    rw [same j (Finset.mem_range.1 hlt) hne]
  rw [frameSum, frameSum, ← Finset.add_sum_erase _ _ (Finset.mem_range.2 hk),
    ← Finset.add_sum_erase _ (fun j => byteWeight j * (f j).toNat) (Finset.mem_range.2 hk), others]
  omega

/-- A sum and the complement of its folding add up to a multiple of `0xFFFF` (R12 (b), (e)). -/
theorem add_complement_mod (n : Nat) : (n + (0xFFFF - fold16 n)) % 0xFFFF = 0 := by
  have residue := fold16_mod n
  have bound := fold16_lt n
  omega

theorem complementSum_toNat (h : Header) (p : Nat → Byte) (n : Nat) :
    (complementSum h p n).toNat = 0xFFFF - fold16 (fieldSum h p n) := by
  rw [← checksum_eq_complementSum, checksum_toNat, addends_sum_eq_fieldSum]

/-- The sum of a valid frame is a multiple of `0xFFFF`: the stored checksum completes the folded sum to all ones. -/
theorem frameSum_mod_of_rxValid {s : State} (h : s.rxValid) : frameSum s.frmByte s.flen.toNat % 0xFFFF = 0 := by
  obtain ⟨⟨long, -⟩, stored⟩ := h
  have complement : (u16 (s.frmByte 16) (s.frmByte 17)).toNat =
      0xFFFF - fold16 (fieldSum (Header.ofBytes s.frmByte) (fun k => s.frmByte (18 + k)) (s.flen.toNat - 18)) :=
    (congrArg BitVec.toNat stored).trans (complementSum_toNat _ _ _)
  rw [frameSum_eq_fieldSum s.frmByte long, complement]
  exact add_complement_mod _

/-- A frame that differs from a valid frame of its length in one byte is not valid (R140). -/
theorem not_rxValid_of_one_byte_change {s t : State} {k : Nat} (hf : t.flen = s.flen) (hk : k < s.flen.toNat)
    (changed : t.frmByte k ≠ s.frmByte k) (same : ∀ j, j < s.flen.toNat → j ≠ k → t.frmByte j = s.frmByte j)
    (hs : s.rxValid) : ¬ t.rxValid := by
  intro ht
  have sumS := frameSum_mod_of_rxValid hs
  have sumT := frameSum_mod_of_rxValid ht
  have moved := frameSum_one_byte_change hk same
  rw [hf] at sumT
  exact changed (byte_eq_of_weighted_mod_eq (j := k) (by omega))

/-- What `CSUM.CHK` leaves after `FRM.DEC` of a legal frame (R136, R156). -/
def decodedAndChecked (s : State) : State := completed (checkSegment (completed (clearCkok (decodeFrame s))))

theorem exec_csumChk_decoded {s : State} (h : s.rxLegal) :
    exec .csumChk (completed (clearCkok (decodeFrame s))) = .next (decodedAndChecked s) := by
  refine exec_csumChk ?_
  rw [completed_segPlen, clearCkok_segPlen, decodeFrame_segPlen_toNat, completed_cfg, clearCkok_cfg, decodeFrame_cfg]
  exact rxLegal_mss h

theorem decodedAndChecked_ckok (s : State) :
    (decodedAndChecked s).ckok = decide (s.rxHeader.checksum = s.rxChecksum) := by
  rw [← rxSegment_ckok]
  rfl

/-- Settles O13: `CKOK` after decoding and checking tells whether the frame is valid, and a one-byte change of a valid frame
moves its sum off the multiples of `0xFFFF`. -/
theorem everyOneByteChangeIsDetected : Obligations.EveryOneByteChangeIsDetected := by
  unfold Obligations.EveryOneByteChangeIsDetected
  rintro s t k legalS hcfg hflen hk changed same ⟨s1, s2, decoded, checked, ckok⟩
  have legalT : t.rxLegal := (rxLegal_congr hflen hcfg).2 legalS
  have validS : s.rxValid := by
    rw [exec_frmDec legalS] at decoded
    cases decoded
    rw [exec_csumChk_decoded legalS] at checked
    cases checked
    rw [decodedAndChecked_ckok, decide_eq_true_eq] at ckok
    exact ⟨legalS, ckok⟩
  have invalidT : t.rxHeader.checksum ≠ t.rxChecksum := fun equal =>
    not_rxValid_of_one_byte_change hflen hk changed same validS ⟨legalT, equal⟩
  refine ⟨_, _, exec_frmDec legalT, exec_csumChk_decoded legalT, ?_⟩
  rw [decodedAndChecked_ckok, decide_eq_false invalidT]

end Sys2Proof.Machine
end

section
/-! PROOFS. The commands of the checksum unit (R134, R136). -/

namespace Sys2Proof.Machine

theorem raised_encodingError (s : State) :
    raised .encodingError s = { s with cc := .encodingError, esr := s.esr ||| 0x00000004 } := rfl

/-- Settles O9: the stored checksum is the complement of the folded sum of the fields and chunks. -/
theorem csumGenStoresTheChecksum : Obligations.CsumGenStoresTheChecksum := by
  unfold Obligations.CsumGenStoresTheChecksum
  refine ⟨by decide, fun s => ⟨fun fits => ?stored, fun long => ?error⟩⟩
  case stored =>
    rw [exec_csumGen fits, completed, generateChecksum, segChecksum_eq]
  case error =>
    rw [exec_csumGen_error long, raised_encodingError]

/-- Settles O10: the comparison is with the complement of the folded sum of the fields and chunks. -/
theorem csumChkComparesWithTheStoredChecksum : Obligations.CsumChkComparesWithTheStoredChecksum := by
  unfold Obligations.CsumChkComparesWithTheStoredChecksum
  refine ⟨by decide, fun s => ⟨fun fits => ?compared, fun long => ?error⟩⟩
  case compared =>
    rw [exec_csumChk fits, completed, checkSegment, segChecksum_eq, beq_eq_decide]
  case error =>
    rw [exec_csumChk_error long, raised_encodingError]

end Sys2Proof.Machine
end

section
/-! PROOFS. The commands of the framer: `FRM.ENC` (R151), `FRM.DEC` (R156), and decoding what was encoded (R160). -/

namespace Sys2Proof.Machine

/-- A run of header bytes in `FRM` after encoding is that run of the segment's 18 header bytes (R110, R151). -/
theorem encodeFrame_headerRun (s : State) {a n : Nat} (h : a + n ≤ 18) :
    (encodeFrame s).frmBytes a n = (s.seg.bytes.drop a).take n := by
  have header_length : s.seg.bytes.length = 18 := s.seg.bytes_length
  refine List.ext_getElem (by rw [frmBytes_length, List.length_take, List.length_drop]; omega) fun k hk _ => ?_
  rw [frmBytes_length] at hk
  simp only [State.frmBytes, List.getElem_map, List.getElem_range, List.getElem_take, List.getElem_drop]
  rw [encodeFrame_header s (by omega), List.getD_eq_getElem]

/-- What `FRM.ENC` writes: `FRM`, `FLEN` and `CC` (R151). -/
theorem completed_encodeFrame_frame (s : State) :
    completed (encodeFrame s) =
      { s with frm := (completed (encodeFrame s)).frm, flen := (completed (encodeFrame s)).flen, cc := .ok } := by
  simp only [completed, encodeFrame]

/-- What `FRM.DEC` writes: the segment's registers, `PAY`, `CKOK` and `CC` (R156). -/
theorem completed_decodeFrame_frame (s : State) :
    completed (clearCkok (decodeFrame s)) =
      { s with
        seg := (decodeFrame s).seg, segPlen := (decodeFrame s).segPlen, pay := (decodeFrame s).pay
        ckok := false, cc := .ok } := by
  simp only [completed, clearCkok, decodeFrame]

theorem raised_decodingError (s : State) :
    raised .decodingError s = { s with cc := .decodingError, esr := s.esr ||| 0x00000008 } := rfl

/-- `FRM.ENC` ends with `done` only on a segment whose payload a frame can hold, and leaves it encoded (R151). -/
theorem frmEnc_done {s t : State} (encoded : exec .frmEnc s = .next t) (ok : t.cc = .ok) :
    s.segPlen.toNat ≤ s.cfg.mss ∧ t = completed (encodeFrame s) := by
  by_cases fits : s.segPlen.toNat ≤ s.cfg.mss
  · rw [exec_frmEnc fits] at encoded
    cases encoded
    exact ⟨fits, rfl⟩
  · rw [exec_frmEnc_error (Nat.lt_of_not_le fits)] at encoded
    cases encoded
    cases ok

/-- The header registers, decoded from the encoded header, hold what they held (R160). -/
theorem decode_encode_seg (s : State) : (decodeFrame (completed (encodeFrame s))).seg = s.seg := by
  rw [decodeFrame_seg]
  exact Header.ofBytes_bytes s.seg _ fun k hk => (completed_frmByte _ k).trans (encodeFrame_header s hk)

section
variable {s : State} (hc : s.cfg.ok = true) (fits : s.segPlen.toNat ≤ s.cfg.mss)
include hc fits

/-- The payload length, decoded from `FLEN`, is what it was (R160). -/
theorem decode_encode_segPlen : (decodeFrame (completed (encodeFrame s))).segPlen = s.segPlen := by
  apply BitVec.eq_of_toNat_eq
  rw [decodeFrame_segPlen_toNat, completed_flen, encodeFrame_flen_toNat hc fits, Nat.add_sub_cancel_left]

/-- Decoding stores in `PAY` the bytes that encoding took from it (R160). -/
theorem decode_encode_payByte (k : Nat) : (decodeFrame (completed (encodeFrame s))).payByte k = s.payByte k := by
  rw [decodeFrame_payByte, completed_flen, encodeFrame_flen_toNat hc fits, Nat.add_sub_cancel_left, completed_frmByte,
    completed_payByte, encodeFrame_payByte]
  split
  next inPayload => exact encodeFrame_payload s inPayload
  next => rfl

end

/-- Settles O19: an encoded frame is legal, and decoding it reads back the header, the payload length and the payload. -/
theorem decodingTheEncodedFrameRestoresTheSegment : Obligations.DecodingTheEncodedFrameRestoresTheSegment := by
  unfold Obligations.DecodingTheEncodedFrameRestoresTheSegment
  intro s t hc encoded ok
  obtain ⟨fits, rfl⟩ := frmEnc_done encoded ok
  have legal : (completed (encodeFrame s)).rxLegal := (completed_rxLegal _).2 (encodeFrame_rxLegal hc fits)
  refine ⟨_, exec_frmDec legal, completed_cc _, ?_⟩
  simp only [completed_seg, completed_segPlen, completed_payByte, completed_ckok, clearCkok_seg, clearCkok_segPlen,
    clearCkok_payByte, clearCkok_ckok]
  refine ⟨decode_encode_seg s, decode_encode_segPlen hc fits, decode_encode_payByte hc fits, trivial, ?_⟩
  rw [completed_decodeFrame_frame, decode_encode_seg, decode_encode_segPlen hc fits]
  simp only [completed, encodeFrame]

/-- Settles O17: the header bytes are runs of the segment's 18 header bytes, the payload follows them. -/
theorem frmEncWritesTheFrame : Obligations.FrmEncWritesTheFrame := by
  unfold Obligations.FrmEncWritesTheFrame
  refine ⟨by decide, fun s hc => ⟨fun fits => ?written, fun long => ?error⟩⟩
  case written =>
    refine ⟨_, exec_frmEnc fits, completed_encodeFrame_frame s, ?_⟩
    simp only [completed_flen, completed_frmByte]
    exact ⟨encodeFrame_flen_toNat hc fits,
      encodeFrame_headerRun s (a := 0) (n := 2) (by decide), encodeFrame_headerRun s (a := 2) (n := 2) (by decide),
      encodeFrame_headerRun s (a := 4) (n := 4) (by decide), encodeFrame_headerRun s (a := 8) (n := 4) (by decide),
      encodeFrame_header s (k := 12) (by decide), encodeFrame_header s (k := 13) (by decide),
      encodeFrame_headerRun s (a := 14) (n := 2) (by decide), encodeFrame_headerRun s (a := 16) (n := 2) (by decide),
      fun k hk => encodeFrame_payload s hk, fun k hk => by rw [encodeFrame_frmByte, if_neg (Nat.not_lt.2 hk)]⟩
  case error =>
    rw [exec_frmEnc_error long, raised_encodingError]

/-- Settles O18: the fields stand at their offsets in `FRM`, and a legal length fits the payload registers. -/
theorem frmDecReadsTheFrame : Obligations.FrmDecReadsTheFrame := by
  unfold Obligations.FrmDecReadsTheFrame
  refine ⟨by decide, fun s => ⟨fun legal => ?parsed, fun illegal => ?error⟩⟩
  case parsed =>
    refine ⟨_, exec_frmDec legal, completed_decodeFrame_frame s, ?_⟩
    simp only [completed_seg, completed_segPlen, completed_payByte, clearCkok_seg, clearCkok_segPlen, clearCkok_payByte,
      decodeFrame_rxHeader, decodeFrame_segPlen_toNat, decodeFrame_payByte]
    exact ⟨rfl, rfl, rfl, rfl, rfl, rfl, rfl, rfl, trivial, rxLegal_mss legal, fun k hk => if_pos hk,
      fun k hk => if_neg (Nat.not_lt.2 hk)⟩
  case error =>
    rw [exec_frmDec_error illegal, raised_decodingError]

end Sys2Proof.Machine
end

section
/-! PROOFS. The timer's commands: `TMR.START` (R172), `TMR.RESTART` (R174), `TMR.STOP` (R176), `TMR.POLL` (R178). -/

namespace Sys2Proof.Machine

/-- Every value of `imm32` is a legal duration (R101, R103). -/
theorem decode_tmrStart (d : Word) : decode (cmdWord 0x20 d) = .ok (.tmrStart d) := by
  rw [decode, opcodeField_cmdWord, immField_cmdWord]
  rfl

/-- Arming writes `DEADLINE` and `TSTATE` only; below the platform's bound a timer of no duration expires at once
(R39, R171). -/
theorem armTimer_eq {s : State} (h : s.now.toNat < timeBound) (d : Word) :
    armTimer d s = { s with deadline := s.now + zext64 d, tstate := if d = 0 then .expired else .running } := by
  have frame : armTimer d s = { s with deadline := s.now + zext64 d, tstate := (armTimer d s).tstate } := by
    rw [armTimer, evalExpiry]
    split <;> rfl
  rw [frame, armTimer_tstate_bound h]

theorem raised_tmrNoDuration (s : State) :
    raised .tmrNoDuration s = { s with cc := .tmrNoDuration, esr := s.esr ||| 0x00000010 } := rfl

/-- Settles O21: recording the duration leaves `NOW`, and the deadline `d` ticks after it does not overflow. -/
theorem tmrStartArmsTheTimer : Obligations.TmrStartArmsTheTimer := by
  unfold Obligations.TmrStartArmsTheTimer
  intro s d hnow
  have bound : (recordDuration d s).now.toNat < timeBound := hnow
  refine ⟨decode_tmrStart d, _, exec_tmrStart d s, ?effect, ?deadline⟩
  case effect =>
    rw [armTimer_eq bound]
    simp only [completed, recordDuration]
  case deadline =>
    rw [completed_deadline, armTimer_deadline_toNat bound, recordDuration_now]

/-- Settles O22: with a previous duration the timer is armed with it; without one only the error is recorded. -/
theorem tmrRestartUsesThePreviousDuration : Obligations.TmrRestartUsesThePreviousDuration := by
  unfold Obligations.TmrRestartUsesThePreviousDuration
  refine ⟨by decide, fun s hnow => ⟨fun hasDuration => ⟨_, exec_tmrRestart hasDuration, ?effect, ?deadline⟩,
    fun noDuration => ?error⟩⟩
  case effect =>
    rw [armTimer_eq hnow, completed]
  case deadline =>
    rw [completed_deadline, armTimer_deadline_toNat hnow]
  case error =>
    rw [exec_tmrRestart_error noDuration, raised_tmrNoDuration]

/-- Settles O23: the command disarms the timer whatever its state was. -/
theorem tmrStopMovesToIdle : Obligations.TmrStopMovesToIdle := by
  unfold Obligations.TmrStopMovesToIdle
  refine ⟨by decide, fun s => ?_⟩
  rw [exec_tmrStop, disarmTimer, completed]

/-- Settles O24: the comparison with `EXPIRED` is recorded in `TPOLL` and nothing of the timer is written. -/
theorem tmrPollReportsExpiry : Obligations.TmrPollReportsExpiry := by
  unfold Obligations.TmrPollReportsExpiry
  refine ⟨by decide, fun s => ?_⟩
  rw [exec_tmrPoll, recordPoll, completed, beq_eq_decide]

end Sys2Proof.Machine
end

section
/-! PROOFS. Opening a stream (`RSM.INIT`, R192) and the refusal of `RSM.RX` before any is open (R197). -/

namespace Sys2Proof.Machine

/-- Every value of `imm32` is a legal first offset (R101, R103). -/
theorem decode_rsmInit (x : Word) : decode (cmdWord 0x30 x) = .ok (.rsmInit x) := by
  rw [decode, opcodeField_cmdWord, immField_cmdWord]
  rfl

/-- The canonical empty state of a slot, written out; its `DATA` is kept (R193). -/
theorem freed_eq : Slot.freed = fun u => { u with v := false, fin := false, off := 0, len := 0 } := rfl

theorem raised_rsmInactive (s : State) :
    raised .rsmInactive s = { s with cc := .rsmInactive, esr := s.esr ||| 0x00000020 } := rfl

/-- Settles O28: the slots are freed, then the stream's own fields are set for offset `x`. -/
theorem rsmInitOpensAStream : Obligations.RsmInitOpensAStream := by
  unfold Obligations.RsmInitOpensAStream
  refine fun s x => ⟨decode_rsmInit x, ?_⟩
  rw [exec_rsmInit, ← freed_eq]
  simp only [completed, openStream, freeAll]

/-- Settles O29: with no stream open the command ends with its error, which is recorded in `CC` and `ESR` alone. -/
theorem rsmRxInIdleIsRefused : Obligations.RsmRxInIdleIsRefused := by
  unfold Obligations.RsmRxInIdleIsRefused
  intro s idle
  rw [exec_rsmRx_error idle, raised_rsmInactive]

end Sys2Proof.Machine
end

section
/-! PROOFS. The system's commands: `SYS.NOP` (R220) and `SYS.RESET` (R222). -/

namespace Sys2Proof.Machine

/-- Settles O39: the command ends with `CC` at `OK` and has no effect of its own. -/
theorem sysNopChangesOnlyCc : Obligations.SysNopChangesOnlyCc := by
  unfold Obligations.SysNopChangesOnlyCc
  refine ⟨by decide, fun s => ?_⟩
  rw [exec_sysNop, completed]

/-- Settles O40: the registers take their reset values, then every slot is freed with its `DATA` kept. -/
theorem sysResetRestoresTheResetValues : Obligations.SysResetRestoresTheResetValues := by
  unfold Obligations.SysResetRestoresTheResetValues
  refine ⟨by decide, fun s => ?_⟩
  rw [exec_sysReset, ← freed_eq]
  simp only [completed, freeAll, resetRegisters, Header.zero, hdrBytes]

end Sys2Proof.Machine
end

section
/-! PROOFS. Illegal command words (R105, R232). -/

namespace Sys2Proof

/-- "Illegal" as R105 defines it: the opcode is none of the twelve, or a word of format `N` has a non-zero operand. -/
def illegalWord (w : CmdWord) : Prop :=
  (opcodeField w).toNat ∉ [0x00, 0x01, 0x02, 0x10, 0x11, 0x20, 0x21, 0x22, 0x23, 0x30, 0x31, 0xFF] ∨
    ((opcodeField w).toNat ∉ [0x20, 0x30] ∧ immField w ≠ 0)

theorem formatN_error_iff (i : Instr) (imm : Word) : (∃ e, formatN i imm = .error e) ↔ imm ≠ 0 := by
  rw [formatN]
  split
  next zero => simp [zero]
  next nonzero => exact iff_of_true ⟨_, rfl⟩ nonzero

/-- The decoder rejects exactly the illegal words (R105). -/
theorem decode_error_iff (w : CmdWord) : (∃ e, decode w = .error e) ↔ illegalWord w := by
  rw [decode, illegalWord]
  split
  case h_6 opcode | h_10 opcode => -- format `I`: every operand is legal
    simp [opcode]
  case h_13 => -- none of the twelve opcodes
    simp_all
  all_goals -- format `N`
    rename_i opcode
    simp [opcode, formatN_error_iff]

theorem not_illegalWord_of_decode_ok {w : CmdWord} {i : Instr} (h : decode w = .ok i) : ¬ illegalWord w := by
  rw [← decode_error_iff, h]
  rintro ⟨_, ⟨⟩⟩

end Sys2Proof

namespace Sys2Proof.Machine

theorem raised_illegalCmd (s : State) :
    raised .illegalCmd s = { s with cc := .illegalCmd, esr := s.esr ||| 0x00000002 } := rfl

/-- Settles O4: the decoder rejects the word, and the rejection is recorded in `CC` and `ESR` alone. -/
theorem illegalWordChangesOnlyCcAndItsStickyBit : Obligations.IllegalWordChangesOnlyCcAndItsStickyBit := by
  unfold Obligations.IllegalWordChangesOnlyCcAndItsStickyBit
  intro s w rest hc hb hs illegal
  obtain ⟨e, rejected⟩ := (decode_error_iff w).2 illegal
  rw [step_command hc hb hs, issueCommand_error rejected, raised_illegalCmd, withScript]

end Sys2Proof.Machine
end

section
/-! PROOFS. The completion code that a command word leaves in `STATUS` (R30, R231). -/

namespace Sys2Proof.Machine

/-- Bits 15:8 of `STATUS` are the completion code (R30): the fields below them fill less than 8 bits. -/
theorem statusWord_ccField (s : State) : s.statusWord.extractLsb' 8 8 = BitVec.ofNat 8 s.cc.code := by
  have bit_le (b : Bool) : bit b ≤ 1 := by cases b <;> decide
  have busy := bit_le s.busy
  have ckok := bit_le s.ckok
  have texp := bit_le s.texp
  have tdurv := bit_le s.tdurv
  have tstate : s.tstate.code ≤ 2 := by cases s.tstate <;> decide
  have rstate : s.rstate.code ≤ 2 := by cases s.rstate <;> decide
  apply BitVec.eq_of_toNat_eq
  rw [toNat_extractByte, State.statusWord, BitVec.toNat_ofNat, BitVec.toNat_ofNat]
  omega

theorem CompletionCode.code_byte_injective : Function.Injective fun c : CompletionCode => BitVec.ofNat 8 c.code := by
  intro c d
  cases c <;> cases d <;> decide

theorem CompletionCode.code_byte_le (c : CompletionCode) : (BitVec.ofNat 8 c.code).toNat ≤ 0x05 := by
  cases c <;> decide

/-- `STATUS` shows a code of R231 exactly when `CC` holds it. -/
theorem statusWord_ccField_eq_iff (s : State) (c : CompletionCode) :
    s.statusWord.extractLsb' 8 8 = BitVec.ofNat 8 c.code ↔ s.cc = c := by
  rw [statusWord_ccField, CompletionCode.code_byte_injective.eq_iff]

/-- The code that a command ends with in a state, command by command (R231). -/
def completionCode (s : State) : Instr → CompletionCode
  | .csumGen | .csumChk | .frmEnc => if s.cfg.mss < s.segPlen.toNat then .encodingError else .ok
  | .frmDec => if s.flenLegal = false then .decodingError else .ok
  | .tmrRestart => if s.tdurv = false then .tmrNoDuration else .ok
  | .rsmRx => if s.rstate = .idle then .rsmInactive else .ok
  | .sysNop | .tmrStart _ | .tmrStop | .tmrPoll | .rsmInit _ | .sysReset => .ok

section
variable (s : State) (i : Instr)

theorem raise_cc {c : CompletionCode} : ∃ t, raise c s = .next t ∧ t.cc = c := ⟨_, rfl, rfl⟩

theorem done_cc : ∃ t, done s = .next t ∧ t.cc = .ok := ⟨_, rfl, rfl⟩

/-- Every command ends in a next state, whose `CC` is the command's code. -/
theorem exec_cc : ∃ t, exec i s = .next t ∧ t.cc = completionCode s i := by
  cases i with
  | csumGen | csumChk | frmEnc | frmDec | tmrRestart | rsmRx =>
    simp only [exec, execCsumGen, execCsumChk, execFrmEnc, execFrmDec, execTmrRestart, execRsmRx, completionCode]
    split
    · exact raise_cc s
    · exact done_cc _
  | sysNop | tmrStart | tmrStop | tmrPoll | rsmInit | sysReset => exact done_cc _

theorem completionCode_ne_illegalCmd : completionCode s i ≠ .illegalCmd := by
  cases i <;> simp [completionCode, ite_eq_iff]

theorem completionCode_eq_encodingError :
    completionCode s i = .encodingError ↔ (i = .frmEnc ∨ i = .csumGen ∨ i = .csumChk) ∧ s.cfg.mss < s.segPlen.toNat := by
  cases i <;> simp [completionCode, ite_eq_iff]

theorem completionCode_eq_decodingError : completionCode s i = .decodingError ↔ i = .frmDec ∧ ¬ s.rxLegal := by
  rw [← flenLegal_false]
  cases i <;> simp [completionCode, ite_eq_iff]

theorem completionCode_eq_tmrNoDuration : completionCode s i = .tmrNoDuration ↔ i = .tmrRestart ∧ s.tdurv = false := by
  cases i <;> simp [completionCode, ite_eq_iff]

theorem completionCode_eq_rsmInactive : completionCode s i = .rsmInactive ↔ i = .rsmRx ∧ s.rstate = .idle := by
  cases i <;> simp [completionCode, ite_eq_iff]

end

/-- The code that a command word leaves: `ILLEGAL_CMD` for an illegal word only, any other for a command that ends with it. -/
theorem issueCommand_cc (w : CmdWord) (s : State) : ∃ t, issueCommand w s = .next t ∧
    (t.cc = .illegalCmd ↔ illegalWord w) ∧
    ∀ c, c ≠ .illegalCmd → (t.cc = c ↔ ∃ i, decode w = .ok i ∧ completionCode s i = c) := by
  cases decoded : decode w with
  | error e =>
    have illegal : illegalWord w := (decode_error_iff w).1 ⟨e, decoded⟩
    refine ⟨_, issueCommand_error decoded s, iff_of_true (raised_cc _ s) illegal, fun c other => ?_⟩
    simp [Ne.symm other]
  | ok i =>
    obtain ⟨t, executed, code⟩ := exec_cc s i
    refine ⟨t, (issueCommand_ok decoded s).trans executed, ?_, fun c _ => ?_⟩
    · rw [code]
      exact iff_of_false (completionCode_ne_illegalCmd s i) (not_illegalWord_of_decode_ok decoded)
    · simp [code]

/-- Settles O44: bits 15:8 of `STATUS` show `CC`, and the word's command ends with an error's code exactly under that error's
condition. -/
theorem completionCodesFollowTheTable : Obligations.CompletionCodesFollowTheTable := by
  unfold Obligations.CompletionCodesFollowTheTable
  intro s w
  obtain ⟨t, issued, illegal, command⟩ := issueCommand_cc w s
  have shows := statusWord_ccField_eq_iff t
  have shows_error (c : CompletionCode) (other : c ≠ .illegalCmd) := (shows c).trans (command c other)
  refine ⟨t, issued, (shows .illegalCmd).trans illegal, (shows_error .encodingError (by decide)).trans ?encoding,
    (shows_error .decodingError (by decide)).trans ?decoding, (shows_error .tmrNoDuration (by decide)).trans ?noDuration,
    (shows_error .rsmInactive (by decide)).trans ?inactive, ?bound⟩
  case encoding => simp [completionCode_eq_encodingError, or_and_right, and_or_left, exists_or]
  case decoding => simp [completionCode_eq_decodingError]
  case noDuration => simp [completionCode_eq_tmrNoDuration]
  case inactive => simp [completionCode_eq_rsmInactive]
  case bound =>
    rw [statusWord_ccField]
    exact t.cc.code_byte_le

end Sys2Proof.Machine
end

section
/-! PROOFS. The decoder and the encoder (R100 to R105), and the step that runs a decoded command (R34). -/

namespace Sys2Proof

theorem formatN_ok_iff {i j : Instr} {imm : Word} : formatN i imm = .ok j ↔ imm = 0 ∧ i = j := by
  rw [formatN]
  split
  next zero => simp [zero]
  next nonzero => exact iff_of_false (by rintro ⟨⟩) fun both => nonzero both.1

/-- Decoding the word of a command gives it back with its operand. -/
theorem decode_encode (i : Instr) : decode (encode i) = .ok i := by
  rw [encode, decode, opcodeField_cmdWord, immField_cmdWord]
  cases i <;> rfl

/-- A word that decodes to a command has the command's opcode and operand in its two fields (R100, R101). -/
theorem fields_of_decode {w : CmdWord} {i : Instr} (h : decode w = .ok i) :
    opcodeField w = i.opcode ∧ immField w = i.imm := by
  rw [decode] at h
  split at h
  case h_6 opcode | h_10 opcode => -- format `I`
    cases h
    exact ⟨BitVec.eq_of_toNat_eq opcode, rfl⟩
  case h_13 => cases h
  all_goals -- format `N`
    rename_i opcode
    obtain ⟨zero, rfl⟩ := formatN_ok_iff.1 h
    exact ⟨BitVec.eq_of_toNat_eq opcode, zero⟩

/-- A word is a command's word exactly when it has the command's opcode and operand (R100). -/
theorem eq_encode_iff {w : CmdWord} {i : Instr} : w = encode i ↔ opcodeField w = i.opcode ∧ immField w = i.imm := by
  constructor
  · rintro rfl
    exact ⟨opcodeField_cmdWord _ _, immField_cmdWord _ _⟩
  · rintro ⟨opcode, imm⟩
    rw [encode, ← opcode, ← imm, cmdWord_fields]

/-- A command has exactly one word. -/
theorem decode_eq_ok_iff {w : CmdWord} {i : Instr} : decode w = .ok i ↔ w = encode i := by
  constructor
  · exact fun h => eq_encode_iff.2 (fields_of_decode h)
  · rintro rfl
    exact decode_encode i

theorem Instr.wf_true (i : Instr) : i.wf = true := by
  cases i <;> rfl

/-- Settles O3: encoding puts the opcode and the operand in the two fields of the word, decoding finds them there, and the
word has no bit outside its two fields. -/
theorem decodeAndEncodeAgree : Obligations.DecodeAndEncodeAgree := by
  unfold Obligations.DecodeAndEncodeAgree
  exact ⟨fun i _ => decode_encode i, fun w i h => ⟨i.wf_true, (decode_eq_ok_iff.1 h).symm⟩⟩

/-- The mask of a format `N` row keeps every bit (R103). -/
theorem decode_eq_ok_iff_masked (w : CmdWord) (i : Instr) : decode w = .ok i ↔ w &&& 0xFFFFFFFFFF = encode i := by
  rw [decode_eq_ok_iff, show (0xFFFFFFFFFF : CmdWord) = BitVec.allOnes 40 from rfl, BitVec.and_allOnes]

/-- The mask of a format `I` row keeps the opcode alone (R103). -/
theorem masked_eq_iff (w : CmdWord) (op : Byte) : w &&& 0xFF00000000 = cmdWord op 0 ↔ opcodeField w = op := by
  have masked := Laws.Row.masked_word (opcodeField w) (immField w)
  rw [cmdWord_fields] at masked
  rw [masked]
  constructor
  · intro same
    rw [← opcodeField_cmdWord (opcodeField w) 0, same, opcodeField_cmdWord]
  · intro same
    rw [same]

theorem opcodeField_and (v w : CmdWord) : opcodeField (v &&& w) = opcodeField v &&& opcodeField w :=
  BitVec.extractLsb'_and

theorem Instr.opcodeField_rowMask (i : Instr) : opcodeField i.rowMask = BitVec.allOnes 8 := by
  cases i <;> simp only [Instr.rowMask] <;> decide

theorem Instr.opcodeField_rowMatch (i : Instr) : opcodeField i.rowMatch = i.opcode := by
  cases i <;> simp only [Instr.rowMatch, Instr.opcode] <;> decide

/-- The opcode of a word that matches a row is the row's: every mask keeps the opcode's eight bits (R103, R104). -/
theorem opcode_of_row {w : CmdWord} {i : Instr} (h : w &&& i.rowMask = i.rowMatch) : opcodeField w = i.opcode := by
  rw [← i.opcodeField_rowMatch, ← h, opcodeField_and, i.opcodeField_rowMask, BitVec.and_allOnes]

/-- Settles O2: a format `N` word matches its row exactly when it is the command's word, a format `I` word when its opcode is
the command's, whatever its operand. -/
theorem wordIsARowsCommandExactlyWhenItMatches : Obligations.WordIsARowsCommandExactlyWhenItMatches := by
  unfold Obligations.WordIsARowsCommandExactlyWhenItMatches
  intro w
  have formatN (i : Instr) := decode_eq_ok_iff_masked w i
  have formatI (op : Byte) (i : Instr) (opcode : i.opcode = op) :
      decode w = .ok i ↔ w &&& 0xFF00000000 = cmdWord op 0 ∧ i.imm = immField w := by
    rw [decode_eq_ok_iff, eq_encode_iff, masked_eq_iff, opcode, eq_comm (a := immField w)]
  exact ⟨formatN .sysNop, formatN .csumGen, formatN .csumChk, formatN .frmEnc, formatN .frmDec,
    fun d => formatI 0x20 (.tmrStart d) rfl, formatN .tmrRestart, formatN .tmrStop, formatN .tmrPoll,
    fun x => formatI 0x30 (.rsmInit x) rfl, formatN .rsmRx, formatN .sysReset,
    fun i j hi hj => (opcode_of_row hi).symm.trans (opcode_of_row hj)⟩

/-- Settles O1: each row's word is evaluated. -/
theorem wordsOfTheTableDecode : Obligations.WordsOfTheTableDecode := by
  unfold Obligations.WordsOfTheTableDecode
  decide

end Sys2Proof

namespace Sys2Proof.Machine

/-- A step whose next event writes a command's word to `CMD` executes that command (R34). -/
theorem step_exec {s : State} {w : CmdWord} {i : Instr} {rest : List Event} (hc : s.cfg.ok = true) (hb : s.busy = false)
    (hs : s.script = .writeReg 0x00D w.toNat :: rest) (h : decode w = .ok i) : step s = exec i (withScript rest s) := by
  rw [step_command hc hb hs, issueCommand_ok h]

/-- A command word handed in stands at the head of the script, whole. -/
theorem withFetchWord_script (s : State) (w : CmdWord) :
    (s.withFetchWord 40 w.toNat).script = .writeReg 0x00D w.toNat :: s.script := by
  rw [State.withFetchWord, Nat.mod_eq_of_lt w.isLt]
  rfl

/-- Settles O5: the word at the head of the script is taken off it and its command executed; a word handed in stands at the
head. -/
theorem stepRunsTheDecodedCommand : Obligations.StepRunsTheDecodedCommand := by
  unfold Obligations.StepRunsTheDecodedCommand
  refine ⟨fun s w i rest hc hb hs h => step_exec hc hb hs h, fun s w i hc hb h => ?_⟩
  exact step_exec (s := s.withFetchWord 40 w.toNat) hc hb (withFetchWord_script s w) h

end Sys2Proof.Machine
end

section
/-! PROOFS. Encoding what was decoded (R161), and `SEAL` followed by `OPEN` (R121). -/

namespace Sys2Proof.Machine

/-- `FRM.DEC` ends with `done` only on a frame of a legal length, and leaves it decoded (R156). -/
theorem frmDec_done {s t : State} (decoded : exec .frmDec s = .next t) (ok : t.cc = .ok) :
    s.rxLegal ∧ t = completed (clearCkok (decodeFrame s)) := by
  by_cases legal : s.rxLegal
  · rw [exec_frmDec legal] at decoded
    cases decoded
    exact ⟨legal, rfl⟩
  · rw [exec_frmDec_error legal] at decoded
    cases decoded
    cases ok

section
variable (s : State)

/-- The 18 header bytes, encoded from the decoded registers, are what they were (R161). -/
theorem encode_decode_header {k : Nat} (hk : k < 18) :
    (encodeFrame (completed (clearCkok (decodeFrame s)))).frmByte k = s.frmByte k := by
  rw [encodeFrame_header _ hk, completed_seg, clearCkok_seg, decodeFrame_seg, Header.bytes_ofBytes _ _ hk]

/-- The payload, encoded from `PAY`, is what it was (R161). -/
theorem encode_decode_payload {k : Nat} (hk : k < s.flen.toNat - 18) :
    (encodeFrame (completed (clearCkok (decodeFrame s)))).frmByte (18 + k) = s.frmByte (18 + k) := by
  rw [encodeFrame_payload _ (by rwa [completed_segPlen, clearCkok_segPlen, decodeFrame_segPlen_toNat]), completed_payByte,
    clearCkok_payByte, decodeFrame_payByte, if_pos hk]

/-- Encoding what was decoded leaves every byte of `FRM` (R161). -/
theorem encode_decode_frmByte (k : Nat) :
    (encodeFrame (completed (clearCkok (decodeFrame s)))).frmByte k = s.frmByte k := by
  by_cases header : k < 18
  · exact encode_decode_header s header
  · obtain ⟨j, rfl⟩ := Nat.exists_eq_add_of_le (Nat.le_of_not_lt header)
    by_cases payload : j < s.flen.toNat - 18
    · exact encode_decode_payload s payload
    · rw [encodeFrame_frmByte, completed_segPlen, clearCkok_segPlen, decodeFrame_segPlen_toNat, if_neg (by omega),
        completed_frmByte, clearCkok_frmByte, decodeFrame_frmByte]

end

/-- Encoding what was decoded leaves `FLEN` (R161). -/
theorem encode_decode_flen {s : State} (legal : s.rxLegal) :
    (encodeFrame (completed (clearCkok (decodeFrame s)))).flen = s.flen := by
  have long : 18 ≤ s.flen.toNat := legal.1
  rw [encodeFrame_flen, completed_segPlen, clearCkok_segPlen, decodeFrame_segPlen_toNat, hdrBytes, Nat.add_sub_cancel' long,
    BitVec.ofNat_toNat, BitVec.setWidth_eq]

/-- Settles O20: a legal frame decodes to a payload that a frame can hold, and encoding writes back the header's bytes, the
payload's and their number. -/
theorem encodingTheDecodedSegmentRestoresTheFrame : Obligations.EncodingTheDecodedSegmentRestoresTheFrame := by
  unfold Obligations.EncodingTheDecodedSegmentRestoresTheFrame
  intro s t decoded ok
  obtain ⟨legal, rfl⟩ := frmDec_done decoded ok
  have fits : (decodeFrame s).segPlen.toNat ≤ s.cfg.mss := (decodeFrame_segPlen_toNat s).trans_le (rxLegal_mss legal)
  refine ⟨_, exec_frmEnc fits, completed_cc _, ?_⟩
  simp only [completed_flen, completed_frmByte]
  exact ⟨encode_decode_flen legal, encode_decode_frmByte s⟩

section
variable (rest : List Event) (s : State)

theorem completed_withScript : completed (withScript rest s) = withScript rest (completed s) := rfl

theorem generateChecksum_withScript : generateChecksum (withScript rest s) = withScript rest (generateChecksum s) := rfl

theorem checkSegment_withScript : checkSegment (withScript rest s) = withScript rest (checkSegment s) := rfl

theorem segFrame_withScript : (withScript rest s).segFrame = s.segFrame := rfl

theorem encodeFrame_withScript : encodeFrame (withScript rest s) = withScript rest (encodeFrame s) := by
  apply State.ext_fields <;> simp [segFrame_withScript]

theorem frmBytes_withScript (a n : Nat) : (withScript rest s).frmBytes a n = s.frmBytes a n := rfl

theorem decodeFrame_withScript : decodeFrame (withScript rest s) = withScript rest (decodeFrame s) := by
  rw [decodeFrame, frmBytes_withScript]
  rfl

theorem clearCkok_withScript : clearCkok (withScript rest s) = withScript rest (clearCkok s) := rfl

end

/-- The segment in `SEG` and `PAY` with its checksum generated, and its frame in `FRM`: what `SEAL` leaves (R121). -/
def sealedFrame (s : State) : State := completed (encodeFrame (completed (generateChecksum s)))

section
variable {s : State} {rest : List Event} (hc : s.cfg.ok = true) (hb : s.busy = false)
include hc hb

/-- A run whose next event is a command's word goes on with what the command leaves. -/
theorem run_command {t : State} {i : Instr} (executed : exec i (withScript rest s) = .next t) (k : Nat) :
    Sys2Proof.core.run (k + 1) (withScript (Script.cmd i ++ rest) s) = Sys2Proof.core.run k t :=
  run_next ((step_exec (s := withScript (Script.cmd i ++ rest) s) hc hb rfl (decode_encode i)).trans executed) k

/-- The pseudo-instruction `SEAL` (R121). -/
theorem run_seal (fits : s.segPlen.toNat ≤ s.cfg.mss) (k : Nat) :
    Sys2Proof.core.run (k + 2) (withScript (Script.sealSegment ++ rest) s) =
      Sys2Proof.core.run k (withScript rest (sealedFrame s)) := by
  have generated := exec_csumGen (s := withScript (Script.cmd .frmEnc ++ rest) s) fits
  rw [generateChecksum_withScript, completed_withScript] at generated
  have encoded := exec_frmEnc (s := withScript rest (completed (generateChecksum s))) fits
  rw [encodeFrame_withScript, completed_withScript, ← sealedFrame] at encoded
  rw [← run_command (s := completed (generateChecksum s)) hc hb encoded k]
  exact run_command hc hb generated (k + 1)

/-- The pseudo-instruction `OPEN` on a legal frame (R121). -/
theorem run_open (legal : s.rxLegal) (k : Nat) :
    Sys2Proof.core.run (k + 2) (withScript (Script.openFrame ++ rest) s) =
      Sys2Proof.core.run k (withScript rest (decodedAndChecked s)) := by
  have decoded := exec_frmDec (s := withScript (Script.cmd .csumChk ++ rest) s) legal
  rw [decodeFrame_withScript, clearCkok_withScript, completed_withScript] at decoded
  have checked := exec_csumChk_decoded (s := withScript rest s) legal
  rw [decodedAndChecked, decodeFrame_withScript, clearCkok_withScript, completed_withScript, checkSegment_withScript,
    completed_withScript, ← decodedAndChecked] at checked
  rw [← run_command (s := completed (clearCkok (decodeFrame s))) hc hb checked k]
  exact run_command hc hb decoded (k + 1)

end

section
variable (s : State)

theorem decodedAndChecked_seg : (decodedAndChecked s).seg = s.rxHeader := rfl

theorem decodedAndChecked_csumCalc : (decodedAndChecked s).csumCalc = s.rxChecksum := rxSegment_csumCalc s

theorem decodedAndChecked_segPlen : (decodedAndChecked s).segPlen = (decodeFrame s).segPlen := rfl

theorem decodedAndChecked_flen : (decodedAndChecked s).flen = s.flen := rfl

theorem decodedAndChecked_payByte (k : Nat) : (decodedAndChecked s).payByte k = (decodeFrame s).payByte k := by
  rw [decodedAndChecked, completed_payByte, checkSegment_payByte, completed_payByte, clearCkok_payByte]

/-- `OPEN` of a sealed segment finds the header that was sealed (R160). -/
theorem sealedFrame_rxHeader :
    (sealedFrame s).rxHeader = { s.seg with checksum := complementSum s.seg s.payByte s.segPlen.toNat } := by
  rw [sealedFrame, ← decodeFrame_rxHeader, decode_encode_seg, completed_seg, generateChecksum_seg, segChecksum_eq]

end

section
variable {s : State} (hc : s.cfg.ok = true) (fits : s.segPlen.toNat ≤ s.cfg.mss)
include hc fits

theorem sealedFrame_rxLegal : (sealedFrame s).rxLegal :=
  (completed_rxLegal _).2 (encodeFrame_rxLegal (s := completed (generateChecksum s)) hc fits)

theorem sealedFrame_flen_toNat : (sealedFrame s).flen.toNat = 18 + s.segPlen.toNat := by
  rw [sealedFrame, completed_flen]
  exact encodeFrame_flen_toNat (s := completed (generateChecksum s)) hc fits

/-- `OPEN` of a sealed segment finds the payload that was sealed (R160). -/
theorem sealedFrame_payload :
    (decodeFrame (sealedFrame s)).segPlen = s.segPlen ∧ ∀ k, (decodeFrame (sealedFrame s)).payByte k = s.payByte k :=
  ⟨decode_encode_segPlen (s := completed (generateChecksum s)) hc fits,
    decode_encode_payByte (s := completed (generateChecksum s)) hc fits⟩

/-- `OPEN` of a sealed segment computes the checksum that `SEAL` computed: it is over the same fields and payload, and the
stored checksum is no addend (R137, R160). -/
theorem sealedFrame_rxChecksum : (sealedFrame s).rxChecksum = complementSum s.seg s.payByte s.segPlen.toNat := by
  obtain ⟨plen, payload⟩ := sealedFrame_payload hc fits
  rw [← decodeFrame_segChecksum, segChecksum_eq, decodeFrame_rxHeader, sealedFrame_rxHeader, funext payload, plen]
  rfl

end

/-- Settles O16: `SEAL` stores the checksum and encodes; `OPEN` decodes the same fields and payload and computes the same
checksum over them. -/
theorem sealThenOpenVerifies : Obligations.SealThenOpenVerifies := by
  unfold Obligations.SealThenOpenVerifies
  intro s hc hb fits hs
  obtain ⟨plen, payload⟩ := sealedFrame_payload hc fits
  have run : Sys2Proof.core.run 4 s = .next (withScript [] (decodedAndChecked (sealedFrame s))) := by
    have sealing := run_seal (rest := Script.openFrame) hc hb fits 2
    rw [← hs] at sealing
    exact sealing.trans (run_open (s := sealedFrame s) (rest := []) hc hb (sealedFrame_rxLegal hc fits) 0)
  refine ⟨_, run, ?_⟩
  simp only [withScript_ckok, withScript_cc, withScript_seg, withScript_csumCalc, withScript_segPlen, withScript_flen,
    withScript_payByte, decodedAndChecked_ckok, decodedAndChecked_seg, decodedAndChecked_csumCalc, decodedAndChecked_segPlen,
    decodedAndChecked_flen, decodedAndChecked_payByte, sealedFrame_rxHeader, sealedFrame_rxChecksum hc fits,
    sealedFrame_flen_toNat hc fits, plen, payload]
  exact ⟨decide_eq_true trivial, rfl, trivial, trivial, trivial, trivial, fun _ => trivial⟩

end Sys2Proof.Machine
end

section
/-! PROOFS. Offset arithmetic (R13), folding (R12), and what follows for the checksum (R132, R141). -/

namespace Sys2Proof.Machine

/-! ### Offsets -/

/-- An offset and the one `2^31` after it are each before the other (R13). -/
theorem lt32_add32_half (b : Word) : lt32 (add32 b (2 ^ 31)) b = true ∧ lt32 b (add32 b (2 ^ 31)) = true := by
  have := b.isLt
  rw [lt32_iff, lt32_iff, add32_toNat]
  omega

/-- Offsets less than `2^31` apart compare as the numbers they are (R13). -/
theorem lt32_iff_toNat_lt {a b : Word} (hab : a.toNat < b.toNat + 2 ^ 31) (hba : b.toNat < a.toNat + 2 ^ 31) :
    lt32 a b = true ↔ a.toNat < b.toNat := by
  have := a.isLt
  have := b.isLt
  rw [lt32_iff]
  omega

/-- Exactly one of the three comparisons holds (R13). -/
theorem compare32_trichotomy (a b : Word) :
    (lt32 a b = true ∧ eq32 a b = false ∧ gt32 a b = false) ∨
      (lt32 a b = false ∧ eq32 a b = true ∧ gt32 a b = false) ∨
      (lt32 a b = false ∧ eq32 a b = false ∧ gt32 a b = true) := by
  by_cases same : a = b
  · subst same
    simp [gt32, eq32]
  · have distinct : eq32 a b = false := by simpa [eq32] using same
    cases before : lt32 a b <;> simp [gt32, distinct, before]

/-- Settles O7: each comparison is read as a bound on the distance modulo `2^32`. -/
theorem offsetsCompareBySerialNumber : Obligations.OffsetsCompareBySerialNumber := by
  unfold Obligations.OffsetsCompareBySerialNumber
  refine ⟨add32_toNat, fun a b => ⟨lt32_iff a b, eq32_iff a b, compare32_trichotomy a b, ?opposite, lt32_iff_toNat_lt⟩⟩
  case opposite =>
    rintro rfl
    exact lt32_add32_half b

/-! ### Folding -/

/-- Folding a summand first changes nothing (R12 (c)). -/
theorem fold16_fold_add (m n : Nat) : fold16 (fold16 m + n) = fold16 (m + n) := by
  simp only [fold16_closed]
  split_ifs <;> omega

theorem fold16_add_fold (m n : Nat) : fold16 (m + fold16 n) = fold16 (m + n) := by
  rw [Nat.add_comm, fold16_fold_add, Nat.add_comm]

/-- Folding keeps the residue modulo `0xFFFF` and lands between 1 and `0xFFFF` (R12 (b)), which leaves one value. -/
theorem fold16_unique {n r : Nat} (positive : 0 < n) (low : 1 ≤ r) (high : r ≤ 0xFFFF) (residue : r % 0xFFFF = n % 0xFFFF) :
    r = fold16 n := by
  rw [fold16_closed]
  split <;> omega

theorem ocAdd16_assoc (a b c : Nat) : ocAdd16 (ocAdd16 a b) c = ocAdd16 a (ocAdd16 b c) := by
  rw [ocAdd16, ocAdd16, ocAdd16, ocAdd16, fold16_fold_add, fold16_add_fold, Nat.add_assoc]

/-- Folding a number adds its two halves: `2^16` is 1 modulo `0xFFFF` (R12 (d)). -/
theorem fold16_halves (hi lo : Nat) : fold16 (hi * 2 ^ 16 + lo) = fold16 (hi + lo) := by
  obtain zero | positive := Nat.eq_zero_or_pos (hi + lo)
  · obtain ⟨rfl, rfl⟩ : hi = 0 ∧ lo = 0 := Nat.add_eq_zero_iff.1 zero
    rfl
  · exact fold16_congr (by omega) positive (by omega)

theorem ocAdd16_complement (a : Half) : ocAdd16 a.toNat (~~~ a).toNat = 0xFFFF := by
  have := a.isLt
  rw [ocAdd16, BitVec.toNat_not, fold16_closed]
  split <;> omega

/-- Settles O8: each law is read off the closed form of `fold16`. -/
theorem foldingIsArithmeticModulo65535 : Obligations.FoldingIsArithmeticModulo65535 := by
  unfold Obligations.FoldingIsArithmeticModulo65535
  refine ⟨fold16_eq_zero, fun n positive => ⟨?low, ?high, fold16_mod n, fun r => fold16_unique positive⟩,
    fun m n => ?add, fun a b => ?comm, ocAdd16_assoc, fun v => ?halves, ocAdd16_complement, fun l => ?zero,
    fun n positive multiple => ?allOnes⟩
  case low =>
    rw [Nat.one_le_iff_ne_zero, Ne, fold16_eq_zero]
    exact Nat.ne_of_gt positive
  case high => exact Nat.le_of_lt_succ (fold16_lt n)
  case add => rw [fold16_fold_add, fold16_add_fold]
  case comm => rw [ocAdd16, ocAdd16, Nat.add_comm]
  case halves =>
    have high : v.toNat / 2 ^ 16 < 2 ^ 16 := by
      have := v.isLt
      omega
    rw [ocAdd16, BitVec.extractLsb'_toNat, BitVec.extractLsb'_toNat, Nat.shiftRight_eq_div_pow, Nat.shiftRight_zero,
      Nat.mod_eq_of_lt high, ← fold16_halves, Nat.div_add_mod']
  case zero => rw [fold16_eq_zero, List.sum_eq_zero_iff]
  case allOnes =>
    exact (fold16_eq_allOnes_iff n).2 ⟨n / 0xFFFF, by omega, by omega⟩

/-! ### What the checksum does not detect (R141) -/

/-- Two bytes put in after an even number of payload bytes add their chunk to the sum (R131). -/
theorem chunks_sum_insert (p r : List Byte) (b0 b1 : Byte) (even : p.length % 2 = 0) :
    (chunks (p ++ [b0, b1] ++ r)).sum = (chunks (p ++ r)).sum + (u16 b0 b1).toNat := by
  rw [List.append_assoc, chunks_append p _ even, chunks_append p _ even, List.cons_append, List.cons_append, List.nil_append,
    chunks, List.sum_append, List.sum_append, List.sum_cons]
  omega

/-- Zero bytes at the end of a payload add nothing (R131). -/
theorem chunks_sum_append_zeros (p : List Byte) (n : Nat) :
    (chunks (p ++ List.replicate n 0)).sum = (chunks p).sum := by
  have zeros (k : Nat) : (chunks (List.replicate k 0)).sum = 0 :=
    (chunks_sum_eq_zero _).2 fun b hb => (List.mem_replicate.1 hb).2
  induction p using chunks.induct with
  | case1 => exact zeros n
  | case2 b =>
    cases n with
    | zero => rfl
    | succ n =>
      rw [List.replicate_succ, List.cons_append, List.nil_append]
      simp only [chunks, List.sum_cons, zeros, List.sum_nil]
  | case3 b0 b1 p ih => rw [List.cons_append, List.cons_append, chunks, chunks, List.sum_cons, List.sum_cons, ih]

/-- Segments whose addends have the same sum have the same checksum (R132). -/
theorem checksum_of_sum_eq {h g : Header} {p q : List Byte} (same : (addends h p).sum = (addends g q).sum) :
    checksum h p = checksum g q :=
  (checksum_eq_iff h g p q).2 (congrArg fold16 same)

/-- Settles O14: each change keeps the sum of the addends, or its residue modulo `0xFFFF`. -/
theorem checksumBlindSpots : Obligations.ChecksumBlindSpots := by
  unfold Obligations.ChecksumBlindSpots
  refine ⟨fun h p q r a0 a1 b0 b1 evenP evenQ => ?chunkOrder, fun h p => ⟨?ports, ?srcWindow, ?dstWindow⟩,
    fun h p r b0 b1 c0 c1 evenP => ⟨?srcChunk, ?dstChunk, ?windowChunk⟩, fun h p n => ?zeros,
    fun h g p q posP posQ same => ?residue, fun h g p fields same => ?lengthAgainstFlags⟩
  case chunkOrder =>
    have evenPrefix (c0 c1 : Byte) : (p ++ [c0, c1] ++ q).length % 2 = 0 := by
      simp only [List.length_append, List.length_cons, List.length_nil]
      omega
    apply checksum_of_sum_eq
    rw [addends_sum, addends_sum, chunks_sum_insert _ r _ _ (evenPrefix _ _), chunks_sum_insert _ r _ _ (evenPrefix _ _),
      List.append_assoc _ q, List.append_assoc _ q, chunks_sum_insert p (q ++ r) _ _ evenP,
      chunks_sum_insert p (q ++ r) _ _ evenP]
    omega
  case zeros =>
    apply checksum_of_sum_eq
    rw [addends_sum, addends_sum, chunks_sum_append_zeros]
  case residue => exact (checksum_eq_iff h g p q).2 (fold16_congr posP posQ same)
  case lengthAgainstFlags =>
    apply checksum_of_sum_eq
    rw [fields, addends_sum, addends_sum]
    dsimp only
    omega
  case ports | srcWindow | dstWindow =>
    apply checksum_of_sum_eq
    simp only [addends_sum]
    omega
  case srcChunk | dstChunk | windowChunk =>
    apply checksum_of_sum_eq
    simp only [addends_sum, chunks_sum_insert p r _ _ evenP]
    omega

/-! ### The end-around-carry adder (R132) -/

/-- Accumulating with end-around carry folds the sum (R12 (c)). -/
theorem foldl_ocAdd16 (l : List Nat) (m : Nat) : l.foldl ocAdd16 (fold16 m) = fold16 (m + l.sum) := by
  induction l generalizing m with
  | nil => rfl
  | cons a l ih => rw [List.foldl_cons, ocAdd16, fold16_fold_add, ih, List.sum_cons, Nat.add_assoc]

/-- The halves of the 32-bit fields fold to what the fields do (R12 (d)). -/
theorem fold16_addends16 (h : Header) (p : List Byte) : fold16 (addends16 h p).sum = fold16 (addends h p).sum := by
  rw [addends_sum]
  simp only [addends16, List.sum_append, List.sum_cons, List.sum_nil, fold16_closed]
  split_ifs <;> omega

/-- Every addend of the 16-bit datapath fits it (R132). -/
theorem addends16_lt (h : Header) (p : List Byte) : ∀ a ∈ addends16 h p, a < 2 ^ 16 := by
  have chunk : ∀ a ∈ chunks p, a < 2 ^ 16 := by
    induction p using chunks.induct with
    | case1 => simp [chunks]
    | case2 b => simpa [chunks] using (u16 b 0).isLt
    | case3 b0 b1 p ih => simpa [chunks, (u16 b0 b1).isLt] using ih
  have seqNum := h.seqNum.isLt
  have ackNum := h.ackNum.isLt
  have hdrLen := h.hdrLen.isLt
  have flags := h.flags.isLt
  simp only [addends16, List.forall_mem_append, List.forall_mem_cons]
  refine ⟨⟨h.srcPort.isLt, h.dstPort.isLt, ?_, ?_, ?_, ?_, ?_, ?_, h.recvWindow.isLt, by simp⟩, chunk⟩ <;> omega

/-- Settles O15: in any order of the addends the adder folds their sum, and the halves fold to what the fields do. -/
theorem endAroundCarryAdderComputesTheChecksum : Obligations.EndAroundCarryAdderComputesTheChecksum := by
  unfold Obligations.EndAroundCarryAdderComputesTheChecksum
  intro h p
  have adder (l : List Nat) (order : l.Perm (addends16 h p)) : ~~~ (BitVec.ofNat 16 (l.foldl ocAdd16 0)) = checksum h p := by
    have folded : l.foldl ocAdd16 0 = fold16 (0 + l.sum) := foldl_ocAdd16 l 0
    rw [folded, Nat.zero_add, order.sum_eq, fold16_addends16, checksum, sum16]
  exact ⟨checksum_toNat h p, Nat.le_of_lt_succ (fold16_lt _), addends16_lt h p, adder _ (List.Perm.refl _), adder⟩

end Sys2Proof.Machine
end

section
/-! PROOFS. What a command leaves and what an event does, each said once; precise errors (R230), and what no command writes
(R31, R32, R39, R48, R86). -/

namespace Sys2Proof.Machine

/-! ### Commands -/

/-- The effect of a command that ends with `done`, before `CC` is set (R9). -/
def commandEffect (s : State) : Instr → State
  | .sysNop => s
  | .csumGen => generateChecksum s
  | .csumChk => checkSegment s
  | .frmEnc => encodeFrame s
  | .frmDec => clearCkok (decodeFrame s)
  | .tmrStart d => armTimer d (recordDuration d s)
  | .tmrRestart => armTimer s.tdur s
  | .tmrStop => disarmTimer s
  | .tmrPoll => recordPoll s
  | .rsmInit x => openStream x (freeAll s)
  | .rsmRx => finishRx (classifyAndApply s)
  | .sysReset => freeAll (resetRegisters s)

/-- The state that a command leaves: its effect, or the record of its error. -/
def commandOutcome (s : State) (i : Instr) : State :=
  if completionCode s i = .ok then completed (commandEffect s i) else raised (completionCode s i) s

theorem commandOutcome_ok {s : State} {i : Instr} (h : completionCode s i = .ok) :
    commandOutcome s i = completed (commandEffect s i) := if_pos h

theorem commandOutcome_error {s : State} {i : Instr} (h : completionCode s i ≠ .ok) :
    commandOutcome s i = raised (completionCode s i) s := if_neg h

/-- Every command completes, with its effect or with its error's record (R230, R231). -/
theorem exec_eq (i : Instr) (s : State) : exec i s = .next (commandOutcome s i) := by
  cases i with
  | csumGen | csumChk | frmEnc | frmDec | tmrRestart | rsmRx =>
    simp only [exec, execCsumGen, execCsumChk, execFrmEnc, execFrmDec, execTmrRestart, execRsmRx, commandOutcome,
      completionCode]
    split <;> rfl
  | sysNop | tmrStart | tmrStop | tmrPoll | rsmInit | sysReset => rfl

/-- What neither an error's record nor the command's effect changes, the command does not change. -/
theorem commandOutcome_unchanged {α : Type} (f : State → α) {s : State} {i : Instr} (record : ∀ c, f (raised c s) = f s)
    (effect : f (completed (commandEffect s i)) = f s) : f (commandOutcome s i) = f s := by
  rw [commandOutcome]
  split
  · exact effect
  · exact record _

/-- The bit of `ESR` that an error sets is the bit of its code's number (R33). -/
theorem CompletionCode.esrMask_eq {c : CompletionCode} (h : c ≠ .ok) : c.esrMask = 1#32 <<< c.code := by
  cases c with
  | ok => exact absurd rfl h
  | illegalCmd | encodingError | decodingError | tmrNoDuration | rsmInactive => rfl

/-- Settles O43: the effect of a command ends with `OK`, so another code is an error's record. -/
theorem errorsArePrecise : Obligations.ErrorsArePrecise := by
  unfold Obligations.ErrorsArePrecise
  refine fun i s => ⟨_, exec_eq i s, fun notOk => ?_⟩
  by_cases done : completionCode s i = .ok
  · rw [commandOutcome_ok done] at notOk
    exact absurd rfl notOk
  · rw [commandOutcome_error done, raised_cc, ← CompletionCode.esrMask_eq done, raised]

/-- Settles O46: the effects of the other commands leave each of the four fields. -/
theorem resultFieldsAreWrittenByTheirCommandsOnly : Obligations.ResultFieldsAreWrittenByTheirCommandsOnly := by
  unfold Obligations.ResultFieldsAreWrittenByTheirCommandsOnly
  refine fun i s => ⟨_, exec_eq i s, ?ckok, ?csumCalc, ?rxres, ?tpoll⟩
  case ckok =>
    intros
    exact commandOutcome_unchanged State.ckok (raised_ckok · s) (by cases i <;> simp_all [commandEffect])
  case csumCalc =>
    intros
    exact commandOutcome_unchanged State.csumCalc (raised_csumCalc · s) (by cases i <;> simp_all [commandEffect])
  case rxres =>
    intros
    exact commandOutcome_unchanged State.rxres (raised_rxres · s) (by cases i <;> simp_all [commandEffect])
  case tpoll =>
    intros
    exact commandOutcome_unchanged State.tpoll (raised_tpoll · s) (by cases i <;> simp_all [commandEffect])

/-- The registers of the acknowledgement template (R48), as one tuple. -/
def State.ackTemplate (s : State) : Half × Half × Word × Byte × Half :=
  (s.acktSrcPort, s.acktDstPort, s.acktSeqNum, s.acktHdrLen, s.acktRecvWindow)

theorem commandOutcome_ackTemplate {s : State} {i : Instr} (notReset : i ≠ .sysReset) :
    (commandOutcome s i).ackTemplate = s.ackTemplate := by
  refine commandOutcome_unchanged State.ackTemplate (fun _ => rfl) ?_
  cases i <;> simp_all [commandEffect, State.ackTemplate]

theorem commandOutcome_ackf {s : State} {i : Instr} (notReset : i ≠ .sysReset) (notRx : i ≠ .rsmRx) :
    (commandOutcome s i).ackf = s.ackf := by
  refine commandOutcome_unchanged State.ackf (raised_ackf · s) ?_
  cases i <;> simp_all [commandEffect]

/-- Settles O54: the platform's part is touched by no command, the template and `ACKF` by the named effects only. -/
theorem noCommandWritesTheTimeBaseOrTheTemplate : Obligations.NoCommandWritesTheTimeBaseOrTheTemplate := by
  unfold Obligations.NoCommandWritesTheTimeBaseOrTheTemplate
  intro i s
  obtain ⟨cfg, now, script, hostReads, ramDraw⟩ := exec_samePlatform (exec_eq i s)
  refine ⟨_, exec_eq i s, now, cfg, script, hostReads, ramDraw, fun notReset => ?template, commandOutcome_ackf⟩
  simpa only [State.ackTemplate, Prod.mk.injEq] using commandOutcome_ackTemplate notReset

/-! ### Buffers -/

/-- Two states with the same buffers, draw and buffer sizes show the host the same bytes (R84). -/
theorem hostReadByte_of_buffers_eq {s t : State} (cfg : t.cfg = s.cfg) (draw : t.ramDraw = s.ramDraw) (pay : t.pay = s.pay)
    (frm : t.frm = s.frm) {b i : Nat} (slot : ∀ j, (t.slot j).data = (s.slot j).data) (ackf : b = 0x02 → t.ackf = s.ackf)
    (out : b = 0x03 → t.out = s.out ∧ t.outlen = s.outlen) : hostReadByte t b i = hostReadByte s b i := by
  refine hostReadByte_congr cfg (fun _ => ?_) (fun _ => ?_) ackf out fun j => slotByte_congr draw (slot j) i
  · rw [State.payByte, State.payByte, draw, pay]
  · rw [State.frmByte, State.frmByte, draw, frm]

/-- The same, for two states with one slot file and nothing else that a buffer is read from apart. -/
theorem sameBytes_of_buffers_eq {s t : State} (cfg : t.cfg = s.cfg) (draw : t.ramDraw = s.ramDraw) (pay : t.pay = s.pay)
    (frm : t.frm = s.frm) (slots : t.slots = s.slots) (ackf : t.ackf = s.ackf) (out : t.out = s.out)
    (outlen : t.outlen = s.outlen) : sameBytes s t := fun _ _ =>
  hostReadByte_of_buffers_eq cfg draw pay frm (fun j => by rw [State.slot, State.slot, slots]) (fun _ => ackf)
    fun _ => ⟨out, outlen⟩

theorem sameBytes_raised (c : CompletionCode) (s : State) : sameBytes s (raised c s) :=
  sameBytes_of_buffers_eq rfl rfl rfl rfl rfl rfl rfl rfl

/-- Freeing slots leaves their `DATA` (R193). -/
theorem freeAll_slot_data (s : State) (j : Nat) : ((freeAll s).slot j).data = (s.slot j).data := by
  rw [State.slot, State.slot, freeAll_slots, List.getD_eq_getElem?_getD, List.getD_eq_getElem?_getD, List.getElem?_map]
  cases s.slots[j]? <;> rfl

/-- Settles O53: none of the seven commands writes a buffer; `RSM.INIT` empties `OUT`, and `SYS.RESET` that and `ACKF`, beside
freeing the slots. -/
theorem commandsThatMoveNoDataLeaveEveryBuffer : Obligations.CommandsThatMoveNoDataLeaveEveryBuffer := by
  unfold Obligations.CommandsThatMoveNoDataLeaveEveryBuffer
  refine ⟨fun i s movesNoData => ⟨_, exec_eq i s, ?noData⟩, fun x s => ⟨_, exec_rsmInit x s, fun b k notOut => ?init⟩,
    fun s => ⟨_, exec_sysReset s, fun b k notAckf notOut => ?reset⟩⟩
  case noData =>
    rw [commandOutcome]
    split
    · obtain rfl | rfl | rfl | ⟨d, rfl⟩ | rfl | rfl | rfl := movesNoData <;>
        apply sameBytes_of_buffers_eq <;> simp [commandEffect]
    · exact sameBytes_raised _ s
  case init =>
    exact hostReadByte_of_buffers_eq (s := s) (t := completed (openStream x (freeAll s))) rfl rfl rfl rfl (freeAll_slot_data s)
      (fun _ => rfl) fun isOut => absurd isOut notOut
  case reset =>
    exact hostReadByte_of_buffers_eq (s := s) (t := completed (freeAll (resetRegisters s))) rfl rfl rfl rfl
      (freeAll_slot_data (resetRegisters s)) (fun isAckf => absurd isAckf notAckf) fun isOut => absurd isOut notOut

end Sys2Proof.Machine
end

section
/-! PROOFS. What an event does, said once (R14, R80 to R84, R180, R260); the timer between events (R180, R181, R183), and the
sticky bits of `ESR` (R33). -/

namespace Sys2Proof.Machine

/-! ### Events -/

/-- The number `0x0D` and no other names `CMD` (R22). -/
theorem Reg.eq_cmd_iff {c : Config} {n : Nat} {r : Reg} (named : Reg.ofNumber c n = some r) :
    r = .cmd ↔ n = Reg.cmd.number := by
  constructor
  · rintro rfl
    exact (Reg.number_of_ofNumber named).symm
  · rintro rfl
    cases named
    rfl

theorem Reg.ne_cmd_of_reserved {c : Config} {n : Nat} (reserved : Reg.ofNumber c n = none) : n ≠ Reg.cmd.number := by
  rintro rfl
  cases reserved

/-- What an event that is answered leaves. -/
inductive EventEffect (s : State) : Event → State → Prop where
  /-- A command's word written to `CMD` (R34, R82). -/
  | command (r : BitVec 12) (v : Nat) (i : Instr) : r.toNat = Reg.cmd.number → v < 2 ^ 40 →
      decode (BitVec.ofNat 40 v) = .ok i → EventEffect s (.writeReg r v) (commandOutcome s i)
  /-- An illegal word written to `CMD` (R105, R232). -/
  | illegal (r : BitVec 12) (v : Nat) (e : DecodeError) : r.toNat = Reg.cmd.number → v < 2 ^ 40 →
      decode (BitVec.ofNat 40 v) = .error e → EventEffect s (.writeReg r v) (raised .illegalCmd s)
  /-- A write to a reserved number (R83). -/
  | ignored (r : BitVec 12) (v : Nat) : Reg.ofNumber s.cfg r.toNat = none → EventEffect s (.writeReg r v) s
  /-- A write to a register other than `CMD` (R82, R83). -/
  | stored (r : BitVec 12) (v : Nat) (reg : Reg) : Reg.ofNumber s.cfg r.toNat = some reg → reg ≠ .cmd → v < 2 ^ reg.width →
      EventEffect s (.writeReg r v) (s.storeReg v reg)
  | readReg (r : BitVec 12) : EventEffect s (.readReg r) (handBack (hostReadReg s r.toNat) s)
  | writeByte (b : BitVec 12) (i : Nat) (v : Byte) : EventEffect s (.writeByte b i v) (hostWriteByte s b.toNat i v)
  | readByte (b : BitVec 12) (i : Nat) : EventEffect s (.readByte b i) (handBack (hostReadByte s b.toNat i).toNat s)
  /-- An advance of the time base that keeps the platform's bound (R39, R180). -/
  | tick (n : Nat) : s.now.toNat + n < timeBound → EventEffect s (.tick n) (evalExpiry (advanceNow n s))
  | hardwareReset : EventEffect s .hardwareReset (hardwareReset s)

/-- What a register write that is answered did. -/
theorem hostWriteReg_effect {s t : State} {r : BitVec 12} {v : Nat} (h : hostWriteReg r.toNat v s = .next t) :
    EventEffect s (.writeReg r v) t := by
  rw [hostWriteReg] at h
  split at h
  next reserved =>
    cases h
    exact .ignored r v reserved
  next reg named =>
    split at h
    · cases h
    next narrow =>
      have fits : v < 2 ^ reg.width := Nat.lt_of_not_le narrow
      split at h
      next isCmd =>
        subst isCmd
        have number := (Reg.eq_cmd_iff named).1 rfl
        cases decoded : decode (BitVec.ofNat 40 v) with
        | ok i =>
          rw [issueCommand_ok decoded, exec_eq] at h
          cases h
          exact .command r v i number fits decoded
        | error e =>
          rw [issueCommand_error decoded] at h
          cases h
          exact .illegal r v e number fits decoded
      next notCmd =>
        cases h
        exact .stored r v reg named notCmd fits

/-- What an event that is answered did. -/
theorem perform_effect {s t : State} {e : Event} (h : perform e s = .next t) : EventEffect s e t := by
  simp only [perform] at h
  split at h
  · cases h
  · cases e with
    | writeReg r v => exact hostWriteReg_effect h
    | readReg r => cases h; exact .readReg r
    | writeByte b i v => cases h; exact .writeByte b i v
    | readByte b i => cases h; exact .readByte b i
    | tick n =>
      simp only [tick] at h
      split at h
      next bound => cases h; exact .tick n bound
      · cases h
    | hardwareReset => cases h; exact .hardwareReset

/-- A step that answers a next state performed the event at the head of the script. -/
theorem step_effect {s t : State} {e : Event} {rest : List Event} (hs : s.script = e :: rest) (h : step s = .next t) :
    EventEffect (withScript rest s) e t := by
  obtain ⟨_, e', rest', hs', performed⟩ := step_next h
  rw [hs] at hs'
  cases hs'
  exact perform_effect performed

/-- What a stored register can change: the segment's registers, `FLEN` and the template (R82). -/
theorem storeReg_frame (s : State) (v : Nat) (reg : Reg) : s.storeReg v reg = { s with
    seg := (s.storeReg v reg).seg, segPlen := (s.storeReg v reg).segPlen, flen := (s.storeReg v reg).flen
    acktSrcPort := (s.storeReg v reg).acktSrcPort, acktDstPort := (s.storeReg v reg).acktDstPort
    acktSeqNum := (s.storeReg v reg).acktSeqNum, acktHdrLen := (s.storeReg v reg).acktHdrLen
    acktRecvWindow := (s.storeReg v reg).acktRecvWindow } := by
  cases reg <;> rfl

/-- What a written byte can change: `PAY` and `FRM` (R84). -/
theorem hostWriteByte_frame (s : State) (b i : Nat) (v : Byte) : hostWriteByte s b i v = { s with
    pay := (hostWriteByte s b i v).pay, frm := (hostWriteByte s b i v).frm } := by
  rw [hostWriteByte]
  split
  · rfl
  · split <;> rfl

/-! ### The timer -/

theorem sameTimer_refl (s : State) : s.sameTimer s := ⟨rfl, rfl, rfl, rfl, rfl⟩

/-- Whether a command's word leaves the timer armed is the command's matter (R181). -/
theorem leavesTimerArmed_command {r : BitVec 12} {v : Nat} {i : Instr} (number : r.toNat = Reg.cmd.number)
    (decoded : decode (BitVec.ofNat 40 v) = .ok i) : (Event.writeReg r v).leavesTimerArmed = !Instr.actsOnTimer i := by
  simp only [Event.leavesTimerArmed, if_pos number, decoded]

/-- An event that is no timer command, no reset and no advance of time leaves the timer (R181). -/
theorem EventEffect.sameTimer {s t : State} {e : Event} (h : EventEffect s e t) (armed : e.leavesTimerArmed = true)
    (noTick : ∀ n, e ≠ .tick n) : s.sameTimer t := by
  cases h with
  | command r v i number _ decoded =>
    rw [leavesTimerArmed_command number decoded, Bool.not_eq_true'] at armed
    exact exec_sameTimer (exec_eq i s) armed
  | illegal => exact ⟨rfl, rfl, rfl, rfl, rfl⟩
  | ignored => exact sameTimer_refl s
  | stored =>
    rw [storeReg_frame]
    exact ⟨rfl, rfl, rfl, rfl, rfl⟩
  | readReg | readByte => exact ⟨rfl, rfl, rfl, rfl, rfl⟩
  | writeByte =>
    rw [hostWriteByte_frame]
    exact ⟨rfl, rfl, rfl, rfl, rfl⟩
  | tick n => exact absurd rfl (noTick n)
  | hardwareReset => cases armed

/-- Settles O27: the event is performed on the state without it, and leaves the timer as it was there. -/
theorem onlyTimerEventsChangeTheTimer : Obligations.OnlyTimerEventsChangeTheTimer := by
  unfold Obligations.OnlyTimerEventsChangeTheTimer
  intro s t e rest hs h armed noTick
  obtain ⟨tstate, deadline, tdur, tdurv, now⟩ := (step_effect hs h).sameTimer armed noTick
  exact ⟨tstate, deadline, tdur, tdurv, now⟩

/-- Below the platform's bound the time base does not wrap (R39). -/
theorem advanceNow_now_toNat {s : State} {n : Nat} (bound : s.now.toNat + n < timeBound) :
    (advanceNow n s).now.toNat = s.now.toNat + n := by
  have : timeBound < 2 ^ 64 := by decide
  rw [advanceNow_now, BitVec.toNat_ofNat, Nat.mod_eq_of_lt (bound.trans this)]

/-- What an advance of the time base leaves: `NOW` and, at the deadline, `EXPIRED` (R171, R180). -/
theorem evalExpiry_advanceNow {s : State} {n : Nat} (bound : s.now.toNat + n < timeBound) :
    evalExpiry (advanceNow n s) = { s with
      now := (advanceNow n s).now
      tstate := if s.tstate = .running ∧ s.deadline.toNat ≤ s.now.toNat + n then .expired else s.tstate } := by
  have reached : (advanceNow n s).deadline ≤ (advanceNow n s).now ↔ s.deadline.toNat ≤ s.now.toNat + n := by
    rw [BitVec.le_def, advanceNow_now_toNat bound, advanceNow_deadline]
  simp only [evalExpiry, reached, advanceNow_tstate]
  split <;> rfl

/-- Settles O25: the event's effect below the bound, and the refusal at it. -/
theorem timeAdvanceChangesOnlyNowAndExpiry : Obligations.TimeAdvanceChangesOnlyNowAndExpiry := by
  unfold Obligations.TimeAdvanceChangesOnlyNowAndExpiry
  intro s n rest hc hs
  have performed : step s = tick n (withScript rest s) := step_event hc hs
  refine ⟨fun bound => ?advanced, fun reached => ?refused⟩
  case advanced =>
    have bound' : (withScript rest s).now.toNat + n < timeBound := bound
    have answered : step s = .next (evalExpiry (advanceNow n (withScript rest s))) := performed.trans (if_pos bound')
    rw [evalExpiry_advanceNow bound'] at answered
    exact ⟨_, answered, advanceNow_now_toNat bound', rfl⟩
  case refused => exact performed.trans (if_neg (Nat.not_lt.2 reached))

/-- The timer was armed with the deadline `d`, and has expired exactly when the time base has reached it (R171, R183). -/
structure State.armedUntil (s : State) (d : Nat) : Prop where
  deadline : s.deadline.toNat = d
  tstate : s.tstate = if d ≤ s.now.toNat then .expired else .running

theorem State.armedUntil_of_sameTimer {s t : State} {d : Nat} (same : s.sameTimer t) (armed : s.armedUntil d) :
    t.armedUntil d :=
  ⟨same.deadline ▸ armed.deadline, by rw [same.tstate, same.now, armed.tstate]⟩

/-- An advance of the time base keeps an expired timer expired and expires a running one at its deadline (R180). -/
theorem State.armedUntil_advance {s : State} {d n : Nat} (bound : s.now.toNat + n < timeBound) (armed : s.armedUntil d) :
    (evalExpiry (advanceNow n s)).armedUntil d := by
  obtain ⟨rfl, tstate⟩ := armed
  rw [evalExpiry_advanceNow bound]
  refine ⟨rfl, ?_⟩
  dsimp only
  rw [advanceNow_now_toNat bound, tstate]
  by_cases expired : s.deadline.toNat ≤ s.now.toNat
  · have still : s.deadline.toNat ≤ s.now.toNat + n := by omega
    simp [expired, still]
  · simp [expired]

/-- Every event that is no timer command and no reset keeps the timer armed with its deadline (R183). -/
theorem EventEffect.armedUntil {s t : State} {e : Event} {d : Nat} (h : EventEffect s e t)
    (leaves : e.leavesTimerArmed = true) (armed : s.armedUntil d) : t.armedUntil d := by
  by_cases isTick : ∃ n, e = .tick n
  · obtain ⟨n, rfl⟩ := isTick
    cases h with
    | tick n bound => exact State.armedUntil_advance bound armed
  · exact State.armedUntil_of_sameTimer (h.sameTimer leaves fun n hn => isTick ⟨n, hn⟩) armed

/-- A run over events that are no timer command and no reset keeps the timer armed with its deadline (R183). -/
theorem run_armedUntil {d : Nat} (evs : List Event) {s t : State} (hs : s.script = evs)
    (leave : ∀ e ∈ evs, e.leavesTimerArmed = true) (run : Sys2Proof.core.run evs.length s = .next t)
    (armed : s.armedUntil d) : t.armedUntil d := by
  induction evs generalizing s with
  | nil =>
    cases run
    exact armed
  | cons e rest ih =>
    obtain ⟨head, tail⟩ := List.forall_mem_cons.1 leave
    obtain ⟨u, first, others⟩ := run_succ_next run
    have script : u.script = rest := (step_cfg_script hs first).2
    have armed' : (withScript rest s).armedUntil d := ⟨armed.deadline, armed.tstate⟩
    exact ih script tail others ((step_effect hs first).armedUntil head armed')

/-- `TMR.START d` arms the timer with the deadline `NOW + d` (R172). -/
theorem tmrStart_armedUntil {s : State} (hnow : s.now.toNat < timeBound) (d : Word) :
    (completed (armTimer d (recordDuration d s))).armedUntil (s.now.toNat + d.toNat) := by
  have hnow' : (recordDuration d s).now.toNat < timeBound := hnow
  have zero : d = 0 ↔ s.now.toNat + d.toNat ≤ s.now.toNat := by
    rw [← BitVec.toNat_inj]
    simp
  refine ⟨armTimer_deadline_toNat hnow' d, ?_⟩
  rw [completed_tstate, armTimer_tstate_bound hnow', completed_now, armTimer_now, recordDuration_now]
  exact if_congr zero rfl rfl

/-- Settles O26: the start arms the timer with the deadline `t0 + d`, every event of the run keeps it so armed, and a poll tells
whether it has expired. -/
theorem expiryIsStickyAndExact : Obligations.ExpiryIsStickyAndExact := by
  unfold Obligations.ExpiryIsStickyAndExact
  intro s t d evs hc hb hnow hs leave run
  have start : step s = .next (completed (armTimer d (recordDuration d (withScript evs s)))) :=
    (step_exec hc hb hs (decode_encode (.tmrStart d))).trans (exec_tmrStart d _)
  rw [run_next start] at run
  have script : (completed (armTimer d (recordDuration d (withScript evs s)))).script = evs := by
    rw [completed_script, armTimer_script, recordDuration_script, withScript_script]
  obtain ⟨-, tstate⟩ := run_armedUntil evs script leave run (tmrStart_armedUntil (s := withScript evs s) hnow d)
  rw [withScript_now] at tstate
  rw [exec_tmrPoll, recordPoll, completed, tstate]
  by_cases reached : s.now.toNat + d.toNat ≤ t.now.toNat <;> simp [reached]

/-! ### The sticky bits of `ESR` -/

/-- `ESR` with bits set, none of them a reserved one (R33). -/
def State.esrRaised (s t : State) : Prop := ∃ m : Word, m &&& ~~~ esrBits = 0 ∧ t.esr = s.esr ||| m

theorem esrRaised_of_eq {s t : State} (same : t.esr = s.esr) : s.esrRaised t :=
  ⟨0, BitVec.zero_and, by rw [same]; exact BitVec.or_zero.symm⟩

theorem esrRaised_raised (c : CompletionCode) (s : State) : s.esrRaised (raised c s) :=
  ⟨c.esrMask, by cases c <;> decide, rfl⟩

/-- Setting bits keeps every set bit, and leaves the reserved bits when none of those set is one (R33). -/
theorem esrRaised_sticky {s t : State} (h : s.esrRaised t) :
    s.esr &&& t.esr = s.esr ∧ t.esr &&& ~~~ esrBits = s.esr &&& ~~~ esrBits := by
  obtain ⟨m, exist, esr⟩ := h
  rw [esr]
  constructor
  · ext k hk
    simpa using Or.inl
  · rw [BitVec.and_or_distrib_right, exist]
    exact BitVec.or_zero

/-- Every command but `SYS.RESET` only sets bits of `ESR` that exist: an error's, or an event bit of `RSM.RX`. -/
theorem esrRaised_commandOutcome {s : State} {i : Instr} (notReset : i ≠ .sysReset) : s.esrRaised (commandOutcome s i) := by
  rw [commandOutcome]
  split
  · cases i with
    | rsmRx =>
      refine ⟨(classifyAndApply s).1.esrMask, by cases (classifyAndApply s).1 <;> decide, ?_⟩
      simp [commandEffect]
    | sysReset => exact absurd rfl notReset
    | _ => exact esrRaised_of_eq (by simp [commandEffect])
  · exact esrRaised_raised _ s

/-- The one value of 40 bits that is the word of a command. -/
theorem eq_encode_toNat {v : Nat} {i : Instr} (fits : v < 2 ^ 40) (decoded : decode (BitVec.ofNat 40 v) = .ok i) :
    v = (encode i).toNat := by
  rw [← decode_eq_ok_iff.1 decoded, BitVec.toNat_ofNat, Nat.mod_eq_of_lt fits]

/-- Every event but the two resets only sets bits of `ESR` that exist (R33). -/
theorem EventEffect.esrRaised {s t : State} {e : Event} (h : EventEffect s e t) (notHardware : e ≠ .hardwareReset)
    (notCommand : e ≠ .writeReg 0x00D 0xFF00000000) : s.esrRaised t := by
  cases h with
  | command r v i number fits decoded =>
    refine esrRaised_commandOutcome ?_
    rintro rfl
    obtain rfl : r = 0x00D := BitVec.eq_of_toNat_eq number
    exact notCommand (congrArg _ (eq_encode_toNat fits decoded))
  | illegal => exact esrRaised_raised _ s
  | stored =>
    rw [storeReg_frame]
    exact esrRaised_of_eq rfl
  | writeByte =>
    rw [hostWriteByte_frame]
    exact esrRaised_of_eq rfl
  | tick => exact esrRaised_of_eq (by rw [evalExpiry_esr, advanceNow_esr])
  | ignored | readReg | readByte => exact esrRaised_of_eq rfl
  | hardwareReset => exact absurd rfl notHardware

/-- Settles O45: every event but the two resets only sets bits that exist. -/
theorem esrBitsAreStickyUntilReset : Obligations.EsrBitsAreStickyUntilReset := by
  unfold Obligations.EsrBitsAreStickyUntilReset
  intro s t e rest hs h notHardware notCommand
  exact esrRaised_sticky ((step_effect hs h).esrRaised notHardware notCommand)

end Sys2Proof.Machine
end

section
/-! PROOFS. The merging loop (R203) and `RSM.RX` (R195 to R208). -/

namespace Sys2Proof.Machine

/-! ### The merging loop -/

theorem not_pending_of_pendCnt {s : State} (h : s.pendCnt = 0) (off : Word) : ¬ s.pending off := by
  rintro ⟨t, ht, valid, -⟩
  exact List.countP_eq_zero.1 h t ht valid

/-- Run with as many rounds as there are valid slots, the bounded loop is R203's loop run to its end. -/
theorem mergeRun_merge (k : Nat) (fin : Bool) (s : State) (enough : s.pendCnt ≤ k) :
    MergeRun fin s (merge k fin s).1 (merge k fin s).2 := by
  induction k generalizing fin s with
  | zero =>
    cases fin with
    | true => exact .atFin s
    | false => exact .atGap s (not_pending_of_pendCnt (Nat.le_zero.1 enough) _)
  | succ k ih =>
    cases fin with
    | true => exact .atFin s
    | false =>
      cases found : pendingAt s.expected s.slots with
      | none =>
        have gap : ¬ s.pending s.expected := (pendingAt_none _ _).1 found
        rw [merge_gap _ gap]
        exact .atGap s gap
      | some i =>
        obtain ⟨u, hu, valid, off⟩ := pendingAt_some found
        have fewer := mergeSlot_pendCnt hu valid
        have run := ih u.fin (mergeSlot i s) (by omega)
        rw [merge_round k found, slot_of_getElem? hu]
        rw [mergeSlot_eq hu] at run ⊢
        exact .round s _ i u _ hu valid off run

/-- Of slots with distinct offsets the one found at an offset is the only one there (R43 (a)). -/
theorem pendingAt_of_distinct {slots : List Slot} (distinct : distinctOffsets slots) {i : Nat} {u : Slot}
    (hu : slots[i]? = some u) (valid : u.v = true) : pendingAt u.off slots = some i := by
  cases found : pendingAt u.off slots with
  | none => exact absurd ⟨u, List.mem_of_getElem? hu, valid, rfl⟩ ((pendingAt_none _ _).1 found)
  | some j =>
    obtain ⟨w, hw, validW, off⟩ := pendingAt_some found
    obtain ⟨hi, rfl⟩ := List.getElem?_eq_some_iff.1 hu
    obtain ⟨hj, rfl⟩ := List.getElem?_eq_some_iff.1 hw
    have apart := List.pairwise_iff_getElem.1 distinct
    rcases Nat.lt_trichotomy i j with lt | rfl | gt
    · exact absurd off.symm (apart i j hi hj lt valid validW)
    · rfl
    · exact absurd off (apart j i hj hi gt validW valid)

/-- When no two valid slots have one offset, R203's loop ends where the bounded loop does. -/
theorem merge_of_mergeRun {fin f : Bool} {s t : State} (run : MergeRun fin s f t) (distinct : distinctOffsets s.slots) (k : Nat)
    (enough : s.pendCnt ≤ k) : merge k fin s = (f, t) := by
  induction run generalizing k with
  | atFin s => exact merge_fin k s
  | atGap s gap => exact merge_gap k gap
  | round s t i u f hu valid off _ ih =>
    have fewer := mergeSlot_pendCnt hu valid
    have found : pendingAt s.expected s.slots = some i := off ▸ pendingAt_of_distinct distinct hu valid
    obtain ⟨k, rfl⟩ := Nat.exists_eq_add_one_of_ne_zero (n := k) (by omega)
    rw [← mergeSlot_eq hu] at ih
    rw [merge_round k found, slot_of_getElem? hu]
    exact ih (distinctOffsets_set_free distinct i rfl) k (by omega)

/-- Settles O37: every round frees a valid slot, so that the rounds are enough; with distinct offsets every round has one slot
to take. -/
theorem mergeRunsItsLoopToTheEnd : Obligations.MergeRunsItsLoopToTheEnd := by
  unfold Obligations.MergeRunsItsLoopToTheEnd
  refine ⟨fun s fin => mergeRun_merge _ fin s (pendCnt_le_length s), fun s t fin f distinct run => ?_⟩
  have ended := merge_of_mergeRun run distinct _ (pendCnt_le_length s)
  rw [ended]
  exact ⟨rfl, rfl⟩

/-! ### What `RSM.RX` leaves, outcome by outcome -/

/-- The segment decoded and checked, before anything is done with it (R196). -/
def rxSegment (s : State) : State := checkSegment (decodeFrame s)

/-- What `RSM.RX` leaves with a stream opened (R195). -/
def rxOutcome (s : State) : State := completed (finishRx (classifyAndApply s))

/-- A stream that is opened and not completed is active (R44). -/
theorem active_of_opened {r : ReasmState} (opened : r ≠ .idle) (notDone : r ≠ .done) : r = .active := by
  cases r with
  | idle => exact absurd rfl opened
  | active => rfl
  | done => exact absurd rfl notDone

theorem exec_rsmRx_opened {s : State} (opened : s.rstate ≠ .idle) : exec .rsmRx s = .next (rxOutcome s) := exec_rsmRx opened

section
variable (s : State)

theorem rxOutcome_rxres : (rxOutcome s).rxres = (classifyAndApply s).1 := by
  rw [rxOutcome, completed_rxres, finishRx_rxres]

theorem rxOutcome_esr : (rxOutcome s).esr = s.esr ||| (classifyAndApply s).1.esrMask := by
  rw [rxOutcome, completed_esr, finishRx_esr, classifyAndApply_esr]

theorem rxOutcome_seg : (rxOutcome s).seg = (classifyAndApply s).2.seg := by
  rw [rxOutcome, completed_seg, finishRx_seg]

theorem rxOutcome_segPlen : (rxOutcome s).segPlen = (classifyAndApply s).2.segPlen := by
  rw [rxOutcome, completed_segPlen, finishRx_segPlen]

theorem rxOutcome_pay : (rxOutcome s).pay = (classifyAndApply s).2.pay := by
  rw [rxOutcome, completed_pay, finishRx_pay]

theorem rxOutcome_payByte (k : Nat) : (rxOutcome s).payByte k = (classifyAndApply s).2.payByte k := by
  rw [rxOutcome, completed_payByte, finishRx_payByte]

theorem rxOutcome_csumCalc : (rxOutcome s).csumCalc = (classifyAndApply s).2.csumCalc := by
  rw [rxOutcome, completed_csumCalc, finishRx_csumCalc]

theorem rxOutcome_ckok : (rxOutcome s).ckok = (classifyAndApply s).2.ckok := by
  rw [rxOutcome, completed_ckok, finishRx_ckok]

theorem rxOutcome_rstate : (rxOutcome s).rstate = (classifyAndApply s).2.rstate := by
  rw [rxOutcome, completed_rstate, finishRx_rstate]

theorem rxOutcome_expected : (rxOutcome s).expected = (classifyAndApply s).2.expected := by
  rw [rxOutcome, completed_expected, finishRx_expected]

theorem rxOutcome_slots : (rxOutcome s).slots = (classifyAndApply s).2.slots := by
  rw [rxOutcome, completed_slots, finishRx_slots]

theorem rxOutcome_slotByte (j k : Nat) : (rxOutcome s).slotByte j k = (classifyAndApply s).2.slotByte j k := by
  rw [rxOutcome, completed_slotByte, finishRx_slotByte]

theorem rxOutcome_out : (rxOutcome s).out = (classifyAndApply s).2.out := by
  rw [rxOutcome, completed_out, finishRx_out]

theorem rxOutcome_outlen : (rxOutcome s).outlen = (classifyAndApply s).2.outlen := by
  rw [rxOutcome, completed_outlen, finishRx_outlen]

theorem rxOutcome_ackf : (rxOutcome s).ackf = (classifyAndApply s).2.ackFrame := by
  rw [rxOutcome, completed_ackf, finishRx_ackf]

end

section
variable {s : State}

theorem classify_illegal (illegal : ¬ s.rxLegal) : classifyAndApply s = (.badFrame, s) := classify_badFrame illegal

theorem classify_wrongChecksum (legal : s.rxLegal) (invalid : ¬ s.rxValid) : classifyAndApply s = (.badCsum, rxSegment s) :=
  classify_badCsum legal fun equal => invalid ⟨legal, equal⟩

variable (valid : s.rxValid)
include valid

theorem classify_done (done : s.rstate = .done) : classifyAndApply s = (.afterDone, rxSegment s) :=
  classify_afterDone valid done

variable (active : s.rstate = .active)
include active

theorem classify_active : classifyAndApply s = applySegment (rxSegment s) :=
  classify_apply valid (by rw [active]; decide)

theorem classify_stale (before : lt32 s.rxHeader.seqNum s.expected = true) :
    classifyAndApply s = (.stale, rxSegment s) :=
  (classify_active valid active).trans (apply_stale (s := rxSegment s) before)

theorem classify_inOrder (inOrder : s.rxHeader.seqNum = s.expected) :
    classifyAndApply s = accept (s.flen.toNat - 18) (rxSegment s).segFin (rxSegment s) := by
  have plen : (rxSegment s).segPlen.toNat = s.flen.toNat - 18 := rxSegment_segPlen_toNat s
  rw [classify_active valid active, apply_inOrder (s := rxSegment s) inOrder, plen]

variable (after : gt32 s.rxHeader.seqNum s.expected = true)
include after

theorem classify_outOfOrder :
    classifyAndApply s = bufferSegment s.rxHeader.seqNum (s.flen.toNat - 18) (rxSegment s).segFin (rxSegment s) := by
  have plen : (rxSegment s).segPlen.toNat = s.flen.toNat - 18 := rxSegment_segPlen_toNat s
  rw [classify_active valid active, apply_outOfOrder (s := rxSegment s) after, plen]
  rfl

theorem classify_pending (pending : s.pending s.rxHeader.seqNum) : classifyAndApply s = (.dupPending, rxSegment s) :=
  (classify_outOfOrder valid active after).trans (buffer_dup (s := rxSegment s) _ _ pending)

variable (new : ¬ s.pending s.rxHeader.seqNum)
include new

theorem classify_full (full : ¬ s.hasFreeSlot) : classifyAndApply s = (.noSlot, rxSegment s) :=
  (classify_outOfOrder valid active after).trans (buffer_noSlot (s := rxSegment s) _ _ new full)

theorem classify_buffered {i : Nat} (free : firstFree s.slots = some i) :
    classifyAndApply s = (.buffered,
      storeSlot i s.rxHeader.seqNum (s.flen.toNat - 18) (rxSegment s).segFin (rxSegment s)) :=
  (classify_outOfOrder valid active after).trans (buffer_store (s := rxSegment s) _ _ new free)

end

/-- The order of the tests (R195, R238): a frame of an illegal length is not decoded; one that is dropped for its checksum or
after completion leaves no more than the decoded segment; any other is applied. -/
theorem classify_cases (s : State) :
    (¬ s.rxLegal ∧ classifyAndApply s = (.badFrame, s)) ∨
      (s.rxLegal ∧ (¬ s.rxValid ∨ s.rstate = .done) ∧ ∃ r, classifyAndApply s = (r, rxSegment s)) ∨
      (s.rxValid ∧ s.rstate ≠ .done ∧ classifyAndApply s = applySegment (rxSegment s)) := by
  by_cases legal : s.rxLegal
  · by_cases valid : s.rxValid
    · by_cases done : s.rstate = .done
      · exact .inr (.inl ⟨legal, .inr done, _, classify_done valid done⟩)
      · exact .inr (.inr ⟨valid, done, classify_apply valid done⟩)
    · exact .inr (.inl ⟨legal, .inl valid, _, classify_wrongChecksum legal valid⟩)
  · exact .inl ⟨legal, classify_illegal legal⟩

/-- What a valid segment meets in an open stream: it is stale, in order, or out of order (R195, R201, R202, R205). -/
theorem applySegment_cases (s : State) :
    applySegment s = (.stale, s) ∨ applySegment s = accept s.segPlen.toNat s.segFin s ∨
      (gt32 s.seg.seqNum s.expected = true ∧
        applySegment s = bufferSegment s.seg.seqNum s.segPlen.toNat s.segFin s) := by
  obtain ⟨before, -, -⟩ | ⟨-, same, -⟩ | ⟨-, -, after⟩ := compare32_trichotomy s.seg.seqNum s.expected
  · exact .inl (apply_stale before)
  · exact .inr (.inl (apply_inOrder ((eq32_iff _ _).1 same)))
  · exact .inr (.inr ⟨after, apply_outOfOrder after⟩)

theorem accept_result (n : Nat) (fin : Bool) (s : State) :
    (accept n fin s).1 = .accepted ∨ (accept n fin s).1 = .acceptedFin := by
  simp only [accept]
  split
  · exact .inr rfl
  · exact .inl rfl

/-- The outcome and its event bit, from the outcome that the tests give. -/
theorem rxOutcome_of_classify {s u : State} {r : RxResult} (classified : classifyAndApply s = (r, u)) :
    (rxOutcome s).rxres = r ∧ (rxOutcome s).esr = s.esr ||| r.esrMask := by
  rw [rxOutcome_rxres, rxOutcome_esr, classified]
  exact ⟨rfl, rfl⟩

/-- The outcome and `ESR`, from an outcome without an event bit. -/
theorem rxOutcome_of_classify_silent {s u : State} {r : RxResult} (classified : classifyAndApply s = (r, u))
    (silent : r.esrMask = 0) : (rxOutcome s).rxres = r ∧ (rxOutcome s).esr = s.esr := by
  obtain ⟨rxres, esr⟩ := rxOutcome_of_classify classified
  rw [silent] at esr
  exact ⟨rxres, esr.trans BitVec.or_zero⟩

/-- Settles O31: each test's outcome, once the tests before it have passed. -/
theorem rsmRxOutcomeFollowsTheOrderOfTests : Obligations.RsmRxOutcomeFollowsTheOrderOfTests := by
  unfold Obligations.RsmRxOutcomeFollowsTheOrderOfTests
  refine fun s opened => ⟨_, exec_rsmRx_opened opened,
    fun illegal => rxOutcome_of_classify (classify_illegal illegal),
    fun legal invalid => rxOutcome_of_classify (classify_wrongChecksum legal invalid),
    fun valid done => rxOutcome_of_classify_silent (classify_done valid done) rfl,
    fun valid active before => rxOutcome_of_classify_silent (classify_stale valid active before) rfl,
    fun valid active inOrder => ?inOrder,
    fun valid active after pending => rxOutcome_of_classify_silent (classify_pending valid active after pending) rfl,
    fun valid active after new full => rxOutcome_of_classify (classify_full valid active after new full),
    fun valid active after new free => ?buffered⟩
  case inOrder =>
    rw [rxOutcome_rxres, rxOutcome_esr, classify_inOrder valid active inOrder]
    obtain result | result := accept_result (s.flen.toNat - 18) (rxSegment s).segFin (rxSegment s)
    · exact ⟨.inl result, by rw [result]; exact BitVec.or_zero⟩
    · exact ⟨.inr result, by rw [result]; exact BitVec.or_zero⟩
  case buffered =>
    cases found : firstFree s.slots with
    | none => exact absurd free ((firstFree_none _).1 found)
    | some i => exact rxOutcome_of_classify_silent (classify_buffered valid active after new found) rfl

/-! ### The segment that `RSM.RX` leaves -/

/-- What applying a segment does not change stands after `RSM.RX` as decoding and checking left it (R196). -/
theorem classify_segment {α : Type} (f : State → α) (kept : ∀ u, f (applySegment u).2 = f u) {s : State} (legal : s.rxLegal) :
    f (classifyAndApply s).2 = f (rxSegment s) := by
  obtain ⟨illegal, -⟩ | ⟨-, -, r, dropped⟩ | ⟨-, -, applied⟩ := classify_cases s
  · exact absurd legal illegal
  · rw [dropped]
  · rw [applied, kept]

theorem applySegment_payByte (s : State) (k : Nat) : (applySegment s).2.payByte k = s.payByte k := by
  rw [State.payByte, applySegment_ramDraw, applySegment_pay, ← State.payByte]

/-- Settles O30: with a legal length the segment stands as decoded and checked, whatever is done with it; with an illegal one
nothing is decoded. -/
theorem rsmRxLeavesTheDecodedSegment : Obligations.RsmRxLeavesTheDecodedSegment := by
  unfold Obligations.RsmRxLeavesTheDecodedSegment
  refine fun s opened => ⟨fun legal => ⟨_, exec_rsmRx_opened opened, rfl, ?decoded⟩,
    fun illegal => ⟨_, exec_rsmRx_opened opened, rfl, ?kept⟩⟩
  case decoded =>
    rw [rxOutcome_seg, rxOutcome_segPlen, rxOutcome_csumCalc, rxOutcome_ckok, classify_segment State.seg applySegment_seg legal,
      classify_segment State.segPlen applySegment_segPlen legal, classify_segment State.csumCalc applySegment_csumCalc legal,
      classify_segment State.ckok applySegment_ckok legal]
    simp only [rxOutcome_payByte, classify_segment (State.payByte · _) (applySegment_payByte · _) legal]
    exact ⟨rxSegment_seg s, rxSegment_segPlen_toNat s, fun k hk => (rxSegment_payByte s k).trans (if_pos hk),
      fun k hk => (rxSegment_payByte s k).trans (if_neg (Nat.not_lt.2 hk)), rxSegment_csumCalc s, rxSegment_ckok s⟩
  case kept =>
    rw [rxOutcome_rxres, rxOutcome_seg, rxOutcome_segPlen, rxOutcome_pay, rxOutcome_csumCalc, rxOutcome_ckok,
      classify_illegal illegal]
    exact ⟨rfl, rfl, rfl, rfl, rfl, rfl⟩

/-! ### Dropped frames -/

/-- The stream: `EXPECTED`, the slots, `OUT`, `OUTLEN` and `RSTATE`. -/
structure State.sameStream (s t : State) : Prop where
  expected : t.expected = s.expected
  slots : t.slots = s.slots
  out : t.out = s.out
  outlen : t.outlen = s.outlen
  rstate : t.rstate = s.rstate

theorem rxSegment_sameStream (s : State) : s.sameStream (rxSegment s) := ⟨rfl, rfl, rfl, rfl, rfl⟩

/-- A frame that fails a test leaves the stream (R198, R201, R205, R207). -/
theorem classify_sameStream_of_dropped {s : State} (opened : s.rstate ≠ .idle)
    (dropped : ¬ s.rxValid ∨ s.rstate = .done ∨ lt32 s.rxHeader.seqNum s.expected = true ∨
      (gt32 s.rxHeader.seqNum s.expected = true ∧ (s.pending s.rxHeader.seqNum ∨ ¬ s.hasFreeSlot))) :
    s.sameStream (classifyAndApply s).2 := by
  have decoded {r : RxResult} (classified : classifyAndApply s = (r, rxSegment s)) : s.sameStream (classifyAndApply s).2 := by
    rw [classified]
    exact rxSegment_sameStream s
  obtain ⟨-, undecoded⟩ | ⟨-, -, r, classified⟩ | ⟨valid, notDone, -⟩ := classify_cases s
  · rw [undecoded]
    exact ⟨rfl, rfl, rfl, rfl, rfl⟩
  · exact decoded classified
  · have active : s.rstate = .active := active_of_opened opened notDone
    obtain invalid | done | before | ⟨after, pendingOrFull⟩ := dropped
    · exact absurd valid invalid
    · exact absurd done notDone
    · exact decoded (classify_stale valid active before)
    · by_cases pending : s.pending s.rxHeader.seqNum
      · exact decoded (classify_pending valid active after pending)
      · exact decoded (classify_full valid active after pending (pendingOrFull.resolve_left pending))

/-- Settles O32: whichever test the frame fails, the stream is not written. -/
theorem droppedFrameLeavesTheStream : Obligations.DroppedFrameLeavesTheStream := by
  unfold Obligations.DroppedFrameLeavesTheStream
  intro s opened dropped
  obtain ⟨expected, slots, out, outlen, rstate⟩ := classify_sameStream_of_dropped opened dropped
  refine ⟨_, exec_rsmRx_opened opened, rfl, ?_⟩
  rw [rxOutcome_expected, rxOutcome_slots, rxOutcome_out, rxOutcome_outlen, rxOutcome_rstate]
  exact ⟨expected, slots, out, outlen, rstate⟩

end Sys2Proof.Machine
end

section
/-! PROOFS. What `RSM.RX` does to the stream, the slots and `ACKF` (R202 to R213). -/

namespace Sys2Proof.Machine

/-! ### The in-order segment (R202, R203, R204, R206) -/

/-- The stream with the payload of the in-order segment appended, where the merging loop begins (R202). -/
def rxAppended (s : State) : State := appendOut ((rxSegment s).payBytes (s.flen.toNat - 18)) (rxSegment s)

/-- The merging loop over the slots after an in-order segment (R203). -/
def rxMerged (s : State) : Bool × State := merge s.slots.length (rxSegment s).segFin (rxAppended s)

theorem accept_eq (n : Nat) (fin : Bool) (s : State) :
    accept n fin s =
      if (merge s.slots.length fin (appendOut (s.payBytes n) s)).1 = true then
        (.acceptedFin, closeStream (merge s.slots.length fin (appendOut (s.payBytes n) s)).2)
      else (.accepted, collectStale (merge s.slots.length fin (appendOut (s.payBytes n) s)).2) := rfl

section
variable {s : State} (valid : s.rxValid) (active : s.rstate = .active) (inOrder : s.rxHeader.seqNum = s.expected)
include valid active inOrder

theorem classify_accepted :
    classifyAndApply s =
      if (rxMerged s).1 = true then (.acceptedFin, closeStream (rxMerged s).2)
      else (.accepted, collectStale (rxMerged s).2) := by
  rw [classify_inOrder valid active inOrder, accept_eq]
  rfl

end

theorem rxAppended_eq (s : State) :
    (rxAppended s).slots = s.slots ∧ (rxAppended s).ramDraw = s.ramDraw ∧
      (rxAppended s).out = s.out ++ (List.range (s.flen.toNat - 18)).map (fun k => s.frmByte (18 + k)) ∧
      (rxAppended s).outlen = s.outlen + BitVec.ofNat 64 (s.flen.toNat - 18) ∧
      (rxAppended s).expected = add32 s.expected (s.flen.toNat - 18) := by
  rw [rxAppended, rxSegment, rxSegment_payBytes]
  simp

/-- The bounded merge after an in-order segment is R203's loop, begun with the segment's FIN and run to its end. -/
theorem mergeRun_rxMerged (s : State) :
    MergeRun (decide (s.rxHeader.flags &&& s.cfg.flagFin ≠ 0)) (rxAppended s) (rxMerged s).1 (rxMerged s).2 := by
  have run := mergeRun_merge s.slots.length (rxSegment s).segFin (rxAppended s) (pendCnt_le_length (rxAppended s))
  rw [← rxMerged] at run
  rwa [rxSegment, rxSegment_segFin] at run

theorem rxMerged_rstate (s : State) : (rxMerged s).2.rstate = s.rstate := by
  rw [rxMerged, merge_rstate]
  rfl

/-- What `collect_stale` leaves of the slots (R206). -/
theorem collectStale_slots_eq (s : State) :
    (collectStale s).slots = s.slots.map fun a =>
      if a.v = true ∧ lt32 a.off s.expected = true then { a with v := false, fin := false, off := 0, len := 0 } else a := by
  simp only [collectStale_slots, Bool.and_eq_true, Slot.freed]

/-- Settles O33: the payload is appended, the bounded merge is R203's loop run to its end, and the stream is completed or its
stale entries are freed. -/
theorem inOrderSegmentIsAcceptedAndMerged : Obligations.InOrderSegmentIsAcceptedAndMerged := by
  unfold Obligations.InOrderSegmentIsAcceptedAndMerged
  intro s active valid inOrder
  have opened : s.rstate ≠ .idle := by rw [active]; decide
  refine ⟨rxAppended s, (rxMerged s).2, rxOutcome s, (rxMerged s).1, exec_rsmRx_opened opened, rfl, rxAppended_eq s,
    mergeRun_rxMerged s, ?_⟩
  simp only [rxOutcome_out, rxOutcome_outlen, rxOutcome_expected, rxOutcome_rstate, rxOutcome_rxres, rxOutcome_slots,
    classify_accepted valid active inOrder]
  cases fin : (rxMerged s).1 with
  | true =>
    rw [if_pos rfl, closeStream_slots, freed_eq]
    exact ⟨⟨rfl, rfl, rfl⟩, fun _ => ⟨rfl, rfl, rfl⟩, nofun⟩
  | false =>
    rw [if_neg (by decide), collectStale_slots_eq, collectStale_rstate, rxMerged_rstate]
    exact ⟨⟨rfl, rfl, rfl⟩, nofun, fun _ => ⟨active, rfl, rfl⟩⟩

/-! ### The out-of-order segment (R205) -/

/-- The received segment stored in slot `i` (R205). -/
def rxStored (s : State) (i : Nat) : State :=
  storeSlot i s.rxHeader.seqNum (s.flen.toNat - 18) (rxSegment s).segFin (rxSegment s)

/-- What slot `i` holds when the received segment is stored in it in place of `u` (R205). -/
def rxSlot (s : State) (u : Slot) : Slot :=
  fillSlot s.rxHeader.seqNum (s.flen.toNat - 18) (rxSegment s).segFin ((rxSegment s).payBytes (s.flen.toNat - 18)) u

section
variable {s : State} {i : Nat} {u : Slot} (hu : s.slots[i]? = some u)
include hu

theorem rxStored_slots : (rxStored s i).slots = s.slots.set i (rxSlot s u) := by
  have slot : (rxSegment s).slot i = u := slot_of_getElem? hu
  rw [rxStored, storeSlot_slots, slot]
  rfl

theorem rxStored_slot (j : Nat) : (rxStored s i).slot j = if i = j then rxSlot s u else s.slot j := by
  obtain ⟨hi, -⟩ := List.getElem?_eq_some_iff.1 hu
  rw [slot_set s.slots i j (rxSlot s u) s (rxStored s i) rfl (rxStored_slots hu)]
  simp only [hi, and_true]

/-- The stored payload, and the bytes of `DATA` beyond it (R205). -/
theorem rxStored_slotByte_self (k : Nat) :
    (rxStored s i).slotByte i k = if k < s.flen.toNat - 18 then s.frmByte (18 + k) else s.slotByte i k := by
  have data : ((rxStored s i).slot i).data =
      (s.slot i).data.writeBytes 0 ((List.range (s.flen.toNat - 18)).map fun k => s.frmByte (18 + k)) := by
    rw [rxStored_slot hu, if_pos rfl, slot_of_getElem? hu, rxSlot, rxSegment, rxSegment_payBytes]
    rfl
  have draw : (rxStored s i).ramDraw = s.ramDraw := rfl
  rw [State.slotByte, data, draw, ramByte_writeBytes, List.length_map, List.length_range]
  by_cases payload : k < s.flen.toNat - 18
  · rw [if_pos payload, if_pos ⟨Nat.zero_le k, by omega⟩]
    simp [payload]
  · rw [if_neg payload, if_neg (by omega), State.slotByte]

theorem rxStored_slotByte_other {j : Nat} (other : j ≠ i) (k : Nat) : (rxStored s i).slotByte j k = s.slotByte j k := by
  refine slotByte_congr (t := rxStored s i) (s := s) rfl ?_ k
  rw [rxStored_slot hu, if_neg (Ne.symm other)]

end

theorem rxStored_sameStream (s : State) (i : Nat) : (rxStored s i).expected = s.expected ∧ (rxStored s i).out = s.out ∧
    (rxStored s i).outlen = s.outlen ∧ (rxStored s i).rstate = s.rstate := ⟨rfl, rfl, rfl, rfl⟩

/-- A payload length fits the register `SLOT[i].LEN` (R22, R42). -/
theorem rxSlot_len_toNat (s : State) (u : Slot) : (rxSlot s u).len.toNat = s.flen.toNat - 18 := by
  have := s.flen.isLt
  rw [rxSlot, fillSlot, BitVec.toNat_ofNat]
  omega

/-- Settles O34: the least free slot is the one found, and only its fields and the payload's bytes of its `DATA` are written. -/
theorem outOfOrderSegmentTakesTheLeastFreeSlot : Obligations.OutOfOrderSegmentTakesTheLeastFreeSlot := by
  unfold Obligations.OutOfOrderSegmentTakesTheLeastFreeSlot
  intro s i u active valid after new hu free least
  have opened : s.rstate ≠ .idle := by rw [active]; decide
  have found : firstFree s.slots = some i := firstFree_some.2 ⟨u, hu, free, least⟩
  have stored : classifyAndApply s = (.buffered, rxStored s i) := classify_buffered valid active after new found
  refine ⟨rxOutcome s, rxSlot s u, exec_rsmRx_opened opened, rfl, ?_⟩
  simp only [rxOutcome_rxres, rxOutcome_slots, rxOutcome_slotByte, rxOutcome_expected, rxOutcome_out, rxOutcome_outlen,
    rxOutcome_rstate, stored]
  refine ⟨trivial, rxStored_slots hu, rfl, rfl, rxSlot_len_toNat s u, rxSegment_segFin s, fun k hk => ?payload,
    fun k hk => ?beyond, fun j k other => rxStored_slotByte_other hu other k, rxStored_sameStream s i⟩
  case payload => rw [rxStored_slotByte_self hu, if_pos hk]
  case beyond => rw [rxStored_slotByte_self hu, if_neg (Nat.not_lt.2 hk)]

/-! ### The acknowledgement (R208) -/

/-- The acknowledgement's checksum is over its seven fields alone: it has no payload (R208). -/
theorem ackFrame_checksum (s : State) :
    checksum s.ackHeader [] = BitVec.ofNat 16 (0xFFFF - fold16 (s.acktSrcPort.toNat + s.acktDstPort.toNat + s.acktSeqNum.toNat +
      s.expected.toNat + s.acktHdrLen.toNat + s.cfg.flagAck.toNat + s.acktRecvWindow.toNat)) := by
  rw [checksum, sum16, complement16 (fold16_lt _), addends_sum]
  rfl

/-- Settles O35: the template is not written before the acknowledgement is built, and `EXPECTED` is not written after. -/
theorem acknowledgementCarriesExpected : Obligations.AcknowledgementCarriesExpected := by
  unfold Obligations.AcknowledgementCarriesExpected
  intro s opened
  refine ⟨_, exec_rsmRx_opened opened, rfl, ?_⟩
  rw [rxOutcome_ackf, rxOutcome_expected, State.ackFrame, ackFrame_checksum]
  simp only [Header.bytes, State.ackHeader, classifyAndApply_acktSrcPort, classifyAndApply_acktDstPort,
    classifyAndApply_acktSeqNum, classifyAndApply_acktHdrLen, classifyAndApply_acktRecvWindow, classifyAndApply_cfg]

/-! ### The stream moves over delivered bytes only (R210 to R212) -/

/-- A valid slot holds at most `MSS` bytes (R43 (c)). -/
theorem Slot.inv_len {mss : Nat} {t : Slot} (h : t.inv mss = true) (valid : t.v = true) : t.len.toNat ≤ mss := by
  simp only [Slot.inv, valid, if_true, Bool.and_eq_true, decide_eq_true_eq] at h
  exact h.2

/-- What one segment and all pending ones deliver at most is less than `2^31` bytes (R6, R210). -/
theorem delivered_lt {c : Config} (h : c.ok = true) : (c.pendSlots + 1) * c.mss < 2 ^ 31 := by
  obtain ⟨-, size, mss, -, slots⟩ := Config.ok_bounds h
  calc (c.pendSlots + 1) * c.mss ≤ 256 * 65535 := Nat.mul_le_mul (by omega) (by omega)
    _ < 2 ^ 31 := by decide

/-- Settles O36: with no stream opened nothing is appended; else the payload and what the merge delivers, which under the
invariant is too little to move an offset behind itself. -/
theorem expectedMovesOnlyOverDeliveredBytes : Obligations.ExpectedMovesOnlyOverDeliveredBytes := by
  unfold Obligations.ExpectedMovesOnlyOverDeliveredBytes
  intro s t executed
  by_cases idle : s.rstate = .idle
  · rw [exec_rsmRx_error idle] at executed
    cases executed
    exact ⟨[], by simp, by simp, by simp, fun _ => by simp⟩
  · rw [exec_rsmRx_opened idle] at executed
    cases executed
    obtain ⟨bs, out, expected, outlen, bound⟩ := classifyAndApply_stream s
    rw [← rxOutcome_out] at out
    rw [← rxOutcome_expected] at expected
    rw [← rxOutcome_outlen] at outlen
    refine ⟨bs, out, expected, outlen, fun inv => ?_⟩
    have few : bs.length ≤ (s.cfg.pendSlots + 1) * s.cfg.mss :=
      inv.slotCount ▸ bound fun u hu valid => Slot.inv_len (inv.slot u hu) valid
    have short : bs.length < 2 ^ 31 := few.trans_lt (delivered_lt inv.cfg)
    exact ⟨few, short, by rw [expected, lt32_add32 _ short]⟩

/-! ### The frame of `RSM.RX` -/

theorem rxSegment_slotByte (s : State) (j k : Nat) : (rxSegment s).slotByte j k = s.slotByte j k := by
  rw [rxSegment, checkSegment_slotByte, decodeFrame_slotByte]

/-- Unless the segment is stored in a slot, no byte of the slot file changes (R193, R205). -/
theorem applySegment_slotByte {s : State} (notStored : (applySegment s).1 ≠ .buffered) (j k : Nat) :
    (applySegment s).2.slotByte j k = s.slotByte j k := by
  obtain stale | inOrder | ⟨-, outOfOrder⟩ := applySegment_cases s
  · rw [stale]
  · rw [inOrder, accept_slotByte]
  · rw [outOfOrder] at notStored ⊢
    simp only [bufferSegment] at notStored ⊢
    split
    · rfl
    · split
      next => rfl
      next new _ i free =>
        rw [new, free] at notStored
        exact absurd rfl notStored

theorem classify_slotByte {s : State} (notStored : (classifyAndApply s).1 ≠ .buffered) (j k : Nat) :
    (classifyAndApply s).2.slotByte j k = s.slotByte j k := by
  obtain ⟨-, undecoded⟩ | ⟨-, -, r, dropped⟩ | ⟨-, -, applied⟩ := classify_cases s
  · rw [undecoded]
  · rw [dropped, rxSegment_slotByte]
  · rw [applied] at notStored ⊢
    rw [applySegment_slotByte notStored, rxSegment_slotByte]

/-- What `RSM.RX` writes: the segment, the outcome, the stream and `ACKF` (R195). -/
theorem rxOutcome_frame (s : State) : rxOutcome s = { s with
    seg := (rxOutcome s).seg, segPlen := (rxOutcome s).segPlen, pay := (rxOutcome s).pay
    csumCalc := (rxOutcome s).csumCalc, ckok := (rxOutcome s).ckok
    cc := (rxOutcome s).cc, rxres := (rxOutcome s).rxres, esr := (rxOutcome s).esr
    rstate := (rxOutcome s).rstate, expected := (rxOutcome s).expected, slots := (rxOutcome s).slots
    out := (rxOutcome s).out, outlen := (rxOutcome s).outlen, ackf := (rxOutcome s).ackf } := by
  apply State.ext_fields <;> simp [rxOutcome]

/-- Settles O38: the fields that `RSM.RX` may write are those of the segment, the outcome and the stream, and `ACKF`. -/
theorem rsmRxLeavesEverythingElse : Obligations.RsmRxLeavesEverythingElse := by
  unfold Obligations.RsmRxLeavesEverythingElse
  intro s
  by_cases idle : s.rstate = .idle
  · exact ⟨_, exec_rsmRx_error idle, by rw [raised], rfl, fun _ _ _ => rfl⟩
  · refine ⟨_, exec_rsmRx_opened idle, rxOutcome_frame s, ?slotCount, fun notStored j k => ?slotByte⟩
    case slotCount => rw [rxOutcome_slots, classifyAndApply_slots_length]
    case slotByte => rw [rxOutcome_slotByte, classify_slotByte notStored]

end Sys2Proof.Machine
end

section
/-! PROOFS. What the host reads and writes (R21, R22, R30, R72, R79 to R84), and what the model refuses it (R21, R39,
R85, R290). -/

namespace Sys2Proof.Machine

/-! ### `STATUS` (R30) -/

theorem bit_le_one (b : Bool) : bit b ≤ 1 := by cases b <;> decide

theorem TimerState.code_le (t : TimerState) : t.code ≤ 2 := by cases t <;> decide

theorem ReasmState.code_le (r : ReasmState) : r.code ≤ 2 := by cases r <;> decide

theorem CompletionCode.code_le (c : CompletionCode) : c.code ≤ 5 := by cases c <;> decide

theorem RxResult.code_le (r : RxResult) : r.code ≤ 9 := by cases r <;> decide

/-- `STATUS` as a number: no field reaches the next one, so nothing is lost and each can be cut out (R30). -/
theorem statusWord_field (s : State) :
    s.statusWord.toNat / 2 ^ 0 % 2 = bit s.busy ∧ s.statusWord.toNat / 2 ^ 1 % 2 = bit s.ckok ∧
      s.statusWord.toNat / 2 ^ 2 % 2 = bit s.texp ∧ s.statusWord.toNat / 2 ^ 3 % 2 ^ 2 = s.tstate.code ∧
      s.statusWord.toNat / 2 ^ 5 % 2 ^ 2 = s.rstate.code ∧ s.statusWord.toNat / 2 ^ 7 % 2 = bit s.tdurv ∧
      s.statusWord.toNat / 2 ^ 8 % 2 ^ 8 = s.cc.code ∧ s.statusWord.toNat / 2 ^ 16 % 2 ^ 4 = s.rxres.code ∧
      s.statusWord.toNat / 2 ^ 20 % 2 = bit s.tpoll ∧ s.statusWord.toNat / 2 ^ 21 % 2 ^ 11 = 0 := by
  have busy := bit_le_one s.busy
  have ckok := bit_le_one s.ckok
  have texp := bit_le_one s.texp
  have tdurv := bit_le_one s.tdurv
  have tpoll := bit_le_one s.tpoll
  have tstate := s.tstate.code_le
  have rstate := s.rstate.code_le
  have cc := s.cc.code_le
  have rxres := s.rxres.code_le
  rw [State.statusWord, BitVec.toNat_ofNat]
  omega

theorem getLsbD_of_bit {w : Word} {k : Nat} {b : Bool} (h : w.toNat / 2 ^ k % 2 = bit b) : w.getLsbD k = b := by
  rw [BitVec.getLsbD, Nat.testBit_eq_decide_div_mod_eq, h]
  cases b <;> rfl

theorem toNat_extractField {w : Word} {k n c : Nat} (h : w.toNat / 2 ^ k % 2 ^ n = c) : (w.extractLsb' k n).toNat = c := by
  rw [BitVec.extractLsb'_toNat, Nat.shiftRight_eq_div_pow, h]

/-- Settles O47: each field is cut out of the number at its place, and its code is the table's. -/
theorem statusShowsItsFields : Obligations.StatusShowsItsFields := by
  unfold Obligations.StatusShowsItsFields
  intro s
  obtain ⟨busy, ckok, texp, tstate, rstate, tdurv, cc, rxres, tpoll, reserved⟩ := statusWord_field s
  refine ⟨getLsbD_of_bit busy, getLsbD_of_bit ckok, (getLsbD_of_bit texp).trans (beq_eq_decide _ _),
    (toNat_extractField tstate).trans ?_, (toNat_extractField rstate).trans ?_, getLsbD_of_bit tdurv,
    (toNat_extractField cc).trans ?_, (toNat_extractField rxres).trans ?_, getLsbD_of_bit tpoll,
    BitVec.eq_of_toNat_eq (toNat_extractField reserved), rfl⟩
  · cases s.tstate <;> rfl
  · cases s.rstate <;> rfl
  · cases s.cc <;> rfl
  · cases s.rxres <;> rfl

/-! ### Reading a register -/

theorem hostReadReg_some {s : State} {n : Nat} {r : Reg} (named : Reg.ofNumber s.cfg n = some r) :
    hostReadReg s n = s.readReg r := by
  rw [hostReadReg, named]

theorem hostReadReg_none {s : State} {n : Nat} (reserved : Reg.ofNumber s.cfg n = none) : hostReadReg s n = 0 := by
  rw [hostReadReg, reserved]

theorem readReg_withScript (rest : List Event) (s : State) (r : Reg) : (withScript rest s).readReg r = s.readReg r := by
  cases r <;> rfl

theorem hostReadReg_withScript (rest : List Event) (s : State) (n : Nat) :
    hostReadReg (withScript rest s) n = hostReadReg s n := by
  simp only [hostReadReg, readReg_withScript, withScript_cfg]

theorem Slot.ctl_lt (t : Slot) : t.ctl < 2 ^ 8 := by
  have v := bit_le_one t.v
  have fin := bit_le_one t.fin
  rw [Slot.ctl]
  omega

/-- A register's value has the register's width (R21): the count of the valid slots because there are at most 255 (R6). -/
theorem readReg_lt {s : State} (count : s.pendCnt < 2 ^ 8) (r : Reg) : s.readReg r < 2 ^ r.width := by
  cases r
  case cmd => exact Nat.two_pow_pos 40
  case pendcnt => exact count
  case slotCtl i => exact (s.slot i).ctl_lt
  all_goals exact BitVec.isLt _

/-- The registers of a slot that exists, as the host reads them (R22). -/
theorem hostReadReg_slot {s : State} {i : Nat} {u : Slot} (hi : i < s.cfg.pendSlots) (hu : s.slots[i]? = some u) :
    hostReadReg s (0x40 + 4 * i) = u.ctl ∧ hostReadReg s (0x41 + 4 * i) = u.off.toNat ∧
      hostReadReg s (0x42 + 4 * i) = u.len.toNat := by
  obtain ⟨ctl, off, len⟩ := Reg.ofNumber_slot hi
  rw [hostReadReg_some ctl, hostReadReg_some off, hostReadReg_some len, State.readReg, State.readReg, State.readReg,
    slot_of_getElem? hu]
  exact ⟨rfl, rfl, rfl⟩

/-- Settles O48: a named number's register is read at its width; `CMD` holds nothing, a reserved number names nothing. -/
theorem hostReadRegHandsBackTheValue : Obligations.HostReadRegHandsBackTheValue := by
  unfold Obligations.HostReadRegHandsBackTheValue
  refine ⟨fun s r rest hc hb count hs => ?handedBack, fun s => ?table⟩
  case handedBack =>
    have performed : step s = .next (handBack (hostReadReg (withScript rest s) r.toNat) (withScript rest s)) :=
      (step_event hc hs).trans (perform_readReg (s := withScript rest s) hb r)
    rw [hostReadReg_withScript] at performed
    have few : s.pendCnt < 2 ^ 8 := by
      have atMost := pendCnt_le_length s
      have bounds := Config.ok_bounds hc
      omega
    refine ⟨_, performed, rfl, fun reg named => ?_, hostReadReg_none, ?_⟩
    · rw [hostReadReg_some named]
      exact ⟨rfl, readReg_lt few reg⟩
    · rintro rfl
      rfl
  case table =>
    have pendCnt : hostReadReg s 0x1A = (s.slots.filter (fun u => u.v)).length := List.countP_eq_length_filter
    refine ⟨rfl, rfl, rfl, rfl, rfl, rfl, rfl, rfl, rfl, rfl, rfl, rfl, rfl, rfl, rfl, rfl, rfl, rfl, pendCnt, rfl, rfl, rfl,
      rfl, rfl, fun i u hi hu => ?slot, fun n h => ?zero⟩
    case slot =>
      obtain ⟨ctl, off, len⟩ := hostReadReg_slot hi hu
      refine ⟨ctl.trans ?_, off, len⟩
      rw [Slot.ctl, bit, bit]
      cases u.v <;> cases u.fin <;> rfl
    case zero =>
      by_cases isCmd : n = 0x0D
      · rw [isCmd]
        rfl
      · exact hostReadReg_none (Reg.ofNumber_reserved (by omega))

/-! ### Writing a register -/

/-- A stored value reads back (R82). -/
theorem readReg_storeReg_self {s : State} {v : Nat} {reg : Reg} (writable : reg.access = .rw) (fits : v < 2 ^ reg.width) :
    (s.storeReg v reg).readReg reg = v := by
  cases reg
  case segSrcPort | segDstPort | segSeqNum | segAckNum | segHdrLen | segFlags | segRecvWindow | segChecksum | segPlen | flen |
      acktSrcPort | acktDstPort | acktSeqNum | acktHdrLen | acktRecvWindow =>
    exact (BitVec.toNat_ofNat v _).trans (Nat.mod_eq_of_lt fits)
  all_goals cases writable

/-- A stored value changes no other register (R82). -/
theorem readReg_storeReg_other (s : State) (v : Nat) {reg other : Reg} (ne : other ≠ reg) :
    (s.storeReg v reg).readReg other = s.readReg other := by
  cases reg <;> cases other <;> first | rfl | exact absurd rfl ne

/-- A stored register changes no byte of a buffer (R82). -/
theorem storeReg_sameBytes (s : State) (v : Nat) (reg : Reg) : sameBytes s (s.storeReg v reg) := by
  rw [storeReg_frame]
  exact sameBytes_of_buffers_eq rfl rfl rfl rfl rfl rfl rfl rfl

theorem withScript_sameBytes (rest : List Event) (s : State) : sameBytes s (withScript rest s) :=
  sameBytes_of_buffers_eq rfl rfl rfl rfl rfl rfl rfl rfl

/-- A step whose next event writes a register other than `CMD`, with a value of its width, stores it (R82). -/
theorem step_storeReg {s : State} {r : BitVec 12} {v : Nat} {rest : List Event} {reg : Reg} (hc : s.cfg.ok = true)
    (hb : s.busy = false) (hs : s.script = .writeReg r v :: rest) (named : Reg.ofNumber s.cfg r.toNat = some reg)
    (fits : v < 2 ^ reg.width) (notCmd : reg ≠ .cmd) : step s = .next ((withScript rest s).storeReg v reg) := by
  rw [step_writeReg hc hb hs, hostWriteReg_some (s := withScript rest s) named fits notCmd]

/-- A stored register leaves what every other number reads as (R82). -/
theorem hostReadReg_storeReg_other {s : State} {n m v : Nat} {reg : Reg} (named : Reg.ofNumber s.cfg m = some reg)
    (ne : n ≠ m) : hostReadReg (s.storeReg v reg) n = hostReadReg s n := by
  have cfg : (s.storeReg v reg).cfg = s.cfg := (storeReg_samePlatform s v reg).cfg
  cases read : Reg.ofNumber s.cfg n with
  | none => rw [hostReadReg_none read, hostReadReg_none (cfg ▸ read)]
  | some other =>
    rw [hostReadReg_some read, hostReadReg_some (s := s.storeReg v reg) (cfg ▸ read), readReg_storeReg_other]
    rintro rfl
    exact ne ((Reg.number_of_ofNumber read).symm.trans (Reg.number_of_ofNumber named))

/-- Settles O49: a register of the table other than `CMD` is stored, and each of the fifteen numbers names its register. -/
theorem hostWriteRegStoresOneRegister : Obligations.HostWriteRegStoresOneRegister := by
  unfold Obligations.HostWriteRegStoresOneRegister
  refine ⟨fun s r reg v rest hc hb hs named writable fits => ?stored, fun s r v rest hc hb hs => ?table⟩
  case stored =>
    have notCmd : reg ≠ .cmd := by
      rintro rfl
      exact absurd writable (by decide)
    obtain ⟨cfg, -, script, hostReads, ramDraw⟩ := storeReg_samePlatform (withScript rest s) v reg
    refine ⟨_, step_storeReg hc hb hs named fits notCmd, ?_, fun n ne => ?_, fun b i => ?_, script, hostReads, ramDraw, cfg⟩
    · rw [hostReadReg_some (cfg ▸ named), readReg_storeReg_self writable fits]
    · rw [hostReadReg_storeReg_other (s := withScript rest s) named ne, hostReadReg_withScript]
    · rw [storeReg_sameBytes, withScript_sameBytes]
  case table =>
    have stored (reg : Reg) (named : Reg.ofNumber s.cfg r.toNat = some reg) (notCmd : reg ≠ .cmd) (fits : v < 2 ^ reg.width) :
        step s = .next ((withScript rest s).storeReg v reg) := step_storeReg hc hb hs named fits notCmd
    exact ⟨fun h => stored .segSrcPort (h ▸ rfl) nofun, fun h => stored .segDstPort (h ▸ rfl) nofun,
      fun h => stored .segSeqNum (h ▸ rfl) nofun, fun h => stored .segAckNum (h ▸ rfl) nofun,
      fun h => stored .segHdrLen (h ▸ rfl) nofun, fun h => stored .segFlags (h ▸ rfl) nofun,
      fun h => stored .segRecvWindow (h ▸ rfl) nofun, fun h => stored .segChecksum (h ▸ rfl) nofun,
      fun h => stored .segPlen (h ▸ rfl) nofun, fun h => stored .flen (h ▸ rfl) nofun,
      fun h => stored .acktSrcPort (h ▸ rfl) nofun, fun h => stored .acktDstPort (h ▸ rfl) nofun,
      fun h => stored .acktSeqNum (h ▸ rfl) nofun, fun h => stored .acktHdrLen (h ▸ rfl) nofun,
      fun h => stored .acktRecvWindow (h ▸ rfl) nofun⟩

/-! ### Buffer bytes -/

/-- A byte written to `PAY` reads back, and no other byte changes (R84). -/
theorem hostReadByte_writePay {s : State} {i : Nat} (v : Byte) (within : i < s.cfg.mss) :
    hostReadByte (writePay i v s) 0x00 i = v ∧
      ∀ c j, ¬ (c = 0x00 ∧ j = i) → hostReadByte (writePay i v s) c j = hostReadByte s c j := by
  constructor
  · rw [hostReadByte_pay, writePay_cfg, if_pos within, writePay_payByte, if_pos rfl]
  · intro c j other
    refine hostReadByte_congr rfl (fun pay => ?_) (fun _ => rfl) (fun _ => rfl) (fun _ => ⟨rfl, rfl⟩) fun _ => rfl
    rw [writePay_payByte, if_neg fun same => other ⟨pay, same.symm⟩]

/-- A byte written to `FRM` reads back, and no other byte changes (R84). -/
theorem hostReadByte_writeFrm {s : State} {i : Nat} (v : Byte) (within : i < s.cfg.frameSize) :
    hostReadByte (writeFrm i v s) 0x01 i = v ∧
      ∀ c j, ¬ (c = 0x01 ∧ j = i) → hostReadByte (writeFrm i v s) c j = hostReadByte s c j := by
  constructor
  · rw [hostReadByte_frm, writeFrm_cfg, if_pos within, writeFrm_frmByte, if_pos rfl]
  · intro c j other
    refine hostReadByte_congr rfl (fun _ => rfl) (fun frm => ?_) (fun _ => rfl) (fun _ => ⟨rfl, rfl⟩) fun _ => rfl
    rw [writeFrm_frmByte, if_neg fun same => other ⟨frm, same.symm⟩]

/-- Settles O51: the byte is stored in its buffer, and nothing else is written. -/
theorem hostWriteByteStoresOneByte : Obligations.HostWriteByteStoresOneByte := by
  unfold Obligations.HostWriteByteStoresOneByte
  intro s b i v rest hc hb hs place
  have sameAs (c j : Nat) : hostReadByte (withScript rest s) c j = hostReadByte s c j := withScript_sameBytes rest s c j
  obtain ⟨rfl, within⟩ | ⟨rfl, within⟩ := place
  · obtain ⟨stored, others⟩ := hostReadByte_writePay (s := withScript rest s) v within
    have performed : step s = .next (writePay i v (withScript rest s)) :=
      (step_writeByte hc hb hs).trans (congrArg _ (hostWriteByte_pay (s := withScript rest s) within v))
    exact ⟨_, performed, stored, fun c j other => (others c j other).trans (sameAs c j), rfl⟩
  · obtain ⟨stored, others⟩ := hostReadByte_writeFrm (s := withScript rest s) v within
    have performed : step s = .next (writeFrm i v (withScript rest s)) :=
      (step_writeByte hc hb hs).trans (congrArg _ (hostWriteByte_frm (s := withScript rest s) within v))
    exact ⟨_, performed, stored, fun c j other => (others c j other).trans (sameAs c j), rfl⟩

/-- The element at an index, with a default beyond the end. -/
theorem getElem?_eq_some_getD (l : List Byte) (i : Nat) :
    l[i]? = some (l.getD i 0) ∨ (l.length ≤ i ∧ l.getD i 0 = 0) := by
  rw [List.getD_eq_getElem?_getD]
  cases h : l[i]? with
  | none => exact .inr ⟨List.getElem?_eq_none_iff.1 h, rfl⟩
  | some v => exact .inl rfl

/-- A slot's buffer beyond `MSS`, and every number of no slot, read as 0 (R72). -/
theorem hostReadByte_high_eq_zero {s : State} {b i : Nat} (high : 0x10 ≤ b) (beyond : s.cfg.mss ≤ i) :
    hostReadByte s b i = 0 := by
  by_cases slot : b < 0x10 + s.cfg.pendSlots
  · obtain ⟨k, rfl⟩ := Nat.exists_eq_add_of_le high
    rw [hostReadByte_slot s i (by omega), if_neg (Nat.not_lt.2 beyond)]
  · exact hostReadByte_none s i (.inr (Nat.le_of_not_lt slot))

/-- Settles O52: the byte read is handed back, whichever buffer it is of. -/
theorem hostReadByteHandsBackTheByte : Obligations.HostReadByteHandsBackTheByte := by
  unfold Obligations.HostReadByteHandsBackTheByte
  intro s b i rest hc hb ackfLength outLength hs
  have performed : step s = .next (handBack (hostReadByte (withScript rest s) b.toNat i).toNat (withScript rest s)) :=
    (step_event hc hs).trans (perform_readByte (s := withScript rest s) hb b i)
  rw [withScript_sameBytes rest s b.toNat i] at performed
  refine ⟨_, performed, ?pay, ?frm, ?ackf, ?out, fun k hk inSlots within => ?slot, fun absent => ?absent⟩
  case pay =>
    rintro rfl within
    exact (hostReadByte_pay s i).trans (if_pos within)
  case frm =>
    rintro rfl within
    exact (hostReadByte_frm s i).trans (if_pos within)
  case ackf =>
    rintro rfl
    have read : hostReadByte s (0x002 : BitVec 12).toNat i = s.ackf.getD i 0 := hostReadByte_ackf s i
    rw [read, ← ackfLength]
    exact getElem?_eq_some_getD s.ackf i
  case out =>
    rintro rfl
    have read : hostReadByte s (0x003 : BitVec 12).toNat i = s.out.getD i 0 := by
      refine (hostReadByte_out s i).trans ?_
      rw [outLength]
      split
      next => rfl
      next beyond => rw [List.getD_eq_default _ _ (Nat.le_of_not_lt beyond)]
    rw [read]
    exact getElem?_eq_some_getD s.out i
  case slot => rw [hk, hostReadByte_slot s i inSlots, if_pos within]
  case absent =>
    obtain ⟨rfl, beyond⟩ | ⟨rfl, beyond⟩ | none | ⟨high, beyond⟩ | none := absent
    · exact (hostReadByte_pay s i).trans (if_neg (Nat.not_lt.2 beyond))
    · exact (hostReadByte_frm s i).trans (if_neg (Nat.not_lt.2 beyond))
    · exact hostReadByte_none s i (.inl none)
    · exact hostReadByte_high_eq_zero high beyond
    · exact hostReadByte_none s i (.inr none)

/-! ### Refusals -/

/-- A command word is always answered (R230). -/
theorem issueCommand_answers (w : CmdWord) (s : State) : ∃ t, issueCommand w s = .next t := by
  obtain ⟨t, answered, -⟩ := issueCommand_cc w s
  exact ⟨t, answered⟩

/-- A register write is answered exactly when its value has the register's width (R21). -/
theorem hostWriteReg_answers_iff {s : State} {r : BitVec 12} {v : Nat} :
    (∃ t, hostWriteReg r.toNat v s = .next t) ↔ (Event.writeReg r v).dutiful s = true := by
  cases named : Reg.ofNumber s.cfg r.toNat with
  | none => simp [Event.dutiful, named, hostWriteReg_none named]
  | some reg =>
    simp only [Event.dutiful, named, decide_eq_true_eq]
    by_cases fits : v < 2 ^ reg.width
    · refine iff_of_true ?_ fits
      simp only [hostWriteReg, named, if_neg (Nat.not_le.2 fits)]
      split
      · exact issueCommand_answers _ s
      · exact ⟨_, rfl⟩
    · rw [hostWriteReg_wide named (Nat.le_of_not_lt fits)]
      exact iff_of_false (by rintro ⟨_, ⟨⟩⟩) fits

/-- Settles O57: with `BUSY` at 0 every event but an over-wide write and an advance to the bound is answered. -/
theorem nothingIsStuckWhenDutiesAreKept : Obligations.NothingIsStuckWhenDutiesAreKept := by
  unfold Obligations.NothingIsStuckWhenDutiesAreKept
  intro s e rest inv hs
  have busy : (withScript rest s).busy = false := inv.busy
  rw [step_event inv.cfg hs]
  cases e with
  | writeReg r v =>
    rw [perform_writeReg busy]
    exact hostWriteReg_answers_iff
  | readReg r =>
    rw [perform_readReg busy]
    exact iff_of_true ⟨_, rfl⟩ rfl
  | writeByte b i v =>
    rw [perform_writeByte busy]
    exact iff_of_true ⟨_, rfl⟩ rfl
  | readByte b i =>
    rw [perform_readByte busy]
    exact iff_of_true ⟨_, rfl⟩ rfl
  | tick n =>
    rw [perform_tick, tick, withScript_now, Event.dutiful, decide_eq_true_eq]
    split
    next bound => exact iff_of_true ⟨_, rfl⟩ bound
    next reached => exact iff_of_false (by rintro ⟨_, ⟨⟩⟩) reached
  | hardwareReset => exact iff_of_true ⟨_, perform_hardwareReset _⟩ rfl

section
variable {s : State}

/-- An access that the host may not make is refused (R85). -/
theorem perform_refused {e : Event} (h : hostMayAccess s e = false) : perform e s = .refused .hostAccessWhileBusy := by
  simp only [perform, h, if_true]

/-- While `BUSY = 1` only a read of `STATUS` is answered among the host's accesses (R85). -/
theorem hostMayAccess_busy (busy : s.busy = true) {e : Event}
    (access : (∃ r v, e = .writeReg r v) ∨ (∃ r, e = .readReg r ∧ r ≠ 0x00B) ∨ (∃ b i v, e = .writeByte b i v) ∨
      (∃ b i, e = .readByte b i)) : hostMayAccess s e = false := by
  obtain ⟨r, v, rfl⟩ | ⟨r, rfl, notStatus⟩ | ⟨b, i, v, rfl⟩ | ⟨b, i, rfl⟩ := access
  case inr.inl =>
    have other : r.toNat ≠ Reg.status.number := fun same => notStatus (BitVec.eq_of_toNat_eq same)
    simp [hostMayAccess, busy, other]
  all_goals simp [hostMayAccess, busy]

/-- A read of `STATUS` is answered whatever `BUSY` is (R85). -/
theorem perform_readStatus : perform (.readReg 0x00B) s = .next (handBack s.statusWord.toNat s) := by
  have allowed : hostMayAccess s (.readReg 0x00B) = true := Bool.or_true _
  simp only [perform, allowed, Bool.true_eq_false, if_false]
  rfl

end

/-- The registers of R22 that belong to no slot. -/
def Reg.fixed : List Reg :=
  [.segSrcPort, .segDstPort, .segSeqNum, .segAckNum, .segHdrLen, .segFlags, .segRecvWindow, .segChecksum, .segPlen, .flen,
    .csumCalc, .status, .esr, .cmd, .now, .deadline, .tdur, .expected, .outlen, .pendcnt, .acktSrcPort, .acktDstPort,
    .acktSeqNum, .acktHdrLen, .acktRecvWindow]

/-- A register that belongs to no slot is the one that its number names, in every configuration (R22). -/
theorem Reg.ofNumber_number {r : Reg} (h : r ∈ Reg.fixed) (c : Config) : Reg.ofNumber c r.number = some r := by
  cases r
  case slotCtl | slotOff | slotLen => simp [Reg.fixed] at h
  all_goals rfl

/-- Settles O58: each refusal, and the answered read of `STATUS`, from its own test in the step. -/
theorem outsideTheContractTheModelRefuses : Obligations.OutsideTheContractTheModelRefuses := by
  unfold Obligations.OutsideTheContractTheModelRefuses
  refine ⟨fun s e rest hc busy hs access => ?busy, fun s rest hc busy hs => (step_event hc hs).trans perform_readStatus,
    fun s bad => if_pos bad, fun s hc ended => ?ended, fun s r w v rest hc hb hs listed wide => ?wide⟩
  case busy => rw [step_event hc hs, perform_refused (hostMayAccess_busy (s := withScript rest s) busy access)]
  case ended => simp only [step, hc, nextEvent, ended, Bool.true_eq_false, if_false]
  case wide =>
    obtain ⟨reg, fixed, same⟩ := List.mem_map.1 (show (r.toNat, w) ∈ Reg.fixed.map fun r => (r.number, r.width) from listed)
    obtain ⟨number, rfl⟩ := Prod.mk.inj same
    have named : Reg.ofNumber s.cfg r.toNat = some reg := number ▸ Reg.ofNumber_number fixed s.cfg
    rw [step_writeReg hc hb hs, hostWriteReg_wide (s := withScript rest s) named wide]

end Sys2Proof.Machine
end

section
/-! PROOFS. Reset (R22, R55, R260), and the position of the stream through every step (R212). -/

namespace Sys2Proof.Machine

/-! ### The reset values (R22) -/

/-- What a register reads as after the hardware reset: its reset column, and `NOW` as before (R22, R55). -/
def resetValue (s : State) : Reg → Nat
  | .acktHdrLen => 18
  | .now => s.now.toNat
  | _ => 0

theorem hardwareReset_slot (s : State) (i : Nat) : (hardwareReset s).slot i = Slot.empty := by
  rw [State.slot, hardwareReset_slots, List.getD_eq_getElem?_getD, List.getElem?_replicate]
  split <;> rfl

/-- Every field of `STATUS` has the code 0 at reset (R22, R30). -/
theorem hardwareReset_statusWord (s : State) : (hardwareReset s).statusWord = 0 := by
  simp [State.statusWord, State.texp, bit, TimerState.code, ReasmState.code, CompletionCode.code, RxResult.code]

theorem readReg_hardwareReset (s : State) (r : Reg) : (hardwareReset s).readReg r = resetValue s r := by
  cases r
  case slotCtl i | slotOff i | slotLen i =>
    rw [State.readReg, hardwareReset_slot]
    rfl
  case status => rw [State.readReg, hardwareReset_statusWord]; rfl
  case pendcnt =>
    rw [State.readReg, State.pendCnt, hardwareReset_slots, List.countP_replicate]
    rfl
  all_goals rfl

/-- The reset column by number: `ACKT_HDR_LEN` is number `0x23` and `NOW` is `0x10` (R22). -/
theorem resetValue_of_number {c : Config} {n : Nat} {r : Reg} (named : Reg.ofNumber c n = some r) (s : State) :
    resetValue s r = if n = 0x23 then 18 else if n = 0x10 then s.now.toNat else 0 := by
  obtain rfl := Reg.number_of_ofNumber named
  cases r
  case slotCtl i | slotOff i | slotLen i =>
    rw [if_neg (by simp only [Reg.number]; omega), if_neg (by simp only [Reg.number]; omega)]
    rfl
  all_goals rfl

theorem hostReadReg_hardwareReset (s : State) (n : Nat) :
    hostReadReg (hardwareReset s) n = if n = 0x23 then 18 else if n = 0x10 then s.now.toNat else 0 := by
  cases named : Reg.ofNumber s.cfg n with
  | none =>
    rw [hostReadReg_none (s := hardwareReset s) named, if_neg, if_neg]
    · rintro rfl
      cases named
    · rintro rfl
      cases named
  | some r => rw [hostReadReg_some (s := hardwareReset s) named, readReg_hardwareReset, resetValue_of_number named]

/-- Settles O41: the reset writes every register's column and draws the RAM contents anew. -/
theorem hardwareResetGivesTheResetState : Obligations.HardwareResetGivesTheResetState := by
  unfold Obligations.HardwareResetGivesTheResetState
  intro s rest hc hs
  refine ⟨_, step_event hc hs, rfl, rfl, rfl, rfl, hostReadReg_hardwareReset _, fun i => ?ackf, rfl, rfl, fun k => rfl,
    fun k => rfl, fun i k => ?slot⟩
  case ackf =>
    rw [hostReadByte_ackf, hardwareReset_ackf, List.getD_eq_getElem?_getD, List.getElem?_replicate]
    split <;> rfl
  case slot =>
    rw [State.slotByte, hardwareReset_slot]
    rfl

/-- The machine right after reset reads as one that the hardware reset has just brought there: only the draw's number
differs. -/
theorem readReg_reset (r : Reg) : State.reset.readReg r = (hardwareReset State.reset).readReg r := by
  cases r <;> rfl

/-- Settles O42: the machine right after reset reads as the hardware reset leaves it. -/
theorem resetReadsAsTheRegisterTable : Obligations.ResetReadsAsTheRegisterTable := by
  unfold Obligations.ResetReadsAsTheRegisterTable
  intro n notNow
  have read : hostReadReg State.reset n = hostReadReg (hardwareReset State.reset) n := by
    simp only [hostReadReg, readReg_reset]
    rfl
  rw [read, hostReadReg_hardwareReset, if_neg notNow]

/-! ### The position of the stream (R212) -/

/-- `EXPECTED` is as far after `x` as `OUT` is long, modulo `2^32` (R212). -/
def State.positionedFrom (s : State) (x : Word) : Prop := s.expected = add32 x (s.outlen.toNat % 2 ^ 32)

theorem positionedFrom_of_eq {s t : State} {x : Word} (expected : t.expected = s.expected) (outlen : t.outlen = s.outlen)
    (h : s.positionedFrom x) : t.positionedFrom x := by
  rw [State.positionedFrom, expected, outlen]
  exact h

/-- Bytes appended to `OUT` move `EXPECTED` and `OUTLEN` alike (R202, R212). -/
theorem positionedFrom_of_appended {s t : State} {x : Word} {n : Nat} (expected : t.expected = add32 s.expected n)
    (outlen : t.outlen = s.outlen + BitVec.ofNat 64 n) (h : s.positionedFrom x) : t.positionedFrom x := by
  rw [State.positionedFrom] at h ⊢
  apply BitVec.eq_of_toNat_eq
  rw [expected, h, outlen, add32_add32, add32_toNat, add32_toNat, BitVec.toNat_add, BitVec.toNat_ofNat]
  omega

/-- An empty stream stands at the offset it is opened at (R192). -/
theorem positionedFrom_empty {s : State} {x : Word} (expected : s.expected = x) (outlen : s.outlen = 0) :
    s.positionedFrom x := by
  rw [State.positionedFrom, expected, outlen]
  exact (add32_zero x).symm

/-- The offset at which the stream is open after a command, `x` being the one before it (R192, R222). -/
def commandStart (x : Word) : Instr → Word
  | .rsmInit y => y
  | .sysReset => 0
  | _ => x

theorem streamStart_command {r : BitVec 12} {v : Nat} {i : Instr} (number : r.toNat = Reg.cmd.number)
    (decoded : decode (BitVec.ofNat 40 v) = .ok i) (x : Word) : (Event.writeReg r v).streamStart x = commandStart x i := by
  simp only [Event.streamStart, if_pos number, decoded]
  cases i <;> rfl

theorem streamStart_illegal {r : BitVec 12} {v : Nat} {e : DecodeError} (number : r.toNat = Reg.cmd.number)
    (decoded : decode (BitVec.ofNat 40 v) = .error e) (x : Word) : (Event.writeReg r v).streamStart x = x := by
  simp only [Event.streamStart, if_pos number, decoded]

theorem streamStart_otherRegister {r : BitVec 12} (v : Nat) (notCmd : r.toNat ≠ Reg.cmd.number) (x : Word) :
    (Event.writeReg r v).streamStart x = x := by
  simp only [Event.streamStart, if_neg notCmd]

/-- Every command keeps the position, from where the stream is open after it (R192, R202, R222). -/
theorem commandOutcome_positionedFrom {s : State} {x : Word} (i : Instr) (h : s.positionedFrom x) :
    (commandOutcome s i).positionedFrom (commandStart x i) := by
  cases i with
  | rsmInit y => exact positionedFrom_empty rfl rfl
  | sysReset => exact positionedFrom_empty rfl rfl
  | rsmRx =>
    by_cases code : completionCode s .rsmRx = .ok
    · obtain ⟨bs, -, expected, outlen, -⟩ := classifyAndApply_stream s
      have outcome : commandOutcome s .rsmRx = rxOutcome s := commandOutcome_ok code
      rw [← rxOutcome_expected] at expected
      rw [← rxOutcome_outlen] at outlen
      rw [outcome]
      exact positionedFrom_of_appended expected outlen h
    · rw [commandOutcome_error code]
      exact h
  | sysNop | csumGen | csumChk | frmEnc | frmDec | tmrStart | tmrRestart | tmrStop | tmrPoll =>
    refine positionedFrom_of_eq ?_ ?_ h
    · exact commandOutcome_unchanged State.expected (raised_expected · s) (by simp [commandEffect])
    · exact commandOutcome_unchanged State.outlen (raised_outlen · s) (by simp [commandEffect])

/-- Every event keeps the position, from where the stream is open after it. -/
theorem EventEffect.positionedFrom {s t : State} {e : Event} {x : Word} (effect : EventEffect s e t)
    (h : s.positionedFrom x) : t.positionedFrom (e.streamStart x) := by
  cases effect with
  | command r v i number _ decoded =>
    rw [streamStart_command number decoded]
    exact commandOutcome_positionedFrom i h
  | illegal r v e number _ decoded =>
    rw [streamStart_illegal number decoded]
    exact h
  | ignored r v reserved =>
    rw [streamStart_otherRegister v (Reg.ne_cmd_of_reserved reserved)]
    exact h
  | stored r v reg named notCmd =>
    rw [streamStart_otherRegister v (notCmd ∘ (Reg.eq_cmd_iff named).2), storeReg_frame]
    exact h
  | readReg | readByte => exact h
  | writeByte =>
    rw [hostWriteByte_frame]
    exact h
  | tick n =>
    refine positionedFrom_of_eq ?_ ?_ h
    · rw [evalExpiry_expected, advanceNow_expected]
    · rw [evalExpiry_outlen, advanceNow_outlen]
  | hardwareReset => exact positionedFrom_empty rfl rfl

/-- Settles O59: bytes appended move both registers alike, and an event that opens a stream leaves it empty. -/
theorem everyStepKeepsTheStreamPosition : Obligations.EveryStepKeepsTheStreamPosition := by
  unfold Obligations.EveryStepKeepsTheStreamPosition
  intro s t e rest x hs h positioned
  exact (step_effect hs h).positionedFrom (s := withScript rest s) positioned

end Sys2Proof.Machine
end

section
/-! PROOFS. The invariant of the machine (R33, R37, R41, R43, R46, R48): reset meets it and every step keeps it. -/

namespace Sys2Proof.Machine

/-! ### Slots -/

/-- A freed slot is well kept when the slot was: only its `DATA` is left (R193). -/
theorem Slot.inv_freed {mss : Nat} {t : Slot} (h : t.inv mss = true) : t.freed.inv mss = true := by
  simp only [Slot.inv, Bool.and_eq_true] at h
  obtain ⟨⟨wf, within⟩, -⟩ := h
  simp [Slot.inv, Slot.freed, wf, within]

/-- A slot filled with a segment that a frame can hold is well kept (R43 (c), R205). -/
theorem Slot.inv_fillSlot {mss n : Nat} {t : Slot} (h : t.inv mss = true) (off : Word) (fin : Bool) {p : List Byte}
    (length : p.length = n) (fits : n ≤ mss) : (fillSlot off n fin p t).inv mss = true := by
  simp only [Slot.inv, Bool.and_eq_true] at h
  obtain ⟨⟨wf, within⟩, -⟩ := h
  have len : (BitVec.ofNat 16 n).toNat ≤ mss := by
    rw [BitVec.toNat_ofNat]
    exact (Nat.mod_le _ _).trans fits
  simp only [Slot.inv, fillSlot, if_true, Bool.and_eq_true]
  exact ⟨⟨Memory.writeBytes_wf p 0 wf, Memory.writeBytes_within p 0 within (by omega)⟩, decide_eq_true len⟩

theorem Slot.inv_empty (mss : Nat) : Slot.empty.inv mss = true := rfl

/-- What the invariant says of the slot file: R43 and R193. -/
structure State.slotsKept (s : State) : Prop where
  slot : ∀ t ∈ s.slots, t.inv s.cfg.mss = true
  slotsDistinct : distinctOffsets s.slots
  slotsAhead : ∀ t ∈ s.slots, t.v = true → gt32 t.off s.expected = true
  slotsClosed : s.rstate ≠ .active → ∀ t ∈ s.slots, t.v = false

theorem State.Inv.slotsKept {s : State} (inv : s.Inv) : s.slotsKept :=
  ⟨inv.slot, inv.slotsDistinct, inv.slotsAhead, inv.slotsClosed⟩

/-- A slot file of free slots keeps R43 in every state of the stream. -/
theorem slotsKept_of_free {s : State} (slot : ∀ t ∈ s.slots, t.inv s.cfg.mss = true) (free : ∀ t ∈ s.slots, t.v = false) :
    s.slotsKept where
  slot := slot
  slotsDistinct := List.Pairwise.imp_of_mem (fun ha _ _ valid => by rw [free _ ha] at valid; cases valid)
    (List.pairwise_of_forall fun _ _ => trivial)
  slotsAhead t ht valid := by
    rw [free t ht] at valid
    cases valid
  slotsClosed _ := free

/-- Freeing every slot keeps R43 in every state of the stream (R193). -/
theorem slotsKept_of_freed {s t : State} (slots : t.slots = s.slots.map Slot.freed) (cfg : t.cfg = s.cfg)
    (slot : ∀ u ∈ s.slots, u.inv s.cfg.mss = true) : t.slotsKept := by
  refine slotsKept_of_free (fun u hu => ?_) (fun u hu => ?_)
  all_goals
    rw [slots, List.mem_map] at hu
    obtain ⟨w, hw, rfl⟩ := hu
  · rw [cfg]
    exact Slot.inv_freed (slot w hw)
  · rfl

/-- Stale entries freed, the ones left are after `EXPECTED` when none is left at it (R206, R43 (b)). -/
theorem slotsKept_collectStale {s : State} (slot : ∀ t ∈ s.slots, t.inv s.cfg.mss = true) (distinct : distinctOffsets s.slots)
    (active : s.rstate = .active) (gap : ¬ s.pending s.expected) : (collectStale s).slotsKept where
  slot t ht := by
    rw [collectStale_slots, List.mem_map] at ht
    obtain ⟨u, hu, rfl⟩ := ht
    split
    · exact Slot.inv_freed (slot u hu)
    · exact slot u hu
  slotsDistinct := by
    rw [collectStale_slots, distinctOffsets, List.pairwise_map]
    refine distinct.imp fun {a b} apart => ?_
    split
    · nofun
    · split
      · nofun
      · exact apart
  slotsAhead t ht valid := by
    rw [collectStale_slots, List.mem_map] at ht
    obtain ⟨u, hu, rfl⟩ := ht
    split at valid
    next => cases valid
    next kept =>
      rw [if_neg kept, collectStale_expected, gt32_iff]
      rw [Bool.and_eq_true, not_and, Bool.not_eq_true] at kept
      exact ⟨kept valid, fun same => gap ⟨u, hu, valid, same⟩⟩
  slotsClosed closed := absurd active closed

/-- An in-order segment leaves the slot file kept: completed, every slot is free; else nothing is left at or before `EXPECTED`
(R203, R204, R206). -/
theorem slotsKept_accept {s : State} (kept : s.slotsKept) (active : s.rstate = .active) (n : Nat) (fin : Bool) :
    (accept n fin s).2.slotsKept := by
  have slot := merge_slots (fun t => t.inv s.cfg.mss = true) (fun _ => Slot.inv_freed) s.slots.length fin
    (appendOut (s.payBytes n) s) kept.slot
  have distinct := merge_distinctOffsets s.slots.length fin (appendOut (s.payBytes n) s) kept.slotsDistinct
  have ended := merge_gap_end s.slots.length fin (appendOut (s.payBytes n) s) (pendCnt_le_length _)
  have cfg := merge_cfg s.slots.length fin (appendOut (s.payBytes n) s)
  have rstate := merge_rstate s.slots.length fin (appendOut (s.payBytes n) s)
  rw [accept_eq]
  obtain ⟨m, merged⟩ : ∃ m, merge s.slots.length fin (appendOut (s.payBytes n) s) = m := ⟨_, rfl⟩
  rw [merged] at slot distinct ended cfg rstate ⊢
  have slot' : ∀ t ∈ m.2.slots, t.inv m.2.cfg.mss = true := by
    rw [cfg]
    exact slot
  split
  next => exact slotsKept_of_freed (closeStream_slots _) (closeStream_cfg _) slot'
  next noFin => exact slotsKept_collectStale slot' distinct (rstate.trans active) (ended (Bool.eq_false_of_not_eq_true noFin))

/-- Slots with distinct offsets stay so when one takes an offset that none has (R43 (a), R205). -/
theorem distinctOffsets_set_new {l : List Slot} (distinct : distinctOffsets l) (i : Nat) {w : Slot}
    (new : ¬ ∃ t ∈ l, t.v = true ∧ t.off = w.off) : distinctOffsets (l.set i w) := by
  rw [distinctOffsets, List.pairwise_iff_getElem] at distinct ⊢
  intro j k hj hk hjk
  rw [List.length_set] at hj hk
  rw [List.getElem_set, List.getElem_set]
  split
  · rw [if_neg (by omega)]
    exact fun _ valid same => new ⟨_, List.getElem_mem hk, valid, same.symm⟩
  · split
    · exact fun valid _ same => new ⟨_, List.getElem_mem hj, valid, same⟩
    · exact distinct j k hj hk hjk

/-- An out-of-order segment leaves the slot file kept: its offset is new and after `EXPECTED` (R205). -/
theorem slotsKept_buffer {s : State} (kept : s.slotsKept) (active : s.rstate = .active) {off : Word} {n : Nat} (fin : Bool)
    (after : gt32 off s.expected = true) (fits : n ≤ s.cfg.mss) : (bufferSegment off n fin s).2.slotsKept := by
  simp only [bufferSegment]
  split
  · exact kept
  next new =>
    split
    · exact kept
    next i free =>
      obtain ⟨u, hu, -⟩ := firstFree_some.1 free
      have old : u.inv s.cfg.mss = true := kept.slot u (List.mem_of_getElem? hu)
      have slots : (storeSlot i off n fin s).slots = s.slots.set i (fillSlot off n fin (s.payBytes n) u) := by
        rw [storeSlot_slots, slot_of_getElem? hu]
      constructor
      case slot =>
        intro t ht
        rw [slots] at ht
        rcases List.mem_or_eq_of_mem_set ht with ht | rfl
        · exact kept.slot t ht
        · exact Slot.inv_fillSlot old off fin (payBytes_length s n) fits
      case slotsDistinct =>
        rw [slots]
        exact distinctOffsets_set_new kept.slotsDistinct i ((pendingAt_none _ _).1 new)
      case slotsAhead =>
        intro t ht valid
        rw [slots] at ht
        rcases List.mem_or_eq_of_mem_set ht with ht | rfl
        · exact kept.slotsAhead t ht valid
        · exact after
      case slotsClosed => exact fun closed => absurd active closed

/-- A valid segment in an open stream leaves the slot file kept (R43). -/
theorem slotsKept_applySegment {s : State} (kept : s.slotsKept) (active : s.rstate = .active)
    (fits : s.segPlen.toNat ≤ s.cfg.mss) : (applySegment s).2.slotsKept := by
  obtain stale | inOrder | ⟨after, outOfOrder⟩ := applySegment_cases s
  · rw [stale]
    exact kept
  · rw [inOrder]
    exact slotsKept_accept kept active _ _
  · rw [outOfOrder]
    exact slotsKept_buffer kept active _ after fits

theorem slotsKept_rxSegment {s : State} (kept : s.slotsKept) : (rxSegment s).slotsKept :=
  ⟨kept.slot, kept.slotsDistinct, kept.slotsAhead, kept.slotsClosed⟩

/-- `RSM.RX` with a stream opened leaves the slot file kept (R43). -/
theorem slotsKept_classify {s : State} (kept : s.slotsKept) (opened : s.rstate ≠ .idle) : (classifyAndApply s).2.slotsKept := by
  obtain ⟨-, undecoded⟩ | ⟨-, -, r, dropped⟩ | ⟨valid, notDone, applied⟩ := classify_cases s
  · rw [undecoded]
    exact kept
  · rw [dropped]
    exact slotsKept_rxSegment kept
  · have active : s.rstate = .active := active_of_opened opened notDone
    have fits : (rxSegment s).segPlen.toNat ≤ s.cfg.mss := by
      rw [rxSegment, rxSegment_segPlen_toNat]
      exact rxLegal_mss valid.1
    rw [applied]
    exact slotsKept_applySegment (slotsKept_rxSegment kept) active fits

/-! ### The timer -/

/-- The timer's invariant, state by state, over the numbers (R37, R181). -/
theorem timerInv_iff (s : State) : s.timerInv = true ↔
    (s.tstate = .idle ∧ s.deadline = 0) ∨
      (s.tstate = .running ∧ s.now.toNat < s.deadline.toNat ∧ s.tdurv = true) ∨
      (s.tstate = .expired ∧ s.deadline.toNat ≤ s.now.toNat ∧ s.tdurv = true) := by
  cases state : s.tstate <;> simp [State.timerInv, state, BitVec.lt_def, BitVec.le_def]

/-- Arming a timer of which a duration has been given keeps its invariant (R37, R172). -/
theorem timerInv_armTimer {s : State} (bound : s.now.toNat < timeBound) (given : s.tdurv = true) (d : Word) :
    (armTimer d s).timerInv = true := by
  rw [timerInv_iff, armTimer_deadline_toNat bound d, armTimer_tstate_bound bound d, armTimer_now, armTimer_tdurv]
  by_cases zero : d = 0
  · subst zero
    exact .inr (.inr ⟨if_pos rfl, Nat.le_refl _, given⟩)
  · have positive : d.toNat ≠ 0 := fun h => zero (BitVec.eq_of_toNat_eq h)
    exact .inr (.inl ⟨if_neg zero, by omega, given⟩)

/-- An advance of the time base keeps the timer's invariant (R37, R180). -/
theorem timerInv_advance {s : State} {n : Nat} (bound : s.now.toNat + n < timeBound) (inv : s.timerInv = true) :
    (evalExpiry (advanceNow n s)).timerInv = true := by
  have tstate : (evalExpiry (advanceNow n s)).tstate = _ := congrArg State.tstate (evalExpiry_advanceNow bound)
  rw [timerInv_iff] at inv ⊢
  rw [tstate, evalExpiry_now, evalExpiry_deadline, evalExpiry_tdurv, advanceNow_now_toNat bound, advanceNow_deadline,
    advanceNow_tdurv]
  obtain ⟨idle, zero⟩ | ⟨running, -, given⟩ | ⟨expired, reached, given⟩ := inv
  · simp [idle, zero]
  · by_cases reached : s.deadline.toNat ≤ s.now.toNat + n
    · simp [running, reached, given]
    · simp [running, reached, given, Nat.lt_of_not_le reached]
  · simp [expired, given, Nat.le_add_right_of_le reached]

/-! ### Resets -/

theorem completed_inv {s : State} (inv : s.Inv) : (completed s).Inv := { inv with }

theorem raised_inv {s : State} (c : CompletionCode) (inv : s.Inv) : (raised c s).Inv :=
  { inv with esr := (esrRaised_sticky (esrRaised_raised c s)).2.trans inv.esr }

/-- The registers at their reset values meet the invariant with any slot file that keeps it (R22, R55). -/
theorem resetRegisters_inv {s : State} (inv : s.Inv) : (freeAll (resetRegisters s)).Inv :=
  { slotsKept_of_freed (s := resetRegisters s) (t := freeAll (resetRegisters s)) rfl rfl inv.slot with
    cfg := inv.cfg
    now := inv.now
    busy := rfl
    timer := rfl
    esr := BitVec.zero_and
    pay := inv.pay
    frm := inv.frm
    ackf := rfl
    outlen := rfl
    slotCount := (List.length_map _).trans inv.slotCount }

/-- The hardware reset leaves a machine that meets the invariant (R55, R260). -/
theorem hardwareReset_inv {s : State} (inv : s.Inv) : (hardwareReset s).Inv := by
  have empty : ∀ t ∈ (hardwareReset s).slots, t = Slot.empty := fun t ht => List.eq_of_mem_replicate ht
  have kept : (hardwareReset s).slotsKept :=
    slotsKept_of_free (fun t ht => empty t ht ▸ Slot.inv_empty _) (fun t ht => empty t ht ▸ rfl)
  exact { kept with
    cfg := inv.cfg
    now := inv.now
    busy := rfl
    timer := rfl
    esr := BitVec.zero_and
    pay := ⟨rfl, rfl⟩
    frm := ⟨rfl, rfl⟩
    ackf := rfl
    outlen := rfl
    slotCount := List.length_replicate }

/-- Settles O55: the reset state holds the reset values, and its slots are empty. -/
theorem resetKeepsTheInvariant : Obligations.ResetKeepsTheInvariant := by
  unfold Obligations.ResetKeepsTheInvariant
  have empty : ∀ t ∈ State.reset.slots, t = Slot.empty := fun t ht => List.eq_of_mem_replicate ht
  have kept : State.reset.slotsKept :=
    slotsKept_of_free (fun t ht => empty t ht ▸ Slot.inv_empty _) (fun t ht => empty t ht ▸ rfl)
  exact { kept with
    cfg := by decide
    now := by decide
    busy := rfl
    timer := rfl
    esr := BitVec.zero_and
    pay := ⟨rfl, rfl⟩
    frm := ⟨rfl, rfl⟩
    ackf := rfl
    outlen := rfl
    slotCount := List.length_replicate }

/-! ### Commands -/

section
variable {s : State} (inv : s.Inv)
include inv

/-- Encoding stores a frame within `FRM` (R151). -/
theorem encodeFrame_inv (fits : s.segPlen.toNat ≤ s.cfg.mss) : (encodeFrame s).Inv := by
  have bounds := Config.ok_bounds inv.cfg
  have length := segFrame_length s
  obtain ⟨wf, within⟩ := inv.frm
  have frm : (s.frm.writeBytes 0 s.segFrame).wf = true ∧ (s.frm.writeBytes 0 s.segFrame).within s.cfg.frameSize = true :=
    ⟨Memory.writeBytes_wf _ 0 wf, Memory.writeBytes_within _ 0 within (by omega)⟩
  exact { inv with frm := by rwa [encodeFrame_frm, encodeFrame_cfg] }

/-- Decoding a legal frame stores its payload within `PAY` (R156). -/
theorem decodeFrame_inv (legal : s.rxLegal) : (decodeFrame s).Inv := by
  have length := frmBytes_length s hdrBytes s.framePlen
  have fits := rxLegal_mss legal
  obtain ⟨wf, within⟩ := inv.pay
  have pay : (s.pay.writeBytes 0 (s.frmBytes hdrBytes s.framePlen)).wf = true ∧
      (s.pay.writeBytes 0 (s.frmBytes hdrBytes s.framePlen)).within s.cfg.mss = true :=
    ⟨Memory.writeBytes_wf _ 0 wf, Memory.writeBytes_within _ 0 within (by omega)⟩
  exact { inv with pay := by rwa [decodeFrame_pay, decodeFrame_cfg] }

/-- Arming the timer writes the timer alone (R172, R174). -/
theorem armTimer_inv (given : s.tdurv = true) (d : Word) : (armTimer d s).Inv := by
  have timer := timerInv_armTimer inv.now given d
  rw [armTimer_eq inv.now] at timer ⊢
  exact { inv with timer }

/-- Opening a stream frees every slot and empties `OUT` (R192). -/
theorem openStream_inv (x : Word) : (openStream x (freeAll s)).Inv := by
  have kept : (openStream x (freeAll s)).slotsKept := slotsKept_of_freed (s := s) rfl rfl inv.slot
  exact { kept with
    cfg := inv.cfg
    now := inv.now
    busy := inv.busy
    timer := inv.timer
    esr := inv.esr
    pay := inv.pay
    frm := inv.frm
    ackf := inv.ackf
    outlen := rfl
    slotCount := (List.length_map _).trans inv.slotCount }

/-- A recorded duration is one that has been given (R38). -/
theorem recordDuration_inv (d : Word) : (recordDuration d s).Inv := by
  have timer := inv.timer
  rw [timerInv_iff] at timer
  have timer' : (recordDuration d s).timerInv = true := by
    rw [timerInv_iff]
    obtain idle | ⟨running, ahead, -⟩ | ⟨expired, reached, -⟩ := timer
    · exact .inl idle
    · exact .inr (.inl ⟨running, ahead, rfl⟩)
    · exact .inr (.inr ⟨expired, reached, rfl⟩)
  exact { inv with timer := timer' }

/-- `RSM.RX` stores the payload of a legal frame within `PAY`, and of another nothing (R196). -/
theorem rxOutcome_pay_inv : (rxOutcome s).pay.wf = true ∧ (rxOutcome s).pay.within s.cfg.mss = true := by
  by_cases legal : s.rxLegal
  · rw [rxOutcome_pay, classify_segment State.pay applySegment_pay legal]
    exact (decodeFrame_inv inv legal).pay
  · rw [rxOutcome_pay, classify_illegal legal]
    exact inv.pay

/-- `RSM.RX` moves `OUTLEN` with `OUT` (R46, R202, R203). -/
theorem rxOutcome_outlen_eq : (rxOutcome s).outlen = BitVec.ofNat 64 (rxOutcome s).out.length := by
  obtain ⟨bs, out, -, outlen, -⟩ := classifyAndApply_stream s
  rw [rxOutcome_outlen, rxOutcome_out, out, outlen, inv.outlen, List.length_append, BitVec.ofNat_add]

/-- `RSM.RX` with a stream opened keeps the invariant (R43, R46, R48, R195). -/
theorem rxOutcome_inv (opened : s.rstate ≠ .idle) : (rxOutcome s).Inv := by
  obtain ⟨slot, slotsDistinct, slotsAhead, slotsClosed⟩ := slotsKept_classify inv.slotsKept opened
  have slotCount := (classifyAndApply_slots_length s).trans inv.slotCount
  rw [classifyAndApply_cfg] at slot
  rw [← rxOutcome_slots] at slot slotsDistinct slotsAhead slotsClosed slotCount
  rw [← rxOutcome_expected] at slotsAhead
  rw [← rxOutcome_rstate] at slotsClosed
  have raised : s.esrRaised (rxOutcome s) :=
    ⟨(classifyAndApply s).1.esrMask, by cases (classifyAndApply s).1 <;> decide, rxOutcome_esr s⟩
  have esr := (esrRaised_sticky raised).2.trans inv.esr
  have ackf : (rxOutcome s).ackf.length = hdrBytes := Header.bytes_length _
  have pay := rxOutcome_pay_inv inv
  have outlen := rxOutcome_outlen_eq inv
  rw [rxOutcome_frame]
  exact { inv with pay, esr, ackf, outlen, slotCount, slot, slotsDistinct, slotsAhead, slotsClosed }

/-- Every command keeps the invariant. -/
theorem commandOutcome_inv (i : Instr) : (commandOutcome s i).Inv := by
  by_cases code : completionCode s i = .ok
  · rw [commandOutcome_ok code]
    cases i with
    | rsmRx =>
      refine rxOutcome_inv inv fun idle => ?_
      rw [completionCode, if_pos idle] at code
      cases code
    | sysNop => exact completed_inv inv
    | csumGen | csumChk | tmrPoll => exact { inv with }
    | frmEnc =>
      refine completed_inv (encodeFrame_inv inv (Nat.le_of_not_lt fun long => ?_))
      rw [completionCode, if_pos long] at code
      cases code
    | frmDec =>
      have legal : s.rxLegal := by
        by_contra illegal
        rw [completionCode, if_pos ((flenLegal_false s).2 illegal)] at code
        cases code
      exact { decodeFrame_inv inv legal with }
    | tmrStart d => exact completed_inv (armTimer_inv (recordDuration_inv inv d) rfl d)
    | tmrRestart =>
      have given : s.tdurv = true := by
        by_contra none
        rw [completionCode, if_pos (Bool.eq_false_of_not_eq_true none)] at code
        cases code
      exact completed_inv (armTimer_inv inv given s.tdur)
    | tmrStop => exact { inv with timer := rfl }
    | rsmInit x => exact completed_inv (openStream_inv inv x)
    | sysReset => exact completed_inv (resetRegisters_inv inv)
  · rw [commandOutcome_error code]
    exact raised_inv _ inv

/-! ### Events -/

/-- A host write within `PAY` or `FRM` keeps their canonical form and size (R50, R84). -/
theorem hostWriteByte_inv (b i : Nat) (v : Byte) : (hostWriteByte s b i v).Inv := by
  rw [hostWriteByte]
  split
  next place => exact { inv with pay := ⟨Memory.write_wf i v inv.pay.1, Memory.write_within v inv.pay.2 place.2⟩ }
  next =>
    split
    next place => exact { inv with frm := ⟨Memory.write_wf i v inv.frm.1, Memory.write_within v inv.frm.2 place.2⟩ }
    next => exact inv

/-- An advance of the time base below the platform's bound keeps the invariant (R39, R180). -/
theorem advance_inv {n : Nat} (bound : s.now.toNat + n < timeBound) : (evalExpiry (advanceNow n s)).Inv := by
  have timer := timerInv_advance bound inv.timer
  have now : (advanceNow n s).now.toNat < timeBound := (advanceNow_now_toNat bound).trans_lt bound
  rw [evalExpiry_advanceNow bound] at timer ⊢
  exact { inv with timer, now }

/-- Every event that is performed keeps the invariant. -/
theorem EventEffect.keeps_inv {t : State} {e : Event} (effect : EventEffect s e t) : t.Inv := by
  cases effect with
  | command r v i => exact commandOutcome_inv inv i
  | illegal => exact raised_inv _ inv
  | ignored => exact inv
  | stored =>
    rw [storeReg_frame]
    exact { inv with }
  | readReg | readByte => exact { inv with }
  | writeByte b i v => exact hostWriteByte_inv inv b.toNat i v
  | tick n bound => exact advance_inv inv bound
  | hardwareReset => exact hardwareReset_inv inv

end

/-- Settles O56: the event at the head of the script keeps the invariant, which says nothing of the script. -/
theorem everyStepKeepsTheInvariant : Obligations.EveryStepKeepsTheInvariant := by
  unfold Obligations.EveryStepKeepsTheInvariant
  intro s t inv h
  obtain ⟨-, e, rest, -, performed⟩ := step_next h
  have taken : (withScript rest s).Inv := { inv with }
  exact (perform_effect performed).keeps_inv taken

end Sys2Proof.Machine
end
